-- ==== Sys2Proof/Word.lean ====
section
/-! DEFINITION. Words: the widths of the values the block handles (spec/00_scope.md R7). -/

namespace Sys2Proof

/-- A byte, an unsigned 8-bit value (R7). -/
abbrev Byte := BitVec 8

/-- A `u16` of R7. -/
abbrev U16 := BitVec 16

/-- A `u32` of R7. -/
abbrev U32 := BitVec 32

/-- A byte string, a finite list of bytes, byte 0 first (R7). -/
abbrev Bytes := List Byte

/-- A node address. R5 and D46: "an opaque ADDR_BITS-bit value"; ADDR_BITS is a parameter, so the width is
a bound the command port checks (`Config.addrOk`), not a type. -/
abbrev Addr := Nat

/-- `ceil_div(a, b) = (a + b - 1) div b` for b ≥ 1 (R7). -/
def ceilDiv (a b : Nat) : Nat := (a + b - 1) / b

end Sys2Proof
end

