-- ==== Sys2Proof/Config.lean ====
section
/-! DEFINITION. The implementation parameters of spec/00_scope.md R5, their constraints (R6) and the
OtaTransferState record (10_state.md R45), which NV_INIT is one of. The model TAKES the parameters as an
argument, as R5 asks: a `Config` is a field of State that no step changes, so a claim over every state is a
claim over every parameter set. `Config.default` is this hardware's set. -/

namespace Sys2Proof

/-- `role` of R45: which half of the sequencer acts. -/
inductive Role where
  | client
  | server
deriving DecidableEq, Repr

/-- R45's own encoding of `role`; "no rule depends on them beyond distinctness". -/
def Role.code : Role → Nat
  | .client => 0
  | .server => 1

/-- `downloading` of R45: the client's transfer state. -/
inductive Downloading where
  | idle
  | downloading
  | upgradeRequesting
deriving DecidableEq, Repr

/-- R45's own encoding of `downloading`. -/
def Downloading.code : Downloading → Nat
  | .idle => 0
  | .downloading => 1
  | .upgradeRequesting => 2

/-- The OtaTransferState record: the first eight fields of R45, which are also what the NV store holds. -/
structure OtaRecord where
  role : Role
  downloading : Downloading
  totalBytes : U32
  totalBlocks : U32
  currentBlock : U32
  crc : U32
  peer : Addr
  requestPeriodMs : U16
deriving DecidableEq, Repr

/-- The eight fields at their reset values (R70): Client, Idle, the rest 0. -/
def OtaRecord.reset : OtaRecord :=
  { role := .client, downloading := .idle, totalBytes := 0, totalBlocks := 0, currentBlock := 0,
    crc := 0, peer := 0, requestPeriodMs := 0 }

/-- The nine OTA message kinds (30_encoding.md R135), by the names of their type tags. -/
inductive Tag where
  | notify
  | blockReq
  | blockResp
  | abortReq
  | abortResp
  | upgReq
  | upgResp
  | statusReq
  | statusResp
deriving DecidableEq, Repr

/-- The tags in the order of R5's table. -/
def Tag.all : List Tag :=
  [.notify, .blockReq, .blockResp, .abortReq, .abortResp, .upgReq, .upgResp, .statusReq, .statusResp]

/-- The parameters of R5, one field each (HEADER_MIN is computed, as R5's table gives it). -/
structure Config where
  rbNmax : Nat
  mtu : Nat
  startMarker : Byte
  tNotify : Byte
  tBlockReq : Byte
  tBlockResp : Byte
  tAbortReq : Byte
  tAbortResp : Byte
  tUpgReq : Byte
  tUpgResp : Byte
  tStatusReq : Byte
  tStatusResp : Byte
  blockSize : Nat
  sectorSize : Nat
  flashSectors : Nat
  imageBase : Nat
  maxImageSize : Nat
  imageMagic : Bytes
  hdrMagicOff : Nat
  hdrMagicLen : Nat
  hdrLenOff : Nat
  checkpointInterval : Nat
  upgradeRetryMs : U32
  srvRequestPeriodMs : U16
  crcPoly : U32
  crcInit : U32
  crcXorout : U32
  crcChunk : Nat
  addrBits : Nat
  flashErased : Byte
  nvInit : Option OtaRecord
deriving DecidableEq, Repr

/-- R5's table of values: the DOC values, and the spec's defaults of the OPEN parameters (log entry 1). -/
def Config.default : Config :=
  { rbNmax := 256
    mtu := 128
    startMarker := 0x7E
    tNotify := 0x50
    tBlockReq := 0x51
    tBlockResp := 0x52
    tAbortReq := 0x53
    tAbortResp := 0x54
    tUpgReq := 0x55
    tUpgResp := 0x56
    tStatusReq := 0x57
    tStatusResp := 0x58
    blockSize := 50
    sectorSize := 65536
    flashSectors := 8
    imageBase := 0
    maxImageSize := 524288
    imageMagic := [0x12, 0x34, 0x56, 0x78, 0x11, 0x22, 0x33, 0x44, 0x55, 0x66, 0x77, 0x88]
    hdrMagicOff := 0x00
    hdrMagicLen := 12
    hdrLenOff := 0x20
    checkpointInterval := 100
    upgradeRetryMs := 1000
    srvRequestPeriodMs := 1000
    crcPoly := 0xEDB88320
    crcInit := 0xFFFFFFFF
    crcXorout := 0xFFFFFFFF
    crcChunk := 64
    addrBits := 16
    flashErased := 0xFF
    nvInit := none }

/-- HEADER_MIN of R5: "smallest legal image length, HDR_LEN_OFF + 4". -/
def Config.headerMin (c : Config) : Nat := c.hdrLenOff + 4

/-- FLASH_SIZE of 20_memory.md R83. -/
def Config.flashSize (c : Config) : Nat := c.sectorSize * c.flashSectors

/-- The type tag of a message kind (R5, R135). -/
def Config.tagByte (c : Config) : Tag → Byte
  | .notify => c.tNotify
  | .blockReq => c.tBlockReq
  | .blockResp => c.tBlockResp
  | .abortReq => c.tAbortReq
  | .abortResp => c.tAbortResp
  | .upgReq => c.tUpgReq
  | .upgResp => c.tUpgResp
  | .statusReq => c.tStatusReq
  | .statusResp => c.tStatusResp

/-- A node address fits the ADDR_BITS of R5. -/
def Config.addrOk (c : Config) (a : Addr) : Bool := decide (a < 2 ^ c.addrBits)

/-- The constraints R6 lists, in its order. -/
abbrev Config.ListedConstraints (c : Config) : Prop :=
  (1 ≤ c.blockSize ∧ c.blockSize ≤ 65535) ∧
  (c.blockSize + 10 ≤ c.mtu ∧ c.mtu ≤ 65535) ∧
  c.mtu + 6 ≤ c.rbNmax ∧
  (Tag.all.map c.tagByte).Nodup ∧
  c.imageBase % c.sectorSize = 0 ∧
  c.headerMin ≤ c.maxImageSize ∧
  c.imageBase + c.maxImageSize ≤ c.flashSize ∧
  c.maxImageSize < 2 ^ 32 ∧
  1 ≤ c.crcChunk

/-- Constraints R6 does not list and other rules need (DEDUCED, log entry 2): the magic has the length its
parameter gives and lies in the header, flash addresses are held as u32 (R83), a checkpoint interval is a
positive count (R404), and a record in the NV store holds an ADDR_BITS-bit peer (R45). -/
abbrev Config.DeducedConstraints (c : Config) : Prop :=
  c.imageMagic.length = c.hdrMagicLen ∧
  c.hdrMagicOff + c.hdrMagicLen ≤ c.headerMin ∧
  c.flashSize ≤ 2 ^ 32 ∧
  1 ≤ c.checkpointInterval ∧
  ∀ r ∈ c.nvInit, c.addrOk r.peer = true

/-- A parameter set the model runs; another is refused (R6, 93_implementation_defined.md U17). -/
abbrev Config.Valid (c : Config) : Prop := c.ListedConstraints ∧ c.DeducedConstraints

end Sys2Proof
end

