-- ==== Sys2Proof/Syntax.lean ====
section
/-! DEFINITION. The commands (spec/30_encoding.md R125, spec/opcode_table.json) as one inductive, one
constructor a row of the table, and the command an agent presents at the port (00_scope.md R8). -/

namespace Sys2Proof

/-- A command as an agent presents it: `(CW, ADDR, DIN)` of R8. -/
structure Command where
  cw : U32
  addr : Addr
  din : Bytes
deriving DecidableEq, Repr

/-- One constructor per row of spec/opcode_table.json, with the operands of R125: the fields of the command
word that the command reads, ADDR where R121 says it is read, and DIN where LEN counts it. -/
inductive Instr where
  | rbInit (cap : U16)
  | rbClear
  | rbFree
  | rbSize
  | rbPush (data : Bytes)
  | rbPop (len : U16) (copy : Bool)
  | rbPeek (len : U16)
  | fcEncode (type : Byte) (payload : Bytes)
  | fcDecode (buffer : Bytes)
  | fcCksum (data : Bytes)
  | fcParse (type : Byte) (payload : Bytes)
  | otaRxNotify (src : Addr) (payload : Bytes)
  | otaRxBlockReq (src : Addr) (payload : Bytes)
  | otaRxBlockResp (src : Addr) (payload : Bytes)
  | otaRxAbortReq (src : Addr) (payload : Bytes)
  | otaRxAbortResp (src : Addr) (payload : Bytes)
  | otaRxUpgReq (src : Addr) (payload : Bytes)
  | otaRxUpgResp (src : Addr) (payload : Bytes)
  | otaRxStatusReq (src : Addr) (payload : Bytes)
  | otaRxStatusResp (src : Addr) (payload : Bytes)
  | otaRxOther (type : Byte) (src : Addr) (payload : Bytes)
  | otaTick
  | otaTrigger (peer : Addr)
  | otaAbort
  | otaPoll
  | otaBoot
deriving DecidableEq, Repr

/-- Why the decoder answers no command. The first two are refused at the boundary and yield no status
(R8, R121, R501); the other three are the ILLEGAL encodings of R126. -/
inductive Reject where
  /-- ADDR does not fit ADDR_BITS: not a command (R8, R121). -/
  | addrWidth
  /-- |DIN| is not what R121 asks: not a command. -/
  | dinLength
  /-- OP is not in the table of R125. -/
  | reservedOp
  /-- A field marked "must be 0" is not 0, or RB_POP has A[7:1] ≠ 0 (R126). -/
  | reservedField
  /-- RB_INIT with LEN = 0 or LEN > RB_NMAX (R126). -/
  | capacityRange
deriving DecidableEq, Repr

/-- The rejections that are the status ILLEGAL of R126; the others are refused at the boundary (R501). -/
def Reject.isIllegal : Reject → Bool
  | .addrWidth => false
  | .dinLength => false
  | .reservedOp => true
  | .reservedField => true
  | .capacityRange => true

end Sys2Proof
end

