-- ==== Sys2Proof/WellFormed.lean ====
section
/-! DEFINITION. Which instructions a command word can carry (spec/30_encoding.md R121, R125, R126): the
capacity range of RB_INIT, byte strings that LEN can count, addresses of ADDR_BITS bits, and a frame type
that is no OTA tag for the OTA_RX.OTHER row. -/

namespace Sys2Proof

/-- The capacity range of R125's RB_INIT row: 1 .. RB_NMAX. -/
def Config.capacityOk (c : Config) (cap : U16) : Bool := decide (1 ≤ cap.toNat ∧ cap.toNat ≤ c.rbNmax)

/-- A byte string that the 16-bit LEN can count (R120, R121). -/
def countOk (p : Bytes) : Bool := decide (p.length < 2 ^ 16)

/-- The operands are ones a command can carry under the parameters `c`. -/
def Instr.wellFormed (c : Config) : Instr → Bool
  | .rbInit cap => c.capacityOk cap
  | .rbClear => true
  | .rbFree => true
  | .rbSize => true
  | .rbPush data => countOk data
  | .rbPop _ _ => true
  | .rbPeek _ => true
  | .fcEncode _ payload => countOk payload
  | .fcDecode buffer => countOk buffer
  | .fcCksum data => countOk data
  | .fcParse _ payload => countOk payload
  | .otaRxNotify src payload => c.addrOk src && countOk payload
  | .otaRxBlockReq src payload => c.addrOk src && countOk payload
  | .otaRxBlockResp src payload => c.addrOk src && countOk payload
  | .otaRxAbortReq src payload => c.addrOk src && countOk payload
  | .otaRxAbortResp src payload => c.addrOk src && countOk payload
  | .otaRxUpgReq src payload => c.addrOk src && countOk payload
  | .otaRxUpgResp src payload => c.addrOk src && countOk payload
  | .otaRxStatusReq src payload => c.addrOk src && countOk payload
  | .otaRxStatusResp src payload => c.addrOk src && countOk payload
  | .otaRxOther type src payload => Tag.all.all (fun k => c.tagByte k != type) && c.addrOk src && countOk payload
  | .otaTick => true
  | .otaTrigger peer => c.addrOk peer
  | .otaAbort => true
  | .otaPoll => true
  | .otaBoot => true

end Sys2Proof
end

