-- ==== Sys2Proof/Decode.lean ====
section
/-! DEFINITION. The command word (spec/30_encoding.md R120-R127): the decoder, total on every command an
agent can present, rejecting by name, and after it the encoder, both written from the one opcode map of R125. -/

namespace Sys2Proof

/-- `OP = CW[7:0]` (R120). -/
def opField (cw : U32) : Byte := cw.extractLsb' 0 8

/-- `A = CW[15:8]` (R120). -/
def auxField (cw : U32) : Byte := cw.extractLsb' 8 8

/-- `LEN = CW[31:16]` (R120). -/
def lenField (cw : U32) : U16 := cw.extractLsb' 16 16

/-- The seventeen commands of R125's opcode map. -/
inductive Opcode where
  | rbInit
  | rbClear
  | rbFree
  | rbSize
  | rbPush
  | rbPop
  | rbPeek
  | fcEncode
  | fcDecode
  | fcCksum
  | fcParse
  | otaRx
  | otaTick
  | otaTrigger
  | otaAbort
  | otaPoll
  | otaBoot
deriving DecidableEq, Repr

/-- The rows of R125's table, in its order. -/
def Opcode.all : List Opcode :=
  [.rbInit, .rbClear, .rbFree, .rbSize, .rbPush, .rbPop, .rbPeek, .fcEncode, .fcDecode, .fcCksum, .fcParse,
    .otaRx, .otaTick, .otaTrigger, .otaAbort, .otaPoll, .otaBoot]

/-- The OP column of R125. -/
def Opcode.op : Opcode → Byte
  | .rbInit => 0x01
  | .rbClear => 0x02
  | .rbFree => 0x03
  | .rbSize => 0x04
  | .rbPush => 0x05
  | .rbPop => 0x06
  | .rbPeek => 0x07
  | .fcEncode => 0x10
  | .fcDecode => 0x11
  | .fcCksum => 0x12
  | .fcParse => 0x13
  | .otaRx => 0x20
  | .otaTick => 0x21
  | .otaTrigger => 0x22
  | .otaAbort => 0x23
  | .otaPoll => 0x24
  | .otaBoot => 0x25

/-- What the A column of R125 says of A. -/
inductive AuxKind where
  | zero
  | copyFlag
  | frameType
deriving DecidableEq, Repr

/-- The A column of R125. -/
def Opcode.auxKind : Opcode → AuxKind
  | .rbPop => .copyFlag
  | .fcEncode => .frameType
  | .fcParse => .frameType
  | .otaRx => .frameType
  | .rbInit => .zero
  | .rbClear => .zero
  | .rbFree => .zero
  | .rbSize => .zero
  | .rbPush => .zero
  | .rbPeek => .zero
  | .fcDecode => .zero
  | .fcCksum => .zero
  | .otaTick => .zero
  | .otaTrigger => .zero
  | .otaAbort => .zero
  | .otaPoll => .zero
  | .otaBoot => .zero

/-- What the LEN column of R125 says of LEN. Only "count" makes LEN the length of DIN (R121). -/
inductive LenKind where
  | zero
  | capacity
  | count
  | outputCount
deriving DecidableEq, Repr

/-- The LEN column of R125. -/
def Opcode.lenKind : Opcode → LenKind
  | .rbInit => .capacity
  | .rbClear => .zero
  | .rbFree => .zero
  | .rbSize => .zero
  | .rbPush => .count
  | .rbPop => .outputCount
  | .rbPeek => .outputCount
  | .fcEncode => .count
  | .fcDecode => .count
  | .fcCksum => .count
  | .fcParse => .count
  | .otaRx => .count
  | .otaTick => .zero
  | .otaTrigger => .zero
  | .otaAbort => .zero
  | .otaPoll => .zero
  | .otaBoot => .zero

/-- Look OP up in R125; none where the value is reserved. -/
def opcodeOf (op : Byte) : Option Opcode := Opcode.all.find? (fun o => o.op == op)

/-- The message kind a frame type stands for; none where it is not an OTA tag (R135). -/
def tagOf (c : Config) (t : Byte) : Option Tag := Tag.all.find? (fun k => c.tagByte k == t)

/-- The checks of R126 on A: "must be 0", and A[7:1] of RB_POP. -/
def auxLegal (o : Opcode) (a : Byte) : Bool :=
  match o.auxKind with
  | .zero => a == 0
  | .copyFlag => a.extractLsb' 1 7 == 0
  | .frameType => true

/-- The capacity range of R125 and R126: 1 .. RB_NMAX. -/
def capacityLegal (c : Config) (cap : U16) : Bool := decide (1 ≤ cap.toNat ∧ cap.toNat ≤ c.rbNmax)

/-- The checks of R126 on LEN, each with the name it rejects by. -/
def lenReject (c : Config) (o : Opcode) (len : U16) : Option Reject :=
  match o.lenKind with
  | .zero => if len = 0 then none else some .reservedField
  | .capacity => if capacityLegal c len then none else some .capacityRange
  | .count => none
  | .outputCount => none

/-- The OTA_RX row of spec/opcode_table.json that a frame type selects; the tag rows take precedence over
OTA_RX.OTHER. -/
def rxInstr (c : Config) (type : Byte) (src : Addr) (payload : Bytes) : Instr :=
  match tagOf c type with
  | some .notify => .otaRxNotify src payload
  | some .blockReq => .otaRxBlockReq src payload
  | some .blockResp => .otaRxBlockResp src payload
  | some .abortReq => .otaRxAbortReq src payload
  | some .abortResp => .otaRxAbortResp src payload
  | some .upgReq => .otaRxUpgReq src payload
  | some .upgResp => .otaRxUpgResp src payload
  | some .statusReq => .otaRxStatusReq src payload
  | some .statusResp => .otaRxStatusResp src payload
  | none => .otaRxOther type src payload

/-- The command that a checked command word names, with its operands (R122, R127). -/
def instrOf (c : Config) (o : Opcode) (a : Byte) (len : U16) (addr : Addr) (din : Bytes) : Instr :=
  match o with
  | .rbInit => .rbInit len
  | .rbClear => .rbClear
  | .rbFree => .rbFree
  | .rbSize => .rbSize
  | .rbPush => .rbPush din
  | .rbPop => .rbPop len (a.getLsbD 0)
  | .rbPeek => .rbPeek len
  | .fcEncode => .fcEncode a din
  | .fcDecode => .fcDecode din
  | .fcCksum => .fcCksum din
  | .fcParse => .fcParse a din
  | .otaRx => rxInstr c a addr din
  | .otaTick => .otaTick
  | .otaTrigger => .otaTrigger addr
  | .otaAbort => .otaAbort
  | .otaPoll => .otaPoll
  | .otaBoot => .otaBoot

/-- The |DIN| that R121 asks of a command word: LEN for the "count" commands and 0 for every other, a
reserved OP among them (DEDUCED, log entry 3). -/
def dinLengthOf (cw : U32) : Nat :=
  match opcodeOf (opField cw) with
  | some o => if o.lenKind = .count then (lenField cw).toNat else 0
  | none => 0

/-- `decode(CW)` of R127: look up OP, then the field checks of R126, then the command. -/
def decodeWord (c : Config) (cmd : Command) : Except Reject Instr :=
  match opcodeOf (opField cmd.cw) with
  | none => .error .reservedOp
  | some o =>
    if auxLegal o (auxField cmd.cw) then
      match lenReject c o (lenField cmd.cw) with
      | some r => .error r
      | none => .ok (instrOf c o (auxField cmd.cw) (lenField cmd.cw) cmd.addr cmd.din)
    else .error .reservedField

/-- The decoder at the command port: the boundary's checks of the sideband operands come before every other
(R8, R121, R501), then `decodeWord`. -/
def decode (c : Config) (cmd : Command) : Except Reject Instr :=
  if c.addrOk cmd.addr then
    if cmd.din.length = dinLengthOf cmd.cw then decodeWord c cmd else .error .dinLength
  else .error .addrWidth

/-- `CW = LEN << 16 | A << 8 | OP` (R160). -/
def commandWord (o : Opcode) (a : Byte) (len : U16) : U32 :=
  len.zeroExtend 32 <<< 16 ||| a.zeroExtend 32 <<< 8 ||| o.op.zeroExtend 32

/-- COPY as the A byte of RB_POP (R125). -/
def copyByte (copy : Bool) : Byte := if copy then 1 else 0

/-- |p| as the LEN field (R121). -/
def lenOf (p : Bytes) : U16 := BitVec.ofNat 16 p.length

/-- A command that reads neither ADDR nor DIN; ADDR is 0, which R121 has it ignore. -/
def plainCommand (o : Opcode) (a : Byte) (len : U16) : Command := { cw := commandWord o a len, addr := 0, din := [] }

/-- A command whose LEN counts its DIN. -/
def countedCommand (o : Opcode) (a : Byte) (addr : Addr) (din : Bytes) : Command :=
  { cw := commandWord o a (lenOf din), addr := addr, din := din }

/-- The command that carries an instruction (R125, R160): the encoder. -/
def encode (c : Config) : Instr → Command
  | .rbInit cap => plainCommand .rbInit 0 cap
  | .rbClear => plainCommand .rbClear 0 0
  | .rbFree => plainCommand .rbFree 0 0
  | .rbSize => plainCommand .rbSize 0 0
  | .rbPush data => countedCommand .rbPush 0 0 data
  | .rbPop len copy => plainCommand .rbPop (copyByte copy) len
  | .rbPeek len => plainCommand .rbPeek 0 len
  | .fcEncode type payload => countedCommand .fcEncode type 0 payload
  | .fcDecode buffer => countedCommand .fcDecode 0 0 buffer
  | .fcCksum data => countedCommand .fcCksum 0 0 data
  | .fcParse type payload => countedCommand .fcParse type 0 payload
  | .otaRxNotify src payload => countedCommand .otaRx c.tNotify src payload
  | .otaRxBlockReq src payload => countedCommand .otaRx c.tBlockReq src payload
  | .otaRxBlockResp src payload => countedCommand .otaRx c.tBlockResp src payload
  | .otaRxAbortReq src payload => countedCommand .otaRx c.tAbortReq src payload
  | .otaRxAbortResp src payload => countedCommand .otaRx c.tAbortResp src payload
  | .otaRxUpgReq src payload => countedCommand .otaRx c.tUpgReq src payload
  | .otaRxUpgResp src payload => countedCommand .otaRx c.tUpgResp src payload
  | .otaRxStatusReq src payload => countedCommand .otaRx c.tStatusReq src payload
  | .otaRxStatusResp src payload => countedCommand .otaRx c.tStatusResp src payload
  | .otaRxOther type src payload => countedCommand .otaRx type src payload
  | .otaTick => plainCommand .otaTick 0 0
  | .otaTrigger peer => { cw := commandWord .otaTrigger 0 0, addr := peer, din := [] }
  | .otaAbort => plainCommand .otaAbort 0 0
  | .otaPoll => plainCommand .otaPoll 0 0
  | .otaBoot => plainCommand .otaBoot 0 0

/-- The command whose word has the bits `w`, `nbits` of them, every bit above them 0, presented with ADDR 0
and as many zero bytes of DIN as the word asks for (log entry 4). -/
def tableCommand (nbits w : Nat) : Command :=
  let cw : U32 := BitVec.ofNat 32 (w % 2 ^ nbits)
  { cw := cw, addr := 0, din := List.replicate (dinLengthOf cw) 0 }

/-- What the decoder reads from a word of spec/opcode_table.json, under this hardware's parameters. -/
def decodeTableWord (nbits w : Nat) : Option Instr :=
  match decode Config.default (tableCommand nbits w) with
  | .ok i => some i
  | .error _ => none

end Sys2Proof
end

