-- ==== Sys2Proof/Machine/State.lean ====
section
/-! DEFINITION. The state: the registers of spec/10_state.md, the storages of 20_memory.md, and the command
port with what stands at it (the commands agents have issued, the results the block has answered). -/

namespace Sys2Proof.Machine

/-- The parsed-message value MSG (30_encoding.md R148), with the field widths of R141-R147. -/
inductive Msg where
  | notify (totalBytes : U32) (requestPeriodMs : U16)
  | blockRequest (idx : U32)
  | blockResponse (idx : U32) (len : U16) (bytes : Bytes) (crc : U32)
  | abortRequest
  | abortResponse
  | upgradeRequest
  | upgradeResponse
  | statusRequest
  | statusResponse (inProgress : Byte) (percent : Byte) (remainingMin : U32)
deriving DecidableEq, Repr

/-- The status codes of 60_exceptions.md R500, by name. -/
inductive Status where
  | ok
  | ignored
  | dropped
  | incomplete
  | cksumBad
  | invalid
  | malformed
  | other
  | noImage
  | badLen
  | busy
  | tooLong
  | uninit
  | illegal
deriving DecidableEq, Repr

/-- The abstract report records of 42_ota_common.md R311. -/
inductive Report where
  | noImage
  | badLength (len : U32)
  | busy
  | notified (totalBytes : U32) (totalBlocks : U32) (crc : U32)
  | abortSent
  | abortAcked (src : Addr)
  | remoteStatus (src : Addr) (inProgress : Byte) (percent : Byte) (remainingMin : U32)
  | localStatus (inProgress : Byte) (percent : Byte) (remainingMin : U32)
  | aborted
  | verifyOk
  | verifyFailed
  | resumed (currentBlock : U32) (totalBlocks : U32)
deriving DecidableEq, Repr

/-- The external actions of 00_scope.md R9. `send` is always Unicast, and its boolean is discarded (R522). -/
inductive Effect where
  | flashWrite (addr : Nat) (bytes : Bytes)
  | flashErase (sector : Nat)
  | nvSave (rec : OtaRecord)
  | send (dest : Addr) (bytes : Bytes)
  | report (r : Report)
  | timerArm (delay : U32)
  | timerDisarm
  | invalidateRunningHeader
  | softwareReset
deriving DecidableEq, Repr

/-- What a command returns: `(ST, RES, DOUT, MSG, EFFECTS)` of R8; RES is 0, DOUT [] and MSG none where a rule
sets none. -/
structure Result where
  st : Status
  res : U32 := 0
  dout : Bytes := []
  msg : Option Msg := none
  effects : List Effect := []
deriving DecidableEq, Repr

/-- What arrives at the block from outside: a command of some agent (R4), or the Platform's power-on reset
(70_reset_and_hazards.md R550). -/
inductive Input where
  | command (c : Command)
  | reset
deriving DecidableEq, Repr

/-- A byte memory: (address, byte) pairs with rising addresses, no entry equal to what an unlisted address
reads as (`Memory.Wf` in Ops.lean). -/
abbrev Memory := List Host.Cell

/-- The state. The first group is the block's registers and storage (R30, R45, R80), the second the storages
outside it that its commands act on (R83, R87), the third the command port. -/
structure State where
  /-- The implementation parameters (R5), which no step changes. -/
  cfg : Config
  /-- 1 once RB_INIT has run (R30). -/
  rbInited : Bool
  /-- The capacity N set by RB_INIT, held in 16 bits (R30). -/
  rbCap : U16
  /-- Index of the oldest stored byte (R30). -/
  rbBegin : Nat
  /-- Index of the slot the next pushed byte goes to (R30). -/
  rbEnd : Nat
  /-- The storage `RB[0 .. RB_NMAX-1]` (R80). -/
  rbStorage : List Byte
  /-- The eight OtaTransferState fields (R45). -/
  ota : OtaRecord
  /-- OTA_BOOT has run (R45). -/
  otaBooted : Bool
  /-- The request timer is armed (R45). -/
  tmrArmed : Bool
  /-- The delay given at the last arming, in ms (R45). -/
  tmrDelay : U32
  /-- The external flash (R83). -/
  flash : Memory
  /-- The one slot of the non-volatile store (R87). -/
  nv : Option OtaRecord
  /-- The inputs agents have issued and the block has not taken yet, in the order the environment chose
  (R100), the next one first: the model's own field (log entry 5). -/
  pending : List Input
  /-- The results of the commands run so far, oldest first: the model's own field, which no command reads
  (R503, log entry 6). -/
  outputs : List Result
deriving DecidableEq, Repr

/-- Why the machine stops with a fault. -/
inductive Fault where
  /-- A flash access of `n` bytes from `addr` leaves the flash (R85: "it must fault, never wrap"). Raised by
  MemRead, MemWrite and FlashErase. Safe: it stops where the spec gives no effect, and `Inv` rules it out. -/
  | flashOutside (addr : Nat) (n : Nat)
deriving DecidableEq, Repr

/-- Why the machine refuses a step. -/
inductive Refusal where
  /-- An instruction with no meaning yet. Raised by `exec` alone; no arm does. Safe. -/
  | notModelled (mnemonic : String)
  /-- What stands at the port is not a command (R8, R121; 93_implementation_defined.md U16). Raised by the
  port. Safe: the spec gives it no status and no effect. -/
  | notACommand (why : Reject)
  /-- The parameter set breaks R6 (93_implementation_defined.md U17). Raised by the step. Safe. -/
  | badConfig
deriving DecidableEq, Repr

/-- The state right after the first power-on, under this hardware's parameters: R70, with nothing pushed,
nothing pending, flash with nothing listed and NV_INIT in the NV store. The ring buffer's capacity, indices and
storage are unspecified there and are 0 here (DESIGN CHOICE, log entry 7). -/
def State.reset : State :=
  { cfg := Config.default
    rbInited := false
    rbCap := 0
    rbBegin := 0
    rbEnd := 0
    rbStorage := List.replicate Config.default.rbNmax 0
    ota := OtaRecord.reset
    otaBooted := false
    tmrArmed := false
    tmrDelay := 0
    flash := []
    nv := Config.default.nvInit
    pending := []
    outputs := [] }

end Sys2Proof.Machine
end

