-- ==== Sys2Proof/Machine/Operands.lean ====
section
/-! DEFINITION. Operand forms: byte strings and their little-endian fields (spec/00_scope.md R7, 20_memory.md
R90), the block arithmetic (42_ota_common.md R302), the status values (44_ota_client.md R408) and the packings
of RES. -/

namespace Sys2Proof.Machine

/-- `s[i]` of R7 (0 outside the string, where no rule reads). -/
def byteAt (s : Bytes) (i : Nat) : Byte := s.getD i 0

/-- `s[a..b)` of R7. -/
def slice (s : Bytes) (a b : Nat) : Bytes := (s.drop a).take (b - a)

/-- `le16(v)` of R7. -/
def le16 (v : U16) : Bytes := [v.extractLsb' 0 8, v.extractLsb' 8 8]

/-- `le32(v)` of R7. -/
def le32 (v : U32) : Bytes := [v.extractLsb' 0 8, v.extractLsb' 8 8, v.extractLsb' 16 8, v.extractLsb' 24 8]

/-- `rd16(s, o)` of R7. -/
def rd16 (s : Bytes) (o : Nat) : U16 :=
  BitVec.ofNat 16 ((byteAt s o).toNat + 256 * (byteAt s (o + 1)).toNat)

/-- `rd32(s, o)` of R7. -/
def rd32 (s : Bytes) (o : Nat) : U32 :=
  BitVec.ofNat 32 ((byteAt s o).toNat + 2 ^ 8 * (byteAt s (o + 1)).toNat + 2 ^ 16 * (byteAt s (o + 2)).toNat +
    2 ^ 24 * (byteAt s (o + 3)).toNat)

/-- `blocks(t) = ceil_div(t, BLOCK_SIZE)` (R302). -/
def blocks (c : Config) (t : Nat) : Nat := ceilDiv t c.blockSize

/-- `block_len(t, idx) = min(BLOCK_SIZE, t - idx × BLOCK_SIZE)`, for idx < blocks(t) (R302; log entry 18). -/
def blockLen (c : Config) (t idx : Nat) : Nat := min c.blockSize (t - idx * c.blockSize)

/-- The flash address of a block: `IMAGE_BASE + idx × BLOCK_SIZE` (R352, R403). -/
def blockAddr (c : Config) (idx : Nat) : Nat := c.imageBase + idx * c.blockSize

/-- `HEADER_MIN ≤ length ≤ MAX_IMAGE_SIZE`: the legal image length of R350, R400 and R320. -/
def legalLength (c : Config) (t : Nat) : Bool := decide (c.headerMin ≤ t ∧ t ≤ c.maxImageSize)

/-- `EraseSet(t)` of R84, in increasing order, for t ≥ 1 (log entry 18). -/
def eraseSet (c : Config) (t : Nat) : List Nat :=
  let first := c.imageBase / c.sectorSize
  let last := (c.imageBase + t - 1) / c.sectorSize
  List.range' first (last + 1 - first)

/-- The triple of `status_vals()` (R408). -/
structure StatusVals where
  inProgress : Byte
  percent : Byte
  remainingMin : U32
deriving DecidableEq, Repr

/-- `status_vals()` of R408: mathematical integers with truncating division, then the field widths (R7; DEDUCED, log
entry 11). -/
def statusVals (o : OtaRecord) : StatusVals :=
  let ip : Byte := if o.downloading = .idle then 0 else 1
  if o.totalBlocks.toNat = 0 then { inProgress := ip, percent := 0, remainingMin := 0 }
  else
    { inProgress := ip
      percent := BitVec.ofNat 8 (o.currentBlock.toNat * 100 / o.totalBlocks.toNat)
      remainingMin :=
        BitVec.ofNat 32 (o.requestPeriodMs.toNat * (o.totalBlocks.toNat - o.currentBlock.toNat) / 60000) }

/-- RES of a status poll: `zext_32(pct) | (zext_32(ip) << 8)` (R410). -/
def pollRes (v : StatusVals) : U32 := v.percent.zeroExtend 32 ||| (v.inProgress.zeroExtend 32 <<< 8)

/-- RES of a decoded frame: `zext_32(consumed) | (zext_32(t) << 16)` (R252). -/
def frameRes (consumed : Nat) (t : Byte) : U32 := BitVec.ofNat 32 consumed ||| (t.zeroExtend 32 <<< 16)

/-- OTA_BOOT's test of a saved record (R320): a Client record of a download in progress, consistent. -/
def restorable (c : Config) (r : OtaRecord) : Bool :=
  r.role == .client && r.downloading != .idle && legalLength c r.totalBytes.toNat &&
    decide (r.totalBlocks.toNat = blocks c r.totalBytes.toNat) &&
    decide (r.currentBlock.toNat ≤ r.totalBlocks.toNat) &&
    (r.downloading != .upgradeRequesting || r.currentBlock == r.totalBlocks)

end Sys2Proof.Machine
end

