-- ==== Sys2Proof/Machine/Flags.lean ====
section
/-! DEFINITION. The block has no flags and no condition codes: "a command's outcome is reported in ST"
(spec/10_state.md R60). So this file holds the status codes of 60_exceptions.md R500 and the results that are a
status alone. -/

namespace Sys2Proof.Machine

/-- The ST column of R500. -/
def Status.code : Status → Byte
  | .ok => 0x00
  | .ignored => 0x01
  | .dropped => 0x02
  | .incomplete => 0x03
  | .cksumBad => 0x04
  | .invalid => 0x05
  | .malformed => 0x06
  | .other => 0x07
  | .noImage => 0x08
  | .badLen => 0x09
  | .busy => 0x0A
  | .tooLong => 0x0B
  | .uninit => 0x0C
  | .illegal => 0x0D

/-- A result that is a status and nothing else (R8: RES 0, DOUT [], MSG none, no effect). -/
def Result.status (st : Status) : Result := { st := st }

/-- A result that is OK with a RES. -/
def Result.value (res : U32) : Result := { st := .ok, res := res }

/-- A result that is OK with a DOUT. -/
def Result.bytes (dout : Bytes) : Result := { st := .ok, dout := dout }

end Sys2Proof.Machine
end

