-- ==== Sys2Proof/Machine/Frame.lean ====
section
/-! DEFINITION. The frame codec and the CRC as functions: the checksum (spec/41_frame_codec.md R250), the frame
(30_encoding.md R130-R134), its encoder (R251) and decoder (R252), the message parser (R254), the encoding of
outgoing messages (R149) and CRC-32 (42_ota_common.md R300). The codec has no state (10_state.md R40). -/

namespace Sys2Proof.Machine

/-- `cksum(s)`: the sum of the bytes modulo 256 (R250). -/
def cksum : Bytes → Byte
  | [] => 0
  | b :: bs => b + cksum bs

/-- The header after the marker: type, then `payload_len` little-endian (R130, R131). -/
def frameHeader (t : Byte) (p : Bytes) : Bytes := t :: le16 (lenOf p)

/-- `encode_frame(t, p)` of R251: marker, type, length, payload, checksum. -/
def encodeFrame (c : Config) (t : Byte) (p : Bytes) : Bytes :=
  c.startMarker :: (frameHeader t p ++ p ++ [cksum (frameHeader t p ++ p)])

/-- What FC_DECODE reports of a buffer (R252): every outcome has `bytes_consumed`. -/
structure Decoded where
  st : Status
  consumed : Nat
  type : Byte
  payload : Bytes
deriving DecidableEq, Repr

/-- An outcome that reports no type and no payload. -/
def Decoded.bare (st : Status) (consumed : Nat) : Decoded := { st := st, consumed := consumed, type := 0, payload := [] }

/-- The rest of R252 once the first marker is known to be at index `p`. -/
def decodeAt (c : Config) (b : Bytes) (p : Nat) : Decoded :=
  let len := b.length
  if len - p < 4 then .bare .incomplete p
  else
    let t := byteAt b (p + 1)
    let n := (rd16 b (p + 2)).toNat
    if c.mtu < n then .bare .invalid (p + 1)
    else if len - p < n + 5 then .bare .incomplete p
    else if cksum (slice b (p + 1) (p + 4 + n)) = byteAt b (p + 4 + n) then
      { st := .ok, consumed := p + 5 + n, type := t, payload := slice b (p + 4) (p + 4 + n) }
    else { st := .cksumBad, consumed := p + 5 + n, type := t, payload := [] }

/-- The decoder of R252: the first marker of the buffer, then the lines of its pseudocode in their order. -/
def decodeFrame (c : Config) (b : Bytes) : Decoded :=
  match b.findIdx? (fun x => x == c.startMarker) with
  | none => .bare .incomplete b.length
  | some p => decodeAt c b p

/-- RES of FC_DECODE: `bytes_consumed` in RES[15:0], the type in RES[23:16] on OK and CKSUM_BAD (R252). -/
def Decoded.res (d : Decoded) : U32 := frameRes d.consumed d.type

/-- The payload of a message kind (R141-R147), or none where it is malformed (R254). -/
def parsePayload (k : Tag) (p : Bytes) : Option Msg :=
  match k with
  | .notify => if p.length = 6 then some (.notify (rd32 p 0) (rd16 p 4)) else none
  | .blockReq => if p.length = 4 then some (.blockRequest (rd32 p 0)) else none
  | .blockResp =>
    if p.length < 10 then none
    else
      let n := (rd16 p 4).toNat
      if p.length = 10 + n then some (.blockResponse (rd32 p 0) (rd16 p 4) (slice p 6 (6 + n)) (rd32 p (6 + n)))
      else none
  | .abortReq => if p.length = 0 then some .abortRequest else none
  | .abortResp => if p.length = 0 then some .abortResponse else none
  | .upgReq => if p.length = 0 then some .upgradeRequest else none
  | .upgResp => if p.length = 0 then some .upgradeResponse else none
  | .statusReq => if p.length = 0 then some .statusRequest else none
  | .statusResp =>
    if p.length = 6 ∧ (byteAt p 0).toNat ≤ 1 then some (.statusResponse (byteAt p 0) (byteAt p 1) (rd32 p 2)) else none

/-- What the parser answers (R254). -/
inductive Parsed where
  | message (m : Msg)
  | malformed
  | other
deriving DecidableEq, Repr

/-- `parse_msg(t, p)` of R254. -/
def parseMsg (c : Config) (t : Byte) (p : Bytes) : Parsed :=
  match tagOf c t with
  | none => .other
  | some k =>
    match parsePayload k p with
    | some m => .message m
    | none => .malformed

/-- The message kind of a message (R148). -/
def Msg.tag : Msg → Tag
  | .notify _ _ => .notify
  | .blockRequest _ => .blockReq
  | .blockResponse _ _ _ _ => .blockResp
  | .abortRequest => .abortReq
  | .abortResponse => .abortResp
  | .upgradeRequest => .upgReq
  | .upgradeResponse => .upgResp
  | .statusRequest => .statusReq
  | .statusResponse _ _ _ => .statusResp

/-- The payload of a message, laid out by R141-R147 (R149). -/
def Msg.payload : Msg → Bytes
  | .notify t p => le32 t ++ le16 p
  | .blockRequest i => le32 i
  | .blockResponse i n b crc => le32 i ++ le16 n ++ b ++ le32 crc
  | .abortRequest => []
  | .abortResponse => []
  | .upgradeRequest => []
  | .upgradeResponse => []
  | .statusRequest => []
  | .statusResponse f q m => [f, q] ++ le32 m

/-- `frame_of(msg)` of R149. -/
def frameOf (c : Config) (m : Msg) : Bytes := encodeFrame c (c.tagByte m.tag) m.payload

/-- One of the eight steps of R300: shift right, and xor CRC_POLY where bit 0 was 1. -/
def crcBit (c : Config) (v : U32) : U32 := if v.getLsbD 0 then (v >>> 1) ^^^ c.crcPoly else v >>> 1

/-- R300 for one byte: xor it in, then eight steps. -/
def crcByte (c : Config) (v : U32) (x : Byte) : U32 :=
  let v := v ^^^ x.zeroExtend 32
  crcBit c (crcBit c (crcBit c (crcBit c (crcBit c (crcBit c (crcBit c (crcBit c v)))))))

/-- `crc32_update(c, s)` of R300. -/
def crc32Update (c : Config) (v : U32) : Bytes → U32
  | [] => v
  | x :: xs => crc32Update c (crcByte c v x) xs

/-- `crc32(s)` of R300. -/
def crc32 (c : Config) (s : Bytes) : U32 := crc32Update c c.crcInit s ^^^ c.crcXorout

end Sys2Proof.Machine
end

