-- ==== Sys2Proof/Machine/Ops.lean ====
section
/-! DEFINITION. The named operations: a byte memory in its one canonical form, the ring buffer's storage and
counts, the external flash, the primitives of spec/00_scope.md R9 and the procedures of 42_ota_common.md, and the
reset of 70_reset_and_hazards.md R550. The block takes no exception and returns from none (60_exceptions.md R505,
R508, R509): where a processor would, a command returns a status. -/

namespace Sys2Proof.Machine

/-- The answer of a meaning. -/
abbrev Answer := Host.Outcome State Fault Refusal

/-! Byte memory. -/

/-- The byte at an address, `dflt` where none is listed. -/
def Memory.read (dflt : Byte) : Memory → Nat → Byte
  | [], _ => dflt
  | (k, v) :: rest, a => if k = a then v else Memory.read dflt rest a

/-- Put an entry in front, unless it equals what an unlisted address reads as. -/
def Memory.put (dflt : Byte) (a : Nat) (v : Byte) (m : Memory) : Memory := if v = dflt then m else (a, v) :: m

/-- Store one byte, keeping the canonical form. -/
def Memory.write (dflt : Byte) : Memory → Nat → Byte → Memory
  | [], a, v => Memory.put dflt a v []
  | (k, w) :: rest, a, v =>
    if a < k then Memory.put dflt a v ((k, w) :: rest)
    else if a = k then Memory.put dflt a v rest
    else (k, w) :: Memory.write dflt rest a v

/-- The bytes at addresses a .. a+n-1. -/
def Memory.readBytes (dflt : Byte) (m : Memory) (a n : Nat) : Bytes :=
  (List.range' a n).map (Memory.read dflt m)

/-- Store a byte string from an address on. -/
def Memory.writeBytes (dflt : Byte) (m : Memory) (a : Nat) : Bytes → Memory
  | [] => m
  | b :: bs => Memory.writeBytes dflt (Memory.write dflt m a b) (a + 1) bs

/-- Set n bytes from `a` to what an unlisted address reads as: no entry of theirs stays. -/
def Memory.eraseBytes (m : Memory) (a n : Nat) : Memory := m.filter (fun cell => !(decide (a ≤ cell.1 ∧ cell.1 < a + n)))

/-- The canonical form: addresses strictly rising, and no entry equal to what an unlisted address reads as. -/
abbrev Memory.Wf (dflt : Byte) (m : Memory) : Prop :=
  (m.map Prod.fst).Pairwise (· < ·) ∧ ∀ cell ∈ m, cell.2 ≠ dflt

/-! Answers and the command port. -/

/-- Put a result at the port, after the earlier ones. -/
def State.record (s : State) (r : Result) : State := { s with outputs := s.outputs ++ [r] }

/-- Finish a command with a result and the state as it stands. -/
def State.answer (s : State) (r : Result) : Answer := .next (s.record r)

/-- Go on with a value, or stop with the fault that stood in its way. -/
def andThen {α : Type} (x : Except Fault α) (f : α → Answer) : Answer :=
  match x with
  | .ok v => f v
  | .error e => .fault e

/-- The inputs that remain after the one just taken. -/
def State.withPending (s : State) (rest : List Input) : State := { s with pending := rest }

/-- The inputs left once the current run has ended: the commands of the run are gone, up to the Platform's
next reset (R550: "no further command of the current run executes"; DESIGN CHOICE, log entry 12). -/
def nextRun : List Input → List Input
  | [] => []
  | .reset :: rest => .reset :: rest
  | .command _ :: rest => nextRun rest

/-! Reset. -/

/-- R550 and R70: every register field takes its reset value; the flash, the NV store, the parameters and what
stands at the port are kept. The ring buffer's unspecified fields become 0 (log entry 7). -/
def State.resetRegisters (s : State) : State :=
  { s with
    rbInited := false
    rbCap := 0
    rbBegin := 0
    rbEnd := 0
    rbStorage := List.replicate s.cfg.rbNmax 0
    ota := OtaRecord.reset
    otaBooted := false
    tmrArmed := false
    tmrDelay := 0 }

/-- The reset the SoftwareReset effect brings about: R550, and the current run's remaining commands never
execute. -/
def State.endRun (s : State) : State := s.resetRegisters.withPending (nextRun s.pending)

/-! The ring buffer (10_state.md R30-R35, 20_memory.md R80, R81). -/

/-- `data_size = (rb_end - rb_begin) mod rb_cap` over the integers (R33). -/
def State.dataSize (s : State) : Nat := (((s.rbEnd : Int) - (s.rbBegin : Int)) % (s.rbCap.toNat : Int)).toNat

/-- `free_space = rb_cap - 1 - data_size` (R34). -/
def State.freeSpace (s : State) : Nat := s.rbCap.toNat - 1 - s.dataSize

/-- An index reduced mod rb_cap (R80, R81). -/
def State.slot (s : State) (i : Nat) : Nat := i % s.rbCap.toNat

/-- `RB[i]` (R9). -/
def State.rbRead (s : State) (i : Nat) : Byte := s.rbStorage.getD i 0

/-- The first n stored bytes, oldest first: `RB[(rb_begin + i) mod rb_cap]` for i < n (R206, R207). -/
def State.frontBytes (s : State) (n : Nat) : Bytes := (List.range n).map (fun i => s.rbRead (s.slot (s.rbBegin + i)))

/-- The stored bytes (R32). -/
def State.storedBytes (s : State) : Bytes := s.frontBytes s.dataSize

/-- Write bytes at `RB[(start + i) mod rb_cap]`, byte by byte (R81, R205). -/
def rbWriteBytes (storage : List Byte) (cap start : Nat) : Bytes → List Byte
  | [] => storage
  | b :: bs => rbWriteBytes (storage.set (start % cap) b) cap (start + 1) bs

/-- Set the two indices. -/
def State.setIndices (s : State) (b e : Nat) : State := { s with rbBegin := b, rbEnd := e }

/-- RB_INIT's writes (R201). -/
def State.initRing (s : State) (cap : U16) : State := { s with rbCap := cap, rbBegin := 0, rbEnd := 0, rbInited := true }

/-- RB_PUSH's writes (R205). -/
def State.pushBytes (s : State) (data : Bytes) : State :=
  { s with
    rbStorage := rbWriteBytes s.rbStorage s.rbCap.toNat s.rbEnd data
    rbEnd := (s.rbEnd + data.length) % s.rbCap.toNat }

/-- RB_POP's write (R206). -/
def State.popBytes (s : State) (n : Nat) : State := { s with rbBegin := (s.rbBegin + n) % s.rbCap.toNat }

/-! The external flash (20_memory.md R83-R86). -/

/-- What a flash address reads as while nothing is listed for it: FLASH_ERASED (log entry 8). -/
def State.flashUnlisted (s : State) : Byte := s.cfg.flashErased

/-- The byte at a flash address. -/
def State.flashByte (s : State) (a : Nat) : Byte := Memory.read s.flashUnlisted s.flash a

/-- `MemRead(addr, n)` (R9); it faults outside the flash (R85). -/
def State.memRead (s : State) (addr n : Nat) : Except Fault Bytes :=
  if addr + n ≤ s.cfg.flashSize then .ok (Memory.readBytes s.flashUnlisted s.flash addr n)
  else .error (.flashOutside addr n)

/-- The flash after `MemWrite(addr, |v|, v)` (R9). -/
def State.flashWithBytes (s : State) (addr : Nat) (v : Bytes) : State :=
  { s with flash := Memory.writeBytes s.flashUnlisted s.flash addr v }

/-- The flash after `FlashErase(sector)` (R84). -/
def State.flashWithErased (s : State) (sector : Nat) : State :=
  { s with flash := Memory.eraseBytes s.flash (sector * s.cfg.sectorSize) s.cfg.sectorSize }

/-- `image_len()` of R303. -/
def State.imageLen (s : State) : Except Fault U32 :=
  match s.memRead (s.cfg.imageBase + s.cfg.hdrLenOff) 4 with
  | .ok b => .ok (rd32 b 0)
  | .error e => .error e

/-- The magic test of R303 and R350. -/
def State.magicOk (s : State) : Except Fault Bool :=
  match s.memRead (s.cfg.imageBase + s.cfg.hdrMagicOff) s.cfg.hdrMagicLen with
  | .ok b => .ok (b == s.cfg.imageMagic)
  | .error e => .error e

/-- `hdr_ok(t)` of R303: the magic, and the recorded length. -/
def State.hdrOk (s : State) (t : U32) : Except Fault Bool :=
  match s.magicOk with
  | .error e => .error e
  | .ok m =>
    match s.imageLen with
    | .error e => .error e
    | .ok l => .ok (m && l == t)

/-- The chunk loop of `crc_flash` (R301): the chunk at offset k, then the next; `fuel` bounds the chunks. -/
def State.crcChunks (s : State) (len : Nat) : Nat → Nat → U32 → Except Fault U32
  | 0, _, v => .ok v
  | fuel + 1, k, v =>
    if k < len then
      match s.memRead (s.cfg.imageBase + k) (min s.cfg.crcChunk (len - k)) with
      | .ok b => s.crcChunks len fuel (k + s.cfg.crcChunk) (crc32Update s.cfg v b)
      | .error e => .error e
    else .ok v

/-- `crc_flash(len)` of R301; a chunk holds at least one byte, so `len` chunks are enough. -/
def State.crcFlash (s : State) (len : Nat) : Except Fault U32 :=
  match s.crcChunks len len 0 s.cfg.crcInit with
  | .ok v => .ok (v ^^^ s.cfg.crcXorout)
  | .error e => .error e

/-! A command in progress: the state it has written and the effects it has performed, in order (R9, R102). -/

/-- The state and the effects so far of a command in progress. -/
structure Work where
  st : State
  effects : List Effect := []
deriving DecidableEq, Repr

/-- A command that has performed no effect yet. -/
def State.work (s : State) : Work := { st := s }

/-- Append an effect. -/
def Work.did (w : Work) (e : Effect) : Work := { w with effects := w.effects ++ [e] }

/-- Write the OTA fields: the eight of the record. -/
def Work.setOta (w : Work) (o : OtaRecord) : Work := { w with st := { w.st with ota := o } }

/-- `TimerArm(d)` (R9). -/
def Work.timerArm (w : Work) (d : U32) : Work :=
  { st := { w.st with tmrArmed := true, tmrDelay := d }, effects := w.effects ++ [.timerArm d] }

/-- `TimerDisarm()` (R9). -/
def Work.timerDisarm (w : Work) : Work :=
  { st := { w.st with tmrArmed := false, tmrDelay := 0 }, effects := w.effects ++ [.timerDisarm] }

/-- `Persist()`, which is `NvSave(Record())` (R9, R305). -/
def Work.persist (w : Work) : Work :=
  { st := { w.st with nv := some w.st.ota }, effects := w.effects ++ [.nvSave w.st.ota] }

/-- `SendMsg(dest, msg)` (R305): `Send(dest, frame_of(msg))`. -/
def Work.sendMsg (w : Work) (dest : Addr) (m : Msg) : Work := w.did (.send dest (frameOf w.st.cfg m))

/-- `Report(r)` (R9). -/
def Work.report (w : Work) (r : Report) : Work := w.did (.report r)

/-- `InvalidateRunningHeader()` (R9, R525): the effect alone; what it writes is outside the block (log entry 17). -/
def Work.invalidateRunningHeader (w : Work) : Work := w.did .invalidateRunningHeader

/-- `SoftwareReset()` (R9, R524): the effect, and the reset the platform then applies (R550). -/
def Work.softwareReset (w : Work) : Work := { st := w.st.endRun, effects := w.effects ++ [.softwareReset] }

/-- `ResetTransfer()` (R305): Idle, every transfer field 0, the role kept. -/
def Work.resetTransfer (w : Work) : Work := w.setOta { OtaRecord.reset with role := w.st.ota.role }

/-- `MemWrite(addr, |v|, v)` (R9); it faults outside the flash (R85). -/
def Work.memWrite (w : Work) (addr : Nat) (v : Bytes) : Except Fault Work :=
  if addr + v.length ≤ w.st.cfg.flashSize then
    .ok { st := w.st.flashWithBytes addr v, effects := w.effects ++ [.flashWrite addr v] }
  else .error (.flashOutside addr v.length)

/-- `FlashErase(sector)` (R9, R84); it faults outside the flash (R85). -/
def Work.flashErase (w : Work) (sector : Nat) : Except Fault Work :=
  if sector < w.st.cfg.flashSectors then
    .ok { st := w.st.flashWithErased sector, effects := w.effects ++ [.flashErase sector] }
  else .error (.flashOutside (sector * w.st.cfg.sectorSize) w.st.cfg.sectorSize)

/-- Erase the sectors of a list, in its order. -/
def Work.eraseSectors (w : Work) : List Nat → Except Fault Work
  | [] => .ok w
  | x :: xs =>
    match w.flashErase x with
    | .ok w => w.eraseSectors xs
    | .error e => .error e

/-- `EraseImage(t)` (R304). -/
def Work.eraseImage (w : Work) (t : Nat) : Except Fault Work := w.eraseSectors (eraseSet w.st.cfg t)

/-- `return ST` with the RES set so far (R9). -/
def Work.finish (w : Work) (st : Status) (res : U32 := 0) : Answer :=
  w.st.answer { st := st, res := res, effects := w.effects }

end Sys2Proof.Machine
end

