-- ==== Sys2Proof/Machine/FrameCodec.lean ====
section
/-! DEFINITION. The frame codec commands (spec/41_frame_codec.md), functions of their operands alone (10_state.md
R40). -/

namespace Sys2Proof.Machine

/-- FC_ENCODE (R251). -/
def execFcEncode (type : Byte) (payload : Bytes) (s : State) : Answer :=
  if s.cfg.mtu < payload.length then s.answer (.status .tooLong)
  else
    s.answer { st := .ok, res := BitVec.ofNat 32 (payload.length + 5), dout := encodeFrame s.cfg type payload }

/-- FC_DECODE (R252). -/
def execFcDecode (buffer : Bytes) (s : State) : Answer :=
  let d := decodeFrame s.cfg buffer
  s.answer { st := d.st, res := d.res, dout := d.payload }

/-- FC_CKSUM (R253). -/
def execFcCksum (data : Bytes) (s : State) : Answer := s.answer (.value ((cksum data).zeroExtend 32))

/-- FC_PARSE (R254). -/
def execFcParse (type : Byte) (payload : Bytes) (s : State) : Answer :=
  match parseMsg s.cfg type payload with
  | .message m => s.answer { st := .ok, msg := some m }
  | .malformed => s.answer (.status .malformed)
  | .other => s.answer (.status .other)

end Sys2Proof.Machine
end

