-- ==== Sys2Proof/Machine/OtaServer.lean ====
section
/-! DEFINITION. The server half of the OTA sequencer (spec/43_ota_server.md): OTA_TRIGGER, and the rules a server
acts by. -/

namespace Sys2Proof.Machine

/-- The OTA guard of 42_ota_common.md R310. -/
def otaGuard (s : State) (body : Answer) : Answer :=
  if s.otaBooted then body else s.answer (.status .uninit)

/-- The served-image metadata OTA_TRIGGER writes (R350). -/
def triggeredOta (c : Config) (peer : Addr) (len crc : U32) : OtaRecord :=
  { role := .server
    downloading := .idle
    totalBytes := len
    totalBlocks := BitVec.ofNat 32 (blocks c len.toNat)
    currentBlock := 0
    crc := crc
    peer := peer
    requestPeriodMs := c.srvRequestPeriodMs }

/-- Steps 2 and 3 of R350, once the header has been accepted with length `len` and the CRC is `crc`. -/
def startServing (peer : Addr) (len crc : U32) (s : State) : Answer :=
  let o := triggeredOta s.cfg peer len crc
  (((s.work.setOta o).sendMsg peer (.notify len s.cfg.srvRequestPeriodMs)).report
    (.notified len o.totalBlocks crc)).finish .ok o.totalBlocks

/-- OTA_TRIGGER (R350): BUSY, then NO_IMAGE, then BAD_LEN (R501), else serve. -/
def execOtaTrigger (peer : Addr) (s : State) : Answer :=
  otaGuard s
    (if s.ota.role = .client ∧ s.ota.downloading ≠ .idle then (s.work.report .busy).finish .busy
     else
      andThen s.magicOk fun magic =>
        if magic then
          andThen s.imageLen fun len =>
            if legalLength s.cfg len.toNat then
              andThen (s.crcFlash len.toNat) fun crc => startServing peer len crc s
            else (s.work.report (.badLength len)).finish .badLen
        else (s.work.report .noImage).finish .noImage)

/-- BlockRequest at the server (R352). -/
def serverBlockRequest (src : Addr) (idx : U32) (s : State) : Answer :=
  if s.ota.totalBlocks.toNat ≤ idx.toNat then s.answer (.status .ignored)
  else
    let n := blockLen s.cfg s.ota.totalBytes.toNat idx.toNat
    andThen (s.memRead (blockAddr s.cfg idx.toNat) n) fun data =>
      (s.work.sendMsg src (.blockResponse idx (BitVec.ofNat 16 n) data s.ota.crc)).finish .ok

/-- UpgradeRequest at the server (R353). -/
def serverUpgradeRequest (src : Addr) (s : State) : Answer := (s.work.sendMsg src .upgradeResponse).finish .ok

/-- AbortRequest at the server (R354). -/
def serverAbortRequest (src : Addr) (s : State) : Answer := (s.work.sendMsg src .abortResponse).finish .ok

/-- Operator abort at the server (R355). -/
def serverAbort (s : State) : Answer := ((s.work.sendMsg s.ota.peer .abortRequest).report .abortSent).finish .ok

/-- Operator status poll at the server (R356). -/
def serverPoll (s : State) : Answer := (s.work.sendMsg s.ota.peer .statusRequest).finish .ok

/-- AbortResponse at the server (R357). -/
def serverAbortResponse (src : Addr) (s : State) : Answer := (s.work.report (.abortAcked src)).finish .ok

/-- StatusResponse at the server (R358). -/
def serverStatusResponse (src : Addr) (ip pct : Byte) (rem : U32) (s : State) : Answer :=
  (s.work.report (.remoteStatus src ip pct rem)).finish .ok

end Sys2Proof.Machine
end

