-- ==== Sys2Proof/Machine/OtaClient.lean ====
section
/-! DEFINITION. The client half of the OTA sequencer (spec/44_ota_client.md): OTA_TICK, and the rules a client
acts by. -/

namespace Sys2Proof.Machine

/-- The fields an accepted Notify writes before the erase (R400): all but `downloading` and `current_block`. -/
def notifiedOta (c : Config) (o : OtaRecord) (src : Addr) (total : U32) (period : U16) : OtaRecord :=
  { o with
    totalBytes := total
    totalBlocks := BitVec.ofNat 32 (blocks c total.toNat)
    peer := src
    requestPeriodMs := period
    crc := 0 }

/-- Notify at the client (R400). -/
def clientNotify (src : Addr) (total : U32) (period : U16) (s : State) : Answer :=
  if legalLength s.cfg total.toNat then
    andThen ((s.work.setOta (notifiedOta s.cfg s.ota src total period)).eraseImage total.toNat) fun w =>
      ((w.setOta { w.st.ota with downloading := .downloading, currentBlock := 0 }).persist.timerArm 0).finish .ok
  else s.answer (.status .ignored)

/-- The success branch of `Verify()` (R405). -/
def verifySucceeds (w : Work) : Answer :=
  (((w.setOta { w.st.ota with downloading := .upgradeRequesting }).timerArm w.st.cfg.upgradeRetryMs).report
    .verifyOk).finish .ok

/-- The failure branch of `Verify()` (R405). -/
def verifyFails (w : Work) : Answer :=
  andThen ((w.setOta { w.st.ota with currentBlock := 0 }).eraseImage w.st.ota.totalBytes.toNat) fun w =>
    ((w.persist.timerArm (w.st.ota.requestPeriodMs.zeroExtend 32)).report .verifyFailed).finish .ok

/-- `Verify()` (R405): the header check and the CRC, both required. -/
def verify (w : Work) : Answer :=
  andThen (w.st.hdrOk w.st.ota.totalBytes) fun hdr =>
    andThen (w.st.crcFlash w.st.ota.totalBytes.toNat) fun crc =>
      if hdr = true ∧ crc = w.st.ota.crc then verifySucceeds w else verifyFails w

/-- OTA_TICK (R401): the request task. Outside a transfer it disarms and then is IGNORED, which R502 would not have
(DEDUCED, log entry 10). -/
def execOtaTick (s : State) : Answer :=
  otaGuard s
    (if s.tmrArmed then
      let w := s.work.timerDisarm
      if s.ota.role = .server then w.finish .ignored
      else
        match s.ota.downloading with
        | .idle => w.finish .ignored
        | .downloading =>
          if s.ota.currentBlock.toNat < s.ota.totalBlocks.toNat then
            ((w.sendMsg s.ota.peer (.blockRequest s.ota.currentBlock)).timerArm
              (s.ota.requestPeriodMs.zeroExtend 32)).finish .ok
          else verify w
        | .upgradeRequesting =>
          ((w.sendMsg s.ota.peer .upgradeRequest).timerArm s.cfg.upgradeRetryMs).finish .ok
     else s.answer (.status .ignored))

/-- The tests of R403 on a BlockResponse, in its order. -/
def blockAccepted (c : Config) (o : OtaRecord) (idx : U32) (n : U16) : Bool :=
  o.downloading == .downloading && decide (o.currentBlock.toNat < o.totalBlocks.toNat) && idx == o.currentBlock &&
    decide (n.toNat = blockLen c o.totalBytes.toNat idx.toNat)

/-- The checkpoint of R403 and R404: save when `current_block` is a multiple of CHECKPOINT_INTERVAL. -/
def Work.checkpoint (w : Work) : Work :=
  if w.st.ota.currentBlock.toNat % w.st.cfg.checkpointInterval = 0 then w.persist else w

/-- What R403 does once the block's bytes are in flash: count it, keep its CRC, checkpoint, verify at the last. -/
def blockWritten (crc : U32) (w : Work) : Answer :=
  let w := w.setOta
    { w.st.ota with currentBlock := BitVec.ofNat 32 (w.st.ota.currentBlock.toNat + 1), crc := crc }
  let w := w.checkpoint
  if w.st.ota.currentBlock = w.st.ota.totalBlocks then verify w else w.finish .ok

/-- BlockResponse at the client (R403). -/
def clientBlockResponse (idx : U32) (n : U16) (data : Bytes) (crc : U32) (s : State) : Answer :=
  if blockAccepted s.cfg s.ota idx n then
    andThen (s.work.memWrite (blockAddr s.cfg idx.toNat) data) (blockWritten crc)
  else s.answer (.status .ignored)

/-- UpgradeResponse at the client (R406). -/
def clientUpgradeResponse (s : State) : Answer :=
  if s.ota.downloading = .upgradeRequesting then
    s.work.resetTransfer.persist.timerDisarm.invalidateRunningHeader.softwareReset.finish .ok
  else s.answer (.status .ignored)

/-- AbortRequest at the client (R407). -/
def clientAbortRequest (src : Addr) (s : State) : Answer :=
  let w := if s.ota.downloading = .idle then s.work else s.work.resetTransfer.persist.timerDisarm
  (w.sendMsg src .abortResponse).finish .ok

/-- StatusRequest at the client (R408). -/
def clientStatusRequest (src : Addr) (s : State) : Answer :=
  let v := statusVals s.ota
  (s.work.sendMsg src (.statusResponse v.inProgress v.percent v.remainingMin)).finish .ok

/-- Operator abort at a client (R409). -/
def clientAbort (s : State) : Answer :=
  if s.ota.downloading = .idle then s.answer (.status .ignored)
  else (s.work.resetTransfer.persist.timerDisarm.report .aborted).finish .ok

/-- Operator status poll at a client (R410). -/
def clientPoll (s : State) : Answer :=
  let v := statusVals s.ota
  (s.work.report (.localStatus v.inProgress v.percent v.remainingMin)).finish .ok (pollRes v)

end Sys2Proof.Machine
end

