-- ==== Sys2Proof/Machine/OtaCommon.lean ====
section
/-! DEFINITION. The OTA commands that are not one half's alone (spec/42_ota_common.md): OTA_RX and its role
dispatch, one meaning a row of spec/opcode_table.json, OTA_ABORT, OTA_POLL and OTA_BOOT. -/

namespace Sys2Proof.Machine

/-- Act by role: the client's rule or the server's. -/
def byRole (s : State) (client server : Answer) : Answer :=
  match s.ota.role with
  | .client => client
  | .server => server

/-- The status IGNORED with no state change and no effect (R306). -/
def ignored (s : State) : Answer := s.answer (.status .ignored)

/-- The table of R306: which rule acts on a parsed message from `src`. -/
def dispatchMsg (src : Addr) (m : Msg) (s : State) : Answer :=
  match m with
  | .notify total period => byRole s (clientNotify src total period s) (ignored s)
  | .blockRequest idx => byRole s (ignored s) (serverBlockRequest src idx s)
  | .blockResponse idx n data crc => byRole s (clientBlockResponse idx n data crc s) (ignored s)
  | .abortRequest => byRole s (clientAbortRequest src s) (serverAbortRequest src s)
  | .abortResponse => byRole s (ignored s) (serverAbortResponse src s)
  | .upgradeRequest => byRole s (ignored s) (serverUpgradeRequest src s)
  | .upgradeResponse => byRole s (clientUpgradeResponse s) (ignored s)
  | .statusRequest => byRole s (clientStatusRequest src s) (ignored s)
  | .statusResponse ip pct rem => byRole s (ignored s) (serverStatusResponse src ip pct rem s)

/-- OTA_RX (R307): guard, parse, dispatch. -/
def otaRx (type : Byte) (src : Addr) (payload : Bytes) (s : State) : Answer :=
  otaGuard s
    (match parseMsg s.cfg type payload with
     | .malformed => s.answer (.status .malformed)
     | .other => s.answer (.status .other)
     | .message m => dispatchMsg src m s)

/-- OTA_RX.NOTIFY (R307, R400). -/
def execOtaRxNotify (src : Addr) (payload : Bytes) (s : State) : Answer := otaRx s.cfg.tNotify src payload s

/-- OTA_RX.BLOCK_REQ (R307, R352). -/
def execOtaRxBlockReq (src : Addr) (payload : Bytes) (s : State) : Answer := otaRx s.cfg.tBlockReq src payload s

/-- OTA_RX.BLOCK_RESP (R307, R403). -/
def execOtaRxBlockResp (src : Addr) (payload : Bytes) (s : State) : Answer := otaRx s.cfg.tBlockResp src payload s

/-- OTA_RX.ABORT_REQ (R307, R354, R407). -/
def execOtaRxAbortReq (src : Addr) (payload : Bytes) (s : State) : Answer := otaRx s.cfg.tAbortReq src payload s

/-- OTA_RX.ABORT_RESP (R307, R357). -/
def execOtaRxAbortResp (src : Addr) (payload : Bytes) (s : State) : Answer := otaRx s.cfg.tAbortResp src payload s

/-- OTA_RX.UPG_REQ (R307, R353). -/
def execOtaRxUpgReq (src : Addr) (payload : Bytes) (s : State) : Answer := otaRx s.cfg.tUpgReq src payload s

/-- OTA_RX.UPG_RESP (R307, R406). -/
def execOtaRxUpgResp (src : Addr) (payload : Bytes) (s : State) : Answer := otaRx s.cfg.tUpgResp src payload s

/-- OTA_RX.STATUS_REQ (R307, R408). -/
def execOtaRxStatusReq (src : Addr) (payload : Bytes) (s : State) : Answer := otaRx s.cfg.tStatusReq src payload s

/-- OTA_RX.STATUS_RESP (R307, R358). -/
def execOtaRxStatusResp (src : Addr) (payload : Bytes) (s : State) : Answer := otaRx s.cfg.tStatusResp src payload s

/-- OTA_RX.OTHER (R307): a frame type that is not an OTA tag (log entry 19). -/
def execOtaRxOther (type : Byte) (src : Addr) (payload : Bytes) (s : State) : Answer := otaRx type src payload s

/-- OTA_ABORT (R308). -/
def execOtaAbort (s : State) : Answer := otaGuard s (byRole s (clientAbort s) (serverAbort s))

/-- OTA_POLL (R309). -/
def execOtaPoll (s : State) : Answer := otaGuard s (byRole s (clientPoll s) (serverPoll s))

/-- The restore of R320: the record's eight fields, the timer with 0, and the report. -/
def restore (r : OtaRecord) (s : State) : Answer :=
  (((s.work.setOta r).timerArm 0).report (.resumed r.currentBlock r.totalBlocks)).finish .ok

/-- OTA_BOOT (R320). -/
def execOtaBoot (s : State) : Answer :=
  if s.otaBooted then s.answer (.status .ignored)
  else
    let s := { s with otaBooted := true }
    match s.nv with
    | none => s.work.finish .ok
    | some r => if restorable s.cfg r then restore r s else s.work.finish .ok

end Sys2Proof.Machine
end

