-- ==== Sys2Proof/Machine/RingBuffer.lean ====
section
/-! DEFINITION. The ring buffer commands (spec/40_ring_buffer.md). -/

namespace Sys2Proof.Machine

/-- The initialisation guard of R200. -/
def rbGuard (s : State) (body : Answer) : Answer :=
  if s.rbInited then body else s.answer (.status .uninit)

/-- RB_INIT (R201). The range check is the decoder's (R126); a capacity outside it is ILLEGAL here too
(log entry 20). -/
def execRbInit (cap : U16) (s : State) : Answer :=
  if capacityLegal s.cfg cap then (s.initRing cap).answer (.status .ok) else s.answer (.status .illegal)

/-- RB_CLEAR (R202). -/
def execRbClear (s : State) : Answer := rbGuard s ((s.setIndices 0 0).answer (.status .ok))

/-- RB_FREE (R203). -/
def execRbFree (s : State) : Answer := rbGuard s (s.answer (.value (BitVec.ofNat 32 s.freeSpace)))

/-- RB_SIZE (R204). -/
def execRbSize (s : State) : Answer := rbGuard s (s.answer (.value (BitVec.ofNat 32 s.dataSize)))

/-- RB_PUSH (R205). -/
def execRbPush (data : Bytes) (s : State) : Answer :=
  rbGuard s
    (if s.freeSpace < data.length then s.answer (.status .dropped)
     else (s.pushBytes data).answer (.status .ok))

/-- RB_POP (R206). -/
def execRbPop (len : U16) (copy : Bool) (s : State) : Answer :=
  rbGuard s
    (if s.dataSize < len.toNat then s.answer (.status .dropped)
     else (s.popBytes len.toNat).answer (.bytes (if copy then s.frontBytes len.toNat else [])))

/-- RB_PEEK (R207). -/
def execRbPeek (len : U16) (s : State) : Answer :=
  rbGuard s
    (if s.dataSize < len.toNat then s.answer (.status .dropped)
     else s.answer (.bytes (s.frontBytes len.toNat)))

end Sys2Proof.Machine
end

