-- ==== Sys2Proof/Machine/Dispatch.lean ====
section
/-! DEFINITION. One arm per instruction of spec/opcode_table.json. -/

namespace Sys2Proof.Machine

def exec (i : Instr) (s : State) : Host.Outcome State Fault Refusal :=
  match i with
  | .rbInit cap => Sys2Proof.Machine.execRbInit cap s
  | .rbClear => Sys2Proof.Machine.execRbClear s
  | .rbFree => Sys2Proof.Machine.execRbFree s
  | .rbSize => Sys2Proof.Machine.execRbSize s
  | .rbPush data => Sys2Proof.Machine.execRbPush data s
  | .rbPop len copy => Sys2Proof.Machine.execRbPop len copy s
  | .rbPeek len => Sys2Proof.Machine.execRbPeek len s
  | .fcEncode type payload => Sys2Proof.Machine.execFcEncode type payload s
  | .fcDecode buffer => Sys2Proof.Machine.execFcDecode buffer s
  | .fcCksum data => Sys2Proof.Machine.execFcCksum data s
  | .fcParse type payload => Sys2Proof.Machine.execFcParse type payload s
  | .otaRxNotify src payload => Sys2Proof.Machine.execOtaRxNotify src payload s
  | .otaRxBlockReq src payload => Sys2Proof.Machine.execOtaRxBlockReq src payload s
  | .otaRxBlockResp src payload => Sys2Proof.Machine.execOtaRxBlockResp src payload s
  | .otaRxAbortReq src payload => Sys2Proof.Machine.execOtaRxAbortReq src payload s
  | .otaRxAbortResp src payload => Sys2Proof.Machine.execOtaRxAbortResp src payload s
  | .otaRxUpgReq src payload => Sys2Proof.Machine.execOtaRxUpgReq src payload s
  | .otaRxUpgResp src payload => Sys2Proof.Machine.execOtaRxUpgResp src payload s
  | .otaRxStatusReq src payload => Sys2Proof.Machine.execOtaRxStatusReq src payload s
  | .otaRxStatusResp src payload => Sys2Proof.Machine.execOtaRxStatusResp src payload s
  | .otaRxOther type src payload => Sys2Proof.Machine.execOtaRxOther type src payload s
  | .otaTick => Sys2Proof.Machine.execOtaTick s
  | .otaTrigger peer => Sys2Proof.Machine.execOtaTrigger peer s
  | .otaAbort => Sys2Proof.Machine.execOtaAbort s
  | .otaPoll => Sys2Proof.Machine.execOtaPoll s
  | .otaBoot => Sys2Proof.Machine.execOtaBoot s

end Sys2Proof.Machine
end

