-- ==== Sys2Proof/Machine/Port.lean ====
section
/-! DEFINITION. The command port: what the block does with the input it has taken (spec/00_scope.md R8,
20_memory.md R100, 60_exceptions.md R501). -/

namespace Sys2Proof.Machine

/-- What the port does with a command the decoder rejects: the status ILLEGAL with no state change and no effect
(R126), or, where it is not a command, a refusal (R8, R501). -/
def rejectCommand (r : Reject) (s : State) : Answer :=
  if r.isIllegal then s.answer (.status .illegal) else .refused (.notACommand r)

/-- Decode a command and run it to completion (R100). -/
def serveCommand (c : Command) (s : State) : Answer :=
  match decode s.cfg c with
  | .ok i => exec i s
  | .error r => rejectCommand r s

/-- Serve one input: a command, or the Platform's reset (R550). -/
def serveInput (i : Input) (s : State) : Answer :=
  match i with
  | .command c => serveCommand c s
  | .reset => .next s.resetRegisters

end Sys2Proof.Machine
end

