-- ==== Sys2Proof/Machine/Step.lean ====
section
/-! DEFINITION. One step: the block takes the next input and runs it to completion before the next (spec/20_memory.md
R100). -/

namespace Sys2Proof.Machine

/-- One step. A parameter set that breaks R6 is refused (U17); with no input at the port the block waits, and
nothing changes (log entry 5). -/
def step (s : State) : Host.Outcome State Fault Refusal :=
  if s.cfg.Valid then
    match s.pending with
    | [] => .next s
    | i :: rest => serveInput i (s.withPending rest)
  else .refused .badConfig

/-- `s` with the command of a table word at the head of the port's queue, so that the next step runs it. -/
def State.withFetchWord (s : State) (nbits w : Nat) : State :=
  { s with pending := .command (tableCommand nbits w) :: s.pending }

end Sys2Proof.Machine
end

