-- ==== Sys2Proof/Machine/Pseudo.lean ====
section
/-! DEFINITION. The pseudo-instructions of spec/30_encoding.md R161: none is a command of its own, each expands to
commands the Consumer issues one after another. -/

namespace Sys2Proof.Machine

/-- `RB_READ n` = `RB_POP n, 1`. -/
def rbReadPseudo (n : U16) : Instr := .rbPop n true

/-- `RB_DISCARD n` = `RB_POP n, 0`. -/
def rbDiscardPseudo (n : U16) : Instr := .rbPop n false

/-- The result the port answered last. -/
def State.lastResult (s : State) : Result := s.outputs.getLastD (.status .ok)

/-- Run a command and go on with its result. -/
def thenResult (a : Answer) (f : Result → State → Answer) : Answer :=
  match a with
  | .next s => f s.lastResult s
  | .fault e => .fault e
  | .refused r => .refused r

/-- `bytes_consumed` of an FC_DECODE result: RES[15:0] (R252). -/
def Result.consumed (r : Result) : U16 := r.res.extractLsb' 0 16

/-- The frame type of an FC_DECODE result: RES[23:16] (R252). -/
def Result.frameType (r : Result) : Byte := r.res.extractLsb' 16 8

/-- The last command of RX_STEP: hand the frame on where the decode was OK. -/
def rxHandOver (src : Addr) (decoded : Result) (s : State) : Answer :=
  if decoded.st = .ok then exec (rxInstr s.cfg decoded.frameType src decoded.dout) s else .next s

/-- The pop of RX_STEP: discard what the decode consumed, where it consumed something (R573). -/
def rxDiscard (src : Addr) (decoded : Result) (s : State) : Answer :=
  if decoded.consumed = 0 then rxHandOver src decoded s
  else thenResult (exec (rbDiscardPseudo decoded.consumed) s) fun _ s => rxHandOver src decoded s

/-- `RX_STEP src`: RB_SIZE, RB_PEEK, FC_DECODE, then RB_POP and OTA_RX where R161 says so. This is the Consumer
running alone (log entry 9); `RxPhase` below is RX_STEP as R161 and R572 have it, with other agents' commands between. -/
def rxStep (src : Addr) (s : State) : Answer :=
  thenResult (exec .rbSize s) fun size s =>
    thenResult (exec (.rbPeek (size.res.extractLsb' 0 16)) s) fun peeked s =>
      thenResult (exec (.fcDecode peeked.dout) s) fun decoded s => rxDiscard src decoded s

/-! RX_STEP one command at a time: it is not atomic (R161, R572). -/

/-- How far the Consumer has come in an RX_STEP: the command it issues next, with what the earlier ones returned. -/
inductive RxPhase where
  | size (src : Addr)
  | peek (src : Addr) (n : U16)
  | decode (src : Addr) (buffer : Bytes)
  | discard (src : Addr) (decoded : Result)
  | handOver (src : Addr) (decoded : Result)
  | done
deriving DecidableEq, Repr

/-- The command a phase issues; none once RX_STEP is done. -/
def RxPhase.instr (c : Config) : RxPhase → Option Instr
  | .size _ => some .rbSize
  | .peek _ n => some (.rbPeek n)
  | .decode _ buffer => some (.fcDecode buffer)
  | .discard _ decoded => some (rbDiscardPseudo decoded.consumed)
  | .handOver src decoded => some (rxInstr c decoded.frameType src decoded.dout)
  | .done => none

/-- What follows the pop: OTA_RX where the decode was OK. -/
def rxAfterDiscard (src : Addr) (decoded : Result) : RxPhase := if decoded.st = .ok then .handOver src decoded else .done

/-- The phase that the result of a phase's command leads to. -/
def RxPhase.after (r : Result) : RxPhase → RxPhase
  | .size src => .peek src (r.res.extractLsb' 0 16)
  | .peek src _ => .decode src r.dout
  | .decode src _ => if r.consumed = 0 then rxAfterDiscard src r else .discard src r
  | .discard src decoded => rxAfterDiscard src decoded
  | .handOver _ _ => .done
  | .done => .done

/-- The phases of an RX_STEP, up to `fuel` commands, with no other command between. -/
def rxAlone : Nat → RxPhase → State → Answer
  | 0, _, s => .next s
  | fuel + 1, p, s =>
    match p.instr s.cfg with
    | none => .next s
    | some i => thenResult (exec i s) fun r t => rxAlone fuel (p.after r) t

end Sys2Proof.Machine
end

