-- ==== Sys2Proof/Machine/Boot.lean ====
section
/-! DEFINITION. The boot sequence (spec/70_reset_and_hazards.md R551, R571): the two commands the Platform issues after
reset, the capacities it may give the ring buffer, and the rule that no other agent's command comes before them. -/

namespace Sys2Proof.Machine

/-- The capacities of the boot sequence: `MTU + 6 ≤ N ≤ RB_NMAX` (R551). The lower bound is R571's: every legal frame
then fits the N - 1 bytes the buffer stores. -/
def bootCapacityOk (c : Config) (n : U16) : Bool := decide (c.mtu + 6 ≤ n.toNat ∧ n.toNat ≤ c.rbNmax)

/-- R551 leaves the order of the two commands to the Platform. -/
inductive BootOrder where
  | ringFirst
  | otaFirst
deriving DecidableEq, Repr

/-- The boot sequence of R551, with ring-buffer capacity n. -/
def bootSequence (order : BootOrder) (n : U16) : List Instr :=
  match order with
  | .ringFirst => [.rbInit n, .otaBoot]
  | .otaFirst => [.otaBoot, .rbInit n]

/-- The boot sequence as the commands the Platform issues. -/
def bootInputs (c : Config) (order : BootOrder) (n : U16) : List Input :=
  (bootSequence order n).map fun i => .command (encode c i)

/-- A command is the word of an instruction. -/
def decodesTo (c : Config) (cmd : Command) (i : Instr) : Bool :=
  match decode c cmd with
  | .ok j => j == i
  | .error _ => false

/-- A command is the boot sequence's RB_INIT: its LEN is a capacity R551 allows. -/
def isBootInit (c : Config) (cmd : Command) : Bool :=
  decodesTo c cmd (.rbInit (lenField cmd.cw)) && bootCapacityOk c (lenField cmd.cw)

/-- A command is the boot sequence's OTA_BOOT. -/
def isBootOta (c : Config) (cmd : Command) : Bool := decodesTo c cmd .otaBoot

/-- R551's order on a queue of inputs, for a ring buffer and a sequencer that are ready or not: after a reset no command
comes before the two of the boot sequence, each once and in either order. -/
def bootsFirst (c : Config) (ringReady otaReady : Bool) : List Input → Bool
  | [] => true
  | .reset :: rest => bootsFirst c false false rest
  | .command cmd :: rest =>
    if ringReady && otaReady then bootsFirst c true true rest
    else if isBootInit c cmd then !ringReady && bootsFirst c true otaReady rest
    else isBootOta c cmd && !otaReady && bootsFirst c ringReady true rest

/-- What waits at the port keeps the order of R551. It is a rule on the agents (log entry 26): the block runs any queue. -/
def State.BootsFirst (s : State) : Prop := bootsFirst s.cfg s.rbInited s.otaBooted s.pending = true

end Sys2Proof.Machine
end

