-- ==== Sys2Proof/Machine/System.lean ====
section
/-! DEFINITION. A system of nodes (spec/60_exceptions.md R517, R522; 20_memory.md R106): each node is one instance of
the block, nodes share nothing, and the radio carries the frames their Send effects hand over, which it may lose,
duplicate or reorder (log entry 16). -/

namespace Sys2Proof.Machine

/-- One node: its radio address, its instance of the block, and how far its one Consumer (R572) has come in an RX_STEP. -/
structure Node where
  addr : Addr
  st : State
  rx : RxPhase := .done
deriving DecidableEq, Repr

/-- A frame in the air. -/
structure Packet where
  src : Addr
  dest : Addr
  bytes : Bytes
deriving DecidableEq, Repr

/-- The nodes of the system and the frames the radio holds. -/
structure System where
  nodes : List Node
  air : List Packet
deriving DecidableEq, Repr

/-- R517: "identified by its ADDR_BITS-bit radio address". The system has one ADDR_BITS, every address fits it, no two nodes
have the same, and a frame in the air names a source that fits. -/
structure System.Identified (sys : System) : Prop where
  oneWidth : ∀ m ∈ sys.nodes, ∀ n ∈ sys.nodes, m.st.cfg.addrBits = n.st.cfg.addrBits
  width : ∀ n ∈ sys.nodes, n.st.cfg.addrOk n.addr = true
  distinct : (sys.nodes.map Node.addr).Nodup
  sources : ∀ p ∈ sys.air, ∀ n ∈ sys.nodes, n.st.cfg.addrOk p.src = true

/-- Nodes with the given addresses, each right after reset (R517), and nothing in the air. -/
def System.start (addrs : List Addr) : System :=
  { nodes := addrs.map fun a => { addr := a, st := State.reset }, air := [] }

/-- The environment's choices (R100, R106): an agent of a node issues an input, its Timer issues an OTA_TICK, its Platform
powers it on or boots it after a software reset (R550, R551), its Consumer begins an RX_STEP or issues the next command of
the one it is in (R161), the node takes a step, the radio delivers a frame or loses it. Any events may come between the
commands of an RX_STEP (R572). `again` keeps the frame in the air, so that it may be delivered twice; any frame may be
chosen, so delivery may reorder. -/
inductive Event where
  | issue (node : Nat) (i : Input)
  | tick (node : Nat)
  | powerOn (node : Nat) (order : BootOrder) (n : U16)
  | boot (node : Nat) (order : BootOrder) (n : U16)
  | rxBegin (node : Nat) (src : Addr)
  | rx (node : Nat)
  | run (node : Nat)
  | deliver (packet : Nat) (again : Bool)
  | deliverBytes (packet : Nat) (again : Bool)
  | lose (packet : Nat)
deriving DecidableEq, Repr

/-- The frames a result hands to the radio. -/
def sentBy (src : Addr) (r : Result) : List Packet :=
  r.effects.filterMap fun e =>
    match e with
    | .send dest bytes => some { src := src, dest := dest, bytes := bytes }
    | _ => none

/-- An agent issues inputs one after another, after the earlier ones. -/
def Node.issueAll (n : Node) (is : List Input) : Node := { n with st := n.st.withPending (n.st.pending ++ is) }

/-- An agent of the node issues an input, after the earlier ones. -/
def Node.issue (n : Node) (i : Input) : Node := n.issueAll [i]

/-- The Timer agent's OTA_TICK, which it issues only while the request timer is armed (R514). -/
def Node.tick (n : Node) : Node := if n.st.tmrArmed then n.issue (.command (encode n.st.cfg .otaTick)) else n

/-- The Platform powers the node on: the reset, and at once the boot sequence (R550, R551). -/
def Node.powerOn (order : BootOrder) (cap : U16) (n : Node) : Node :=
  if bootCapacityOk n.st.cfg cap then n.issueAll (.reset :: bootInputs n.st.cfg order cap) else n

/-- The Platform boots a node that a software reset has left, before another agent has issued a command (R550, R551). -/
def Node.boot (order : BootOrder) (cap : U16) (n : Node) : Node :=
  if bootCapacityOk n.st.cfg cap && !n.st.rbInited && !n.st.otaBooted && n.st.pending.isEmpty then
    n.issueAll (bootInputs n.st.cfg order cap)
  else n

/-- Both units of the block are ready (R551). -/
def State.ready (s : State) : Bool := s.rbInited && s.otaBooted

/-- The Consumer begins an RX_STEP, once the last is done. It has an ADDR_BITS-bit source address for the frame (R121), and
waits for the boot sequence (R551). -/
def Node.rxBegin (src : Addr) (n : Node) : Node :=
  if n.rx = .done ∧ n.st.ready = true ∧ n.st.cfg.addrOk src = true then { n with rx := .size src } else n

/-- The OTA_RX command that a delivered frame reaches the block as (R517, R522), where its bytes are a frame and its
source is an address of ADDR_BITS bits, which OTA_RX needs (R121). -/
def rxCommand (c : Config) (p : Packet) : Option Command :=
  let d := decodeFrame c p.bytes
  if d.st = .ok ∧ c.addrOk p.src = true then some (encode c (rxInstr c d.type p.src d.payload)) else none

/-- The RB_PUSH command that a delivered frame reaches the block as (R522). DESIGN CHOICE (log entry 25): a frame of more
than 65535 bytes, which BLOCK_SIZE of 65521 or more allows, is lost on this path. R522 does not say how it would be pushed:
the LEN of one RB_PUSH cannot count it, and no capacity that RB_INIT takes holds it. -/
def pushCommand (c : Config) (p : Packet) : Option Command :=
  if countOk p.bytes then some (encode c (.rbPush p.bytes)) else none

/-- Hand a packet to the nodes that have its address. -/
def deliverTo (f : Config → Packet → Option Command) (p : Packet) (n : Node) : Node :=
  if n.addr = p.dest then
    match f n.st.cfg p with
    | some c => n.issue (.command c)
    | none => n
  else n

/-- The frames left in the air after one was chosen. -/
def airAfter (air : List Packet) (k : Nat) (again : Bool) : List Packet := if again then air else air.eraseIdx k

/-- Deliver the chosen packet, if there is one. -/
def System.deliver (f : Config → Packet → Option Command) (sys : System) (k : Nat) (again : Bool) : System :=
  match sys.air[k]? with
  | none => sys
  | some p => { nodes := sys.nodes.map (deliverTo f p), air := airAfter sys.air k again }

/-- The results a step added. -/
def newResults (before after : State) : List Result := after.outputs.drop before.outputs.length

/-- Node k after a step of its block: what the block sends enters the air, and the Consumer is at `rx` of the next state,
unless a reset has ended its RX_STEP (R550). A step that faults or is refused leaves the node where it is. -/
def System.settle (sys : System) (k : Nat) (n : Node) (rx : State → RxPhase) (a : Answer) : System :=
  match a with
  | .next s =>
    { nodes := sys.nodes.set k { n with st := s, rx := if s.ready then rx s else .done }
      air := sys.air ++ (newResults n.st s).flatMap (sentBy n.addr) }
  | .fault _ => sys
  | .refused _ => sys

/-- A node takes a step. -/
def System.runNode (sys : System) (k : Nat) : System :=
  match sys.nodes[k]? with
  | none => sys
  | some n => sys.settle k n (fun _ => n.rx) (step n.st)

/-- `s` with a command to be taken next: between agents the order is any interleaving (R100). -/
def State.withNext (s : State) (c : Command) : State := s.withPending (.command c :: s.pending)

/-- A node's Consumer issues the next command of its RX_STEP, which the block takes at once, and goes on with the result
(R161; log entry 27). -/
def System.rxNode (sys : System) (k : Nat) : System :=
  match sys.nodes[k]? with
  | none => sys
  | some n =>
    match n.rx.instr n.st.cfg with
    | none => sys
    | some i =>
      if n.st.ready then
        sys.settle k n (fun s => n.rx.after s.lastResult) (step (n.st.withNext (encode n.st.cfg i)))
      else sys

/-- One event of the system. -/
def System.step (sys : System) (e : Event) : System :=
  match e with
  | .issue k i => { sys with nodes := sys.nodes.modify k (fun n => n.issue i) }
  | .tick k => { sys with nodes := sys.nodes.modify k Node.tick }
  | .powerOn k order n => { sys with nodes := sys.nodes.modify k (Node.powerOn order n) }
  | .boot k order n => { sys with nodes := sys.nodes.modify k (Node.boot order n) }
  | .rxBegin k src => { sys with nodes := sys.nodes.modify k (Node.rxBegin src) }
  | .rx k => sys.rxNode k
  | .run k => sys.runNode k
  | .deliver k again => sys.deliver rxCommand k again
  | .deliverBytes k again => sys.deliver pushCommand k again
  | .lose k => { sys with air := sys.air.eraseIdx k }

/-- A run of the system. -/
def System.run (sys : System) (events : List Event) : System := events.foldl System.step sys

/-- One round of the pull of R411, over a radio that holds nothing else and loses nothing: the client's timer ticks, its
request reaches the server, and the server's answer reaches the client. -/
def pullRound (client server : Nat) : List Event :=
  [.tick client, .run client, .deliver 0 false, .run server, .deliver 0 false, .run client]

end Sys2Proof.Machine
end

