-- ==== Sys2Proof/Safety.lean ====
section
/-! DEFINITION. The states a safe run stays in: the invariants of spec/10_state.md R30-R52, the canonical form of the
flash, and the widths the spec gives. Every obligation that needs more than one state at a time names `Inv`. -/

namespace Sys2Proof.Machine

/-- R30, R80: the storage has RB_NMAX bytes, and once RB_INIT has run the capacity and the indices are in range. -/
structure RingInv (s : State) : Prop where
  storage : s.rbStorage.length = s.cfg.rbNmax
  capPos : s.rbInited = true → 1 ≤ s.rbCap.toNat
  capMax : s.rbInited = true → s.rbCap.toNat ≤ s.cfg.rbNmax
  beginLt : s.rbInited = true → s.rbBegin < s.rbCap.toNat
  endLt : s.rbInited = true → s.rbEnd < s.rbCap.toNat

/-- I1-I6 of R47-R52, with R49's "every transfer field is 0" for an Idle client, and the reset values that stand
until OTA_BOOT has run (R310, R320). -/
structure OtaInv (s : State) : Prop where
  blocksOfBytes : s.ota.totalBlocks.toNat = blocks s.cfg s.ota.totalBytes.toNat
  currentLe : s.ota.currentBlock.toNat ≤ s.ota.totalBlocks.toNat
  idleCurrent : s.ota.downloading = .idle → s.ota.currentBlock = 0
  idleClient : s.ota.role = .client → s.ota.downloading = .idle → s.ota = OtaRecord.reset
  serverIdle : s.ota.role = .server → s.ota.downloading = .idle
  upgradeComplete : s.ota.downloading = .upgradeRequesting → s.ota.currentBlock = s.ota.totalBlocks
  activeLength : s.ota.role = .client → s.ota.downloading ≠ .idle → legalLength s.cfg s.ota.totalBytes.toNat = true
  activeArmed : s.ota.role = .client → s.ota.downloading ≠ .idle → s.tmrArmed = true
  unbooted : s.otaBooted = false → s.ota = OtaRecord.reset ∧ s.tmrArmed = false

/-- The flash is in its one canonical form and lists no address outside the flash (R83). -/
structure FlashInv (s : State) : Prop where
  wf : Memory.Wf s.flashUnlisted s.flash
  inside : ∀ cell ∈ s.flash, cell.1 < s.cfg.flashSize

/-- The peers the registers and the NV store hold are ADDR_BITS bits wide (R45), and so are the served image's
length bounds: a server's length is one OTA_TRIGGER accepted (R350). -/
structure WidthInv (s : State) : Prop where
  peer : s.cfg.addrOk s.ota.peer = true
  nvPeer : ∀ r, s.nv = some r → s.cfg.addrOk r.peer = true
  serverLength : s.ota.role = .server → legalLength s.cfg s.ota.totalBytes.toNat = true

/-- A disarmed timer has delay 0: `TimerDisarm()` sets both (R9), and so does reset (R70). -/
structure TimerInv (s : State) : Prop where
  disarmedDelay : s.tmrArmed = false → s.tmrDelay = 0

/-- The invariant every step keeps. -/
structure Inv (s : State) : Prop where
  cfg : s.cfg.Valid
  ring : RingInv s
  ota : OtaInv s
  flash : FlashInv s
  width : WidthInv s
  timer : TimerInv s

/-- What a run of instructions answers, each run to completion before the next (R100). -/
def runInstrs : List Instr → State → Answer
  | [], s => .next s
  | i :: is, s =>
    match exec i s with
    | .next t => runInstrs is t
    | .fault f => .fault f
    | .refused r => .refused r

/-- The effects of the results a step added, in order. -/
def newEffects (before after : State) : List Effect := (newResults before after).flatMap Result.effects

/-! The words of the command port, in the numbers of R125 and R126. -/

/-- The LEN of a word whose command counts its DIN, 0 for every other word (R121, R125). -/
def countedLength (cw : U32) : Nat :=
  if cw.toNat % 256 ∈ [0x05, 0x10, 0x11, 0x12, 0x13, 0x20] then cw.toNat / 65536 else 0

/-- The illegal encodings of R126: a reserved OP, a field marked "must be 0" that is not, A[7:1] of RB_POP, and the
capacity of RB_INIT. -/
def IllegalWord (c : Config) (cw : U32) : Prop :=
  let op := cw.toNat % 256
  let a := cw.toNat / 256 % 256
  let len := cw.toNat / 65536
  (op = 0x00 ∨ (0x08 ≤ op ∧ op ≤ 0x0F) ∨ (0x14 ≤ op ∧ op ≤ 0x1F) ∨ 0x26 ≤ op) ∨
  (op ∈ [0x01, 0x02, 0x03, 0x04, 0x05, 0x07, 0x11, 0x12, 0x21, 0x22, 0x23, 0x24, 0x25] ∧ a ≠ 0) ∨
  (op ∈ [0x02, 0x03, 0x04, 0x21, 0x22, 0x23, 0x24, 0x25] ∧ len ≠ 0) ∨
  (op = 0x06 ∧ a / 2 ≠ 0) ∨
  (op = 0x01 ∧ (len = 0 ∨ c.rbNmax < len))

/-- The ADDR an instruction reads; none where R121 has it ignored. -/
def addrOperand : Instr → Option Addr
  | .rbInit _ => none
  | .rbClear => none
  | .rbFree => none
  | .rbSize => none
  | .rbPush _ => none
  | .rbPop _ _ => none
  | .rbPeek _ => none
  | .fcEncode _ _ => none
  | .fcDecode _ => none
  | .fcCksum _ => none
  | .fcParse _ _ => none
  | .otaRxNotify src _ => some src
  | .otaRxBlockReq src _ => some src
  | .otaRxBlockResp src _ => some src
  | .otaRxAbortReq src _ => some src
  | .otaRxAbortResp src _ => some src
  | .otaRxUpgReq src _ => some src
  | .otaRxUpgResp src _ => some src
  | .otaRxStatusReq src _ => some src
  | .otaRxStatusResp src _ => some src
  | .otaRxOther _ src _ => some src
  | .otaTick => none
  | .otaTrigger peer => some peer
  | .otaAbort => none
  | .otaPoll => none
  | .otaBoot => none

/-! The ring buffer against an unbounded queue (R211), and what the command interface cannot see of it (R35). -/

/-- The ring buffer commands. -/
def isRing : Instr → Bool
  | .rbInit _ => true
  | .rbClear => true
  | .rbFree => true
  | .rbSize => true
  | .rbPush _ => true
  | .rbPop _ _ => true
  | .rbPeek _ => true
  | .fcEncode _ _ => false
  | .fcDecode _ => false
  | .fcCksum _ => false
  | .fcParse _ _ => false
  | .otaRxNotify _ _ => false
  | .otaRxBlockReq _ _ => false
  | .otaRxBlockResp _ _ => false
  | .otaRxAbortReq _ _ => false
  | .otaRxAbortResp _ _ => false
  | .otaRxUpgReq _ _ => false
  | .otaRxUpgResp _ _ => false
  | .otaRxStatusReq _ _ => false
  | .otaRxStatusResp _ _ => false
  | .otaRxOther _ _ _ => false
  | .otaTick => false
  | .otaTrigger _ => false
  | .otaAbort => false
  | .otaPoll => false
  | .otaBoot => false

/-- The OTA commands of R310's guard: all but OTA_BOOT. -/
def needsBoot : Instr → Bool
  | .rbInit _ => false
  | .rbClear => false
  | .rbFree => false
  | .rbSize => false
  | .rbPush _ => false
  | .rbPop _ _ => false
  | .rbPeek _ => false
  | .fcEncode _ _ => false
  | .fcDecode _ => false
  | .fcCksum _ => false
  | .fcParse _ _ => false
  | .otaRxNotify _ _ => true
  | .otaRxBlockReq _ _ => true
  | .otaRxBlockResp _ _ => true
  | .otaRxAbortReq _ _ => true
  | .otaRxAbortResp _ _ => true
  | .otaRxUpgReq _ _ => true
  | .otaRxUpgResp _ _ => true
  | .otaRxStatusReq _ _ => true
  | .otaRxStatusResp _ _ => true
  | .otaRxOther _ _ _ => true
  | .otaTick => true
  | .otaTrigger _ => true
  | .otaAbort => true
  | .otaPoll => true
  | .otaBoot => false

/-- The reference queue of R211 with the capacity it stands for. -/
structure RefQueue where
  cap : Nat
  bytes : Bytes
deriving DecidableEq, Repr

/-- What R211 has each ring buffer command do to the reference queue, and the result it returns. -/
def RefQueue.step (q : RefQueue) : Instr → RefQueue × Result
  | .rbInit cap => ({ cap := cap.toNat, bytes := [] }, { st := .ok })
  | .rbClear => ({ q with bytes := [] }, { st := .ok })
  | .rbFree => (q, { st := .ok, res := BitVec.ofNat 32 (q.cap - 1 - q.bytes.length) })
  | .rbSize => (q, { st := .ok, res := BitVec.ofNat 32 q.bytes.length })
  | .rbPush data =>
    if data.length ≤ q.cap - 1 - q.bytes.length then ({ q with bytes := q.bytes ++ data }, { st := .ok })
    else (q, { st := .dropped })
  | .rbPop n copy =>
    if n.toNat ≤ q.bytes.length then
      ({ q with bytes := q.bytes.drop n.toNat }, { st := .ok, dout := if copy then q.bytes.take n.toNat else [] })
    else (q, { st := .dropped })
  | .rbPeek n =>
    if n.toNat ≤ q.bytes.length then (q, { st := .ok, dout := q.bytes.take n.toNat }) else (q, { st := .dropped })
  | .fcEncode _ _ => (q, { st := .ok })
  | .fcDecode _ => (q, { st := .ok })
  | .fcCksum _ => (q, { st := .ok })
  | .fcParse _ _ => (q, { st := .ok })
  | .otaRxNotify _ _ => (q, { st := .ok })
  | .otaRxBlockReq _ _ => (q, { st := .ok })
  | .otaRxBlockResp _ _ => (q, { st := .ok })
  | .otaRxAbortReq _ _ => (q, { st := .ok })
  | .otaRxAbortResp _ _ => (q, { st := .ok })
  | .otaRxUpgReq _ _ => (q, { st := .ok })
  | .otaRxUpgResp _ _ => (q, { st := .ok })
  | .otaRxStatusReq _ _ => (q, { st := .ok })
  | .otaRxStatusResp _ _ => (q, { st := .ok })
  | .otaRxOther _ _ _ => (q, { st := .ok })
  | .otaTick => (q, { st := .ok })
  | .otaTrigger _ => (q, { st := .ok })
  | .otaAbort => (q, { st := .ok })
  | .otaPoll => (q, { st := .ok })
  | .otaBoot => (q, { st := .ok })

/-- The queue an initialised ring buffer stands for. -/
def State.refQueue (s : State) : RefQueue := { cap := s.rbCap.toNat, bytes := s.storedBytes }

/-- The bytes a push hands over. -/
def pushedBytes : Instr → Bytes
  | .rbInit _ => []
  | .rbClear => []
  | .rbFree => []
  | .rbSize => []
  | .rbPush data => data
  | .rbPop _ _ => []
  | .rbPeek _ => []
  | .fcEncode _ _ => []
  | .fcDecode _ => []
  | .fcCksum _ => []
  | .fcParse _ _ => []
  | .otaRxNotify _ _ => []
  | .otaRxBlockReq _ _ => []
  | .otaRxBlockResp _ _ => []
  | .otaRxAbortReq _ _ => []
  | .otaRxAbortResp _ _ => []
  | .otaRxUpgReq _ _ => []
  | .otaRxUpgResp _ _ => []
  | .otaRxStatusReq _ _ => []
  | .otaRxStatusResp _ _ => []
  | .otaRxOther _ _ _ => []
  | .otaTick => []
  | .otaTrigger _ => []
  | .otaAbort => []
  | .otaPoll => []
  | .otaBoot => []

/-- Two states that differ only in the ring buffer's indices, storage and, before RB_INIT, capacity, and hold the
same bytes: R35 and R61 say no command tells them apart. -/
structure RingEquiv (s t : State) : Prop where
  left : RingInv s
  right : RingInv t
  rest : t = { s with rbCap := t.rbCap, rbBegin := t.rbBegin, rbEnd := t.rbEnd, rbStorage := t.rbStorage }
  cap : s.rbInited = true → s.rbCap = t.rbCap
  stored : s.rbInited = true → s.storedBytes = t.storedBytes

/-! Messages. -/

/-- A message whose payload R254 accepts: a BlockResponse's `len` counts its bytes, an in-progress flag is 0 or 1. -/
def messageOk : Msg → Prop
  | .notify _ _ => True
  | .blockRequest _ => True
  | .blockResponse _ n b _ => b.length = n.toNat
  | .abortRequest => True
  | .abortResponse => True
  | .upgradeRequest => True
  | .upgradeResponse => True
  | .statusRequest => True
  | .statusResponse f _ _ => f.toNat ≤ 1

/-! The flash as a function from addresses to bytes. -/

/-- The bytes a reading of the flash gives at addr .. addr+n-1. -/
def bytesAt (read : Nat → Byte) (addr n : Nat) : Bytes := (List.range' addr n).map read

/-- The flash with a byte string stored from `addr` on. -/
def storedAt (read : Nat → Byte) (addr : Nat) (v : Bytes) (a : Nat) : Byte :=
  if addr ≤ a ∧ a < addr + v.length then v.getD (a - addr) 0 else read a

/-- An address of a sector that holds part of an image of `total` bytes (R84). -/
def InEraseSet (c : Config) (total a : Nat) : Prop :=
  c.imageBase / c.sectorSize ≤ a / c.sectorSize ∧ a / c.sectorSize ≤ (c.imageBase + total - 1) / c.sectorSize

/-- The header at the image base is good, and records the length `total` (R303). -/
def HeaderGood (c : Config) (read : Nat → Byte) (total : U32) : Prop :=
  bytesAt read (c.imageBase + c.hdrMagicOff) c.hdrMagicLen = c.imageMagic ∧
    rd32 (bytesAt read (c.imageBase + c.hdrLenOff) 4) 0 = total

/-- Both checks of `Verify()` pass on what the flash reads (R405). -/
def Verifies (c : Config) (read : Nat → Byte) (total crc : U32) : Prop :=
  HeaderGood c read total ∧ crc32 c (bytesAt read c.imageBase total.toNat) = crc

/-! What a restart resumes from (R413). -/

/-- While a download is in progress the NV store holds a record of the same transfer that OTA_BOOT restores, and its
`current_block` lies at or above the last multiple of CHECKPOINT_INTERVAL (R404, R413). -/
def CheckpointInv (s : State) : Prop :=
  s.ota.role = .client → s.ota.downloading ≠ .idle →
    ∃ r, s.nv = some r ∧ restorable s.cfg r = true ∧ r.totalBytes = s.ota.totalBytes ∧ r.totalBlocks = s.ota.totalBlocks ∧
      r.currentBlock.toNat ≤ s.ota.currentBlock.toNat ∧
      s.ota.currentBlock.toNat - s.ota.currentBlock.toNat % s.cfg.checkpointInterval ≤ r.currentBlock.toNat

/-! RX_STEP with other agents' commands between its own (R572). -/

/-- A result is what FC_DECODE answers to a buffer, field by field (R252). -/
def IsDecodeOf (c : Config) (d : Result) (b : Bytes) : Prop :=
  d.st = (decodeFrame c b).st ∧ d.consumed.toNat = (decodeFrame c b).consumed ∧ d.frameType = (decodeFrame c b).type ∧
    d.dout = (decodeFrame c b).payload

/-- What the Consumer holds agrees with the ring buffer: the count it was given is still there, the bytes it peeked are
still the oldest stored, and what it decoded was decoded from them. -/
def RxCoherent (p : RxPhase) (s : State) : Prop :=
  match p with
  | .size _ => True
  | .peek _ n => n.toNat ≤ s.dataSize
  | .decode _ b => b <+: s.storedBytes
  | .discard _ d => ∃ b, b <+: s.storedBytes ∧ IsDecodeOf s.cfg d b
  | .handOver _ d => d.st = .ok ∧ ∃ b, IsDecodeOf s.cfg d b
  | .done => True

/-! Two nodes. -/

/-- A client in the middle of a download and the server it downloads from (R411): distinct addresses, the client's peer
the server, one image length, and no command waiting at either. -/
structure PullPair (client server : Node) : Prop where
  clientInv : Inv client.st
  serverInv : Inv server.st
  sameCfg : server.st.cfg = client.st.cfg
  clientBooted : client.st.otaBooted = true
  serverBooted : server.st.otaBooted = true
  clientRole : client.st.ota.role = .client
  serverRole : server.st.ota.role = .server
  downloading : client.st.ota.downloading = .downloading
  sameImage : server.st.ota.totalBytes = client.st.ota.totalBytes
  peer : client.st.ota.peer = server.addr
  distinct : client.addr ≠ server.addr
  clientAddr : client.st.cfg.addrOk client.addr = true
  clientIdlePort : client.st.pending = []
  serverIdlePort : server.st.pending = []

/-! The effects as an account of the stores (R9). -/

/-- What an effect does to the flash and the NV store. -/
def replayEffect (s : State) : Effect → State
  | .flashWrite addr v => s.flashWithBytes addr v
  | .flashErase sector => s.flashWithErased sector
  | .nvSave r => { s with nv := some r }
  | .send _ _ => s
  | .report _ => s
  | .timerArm _ => s
  | .timerDisarm => s
  | .invalidateRunningHeader => s
  | .softwareReset => s

end Sys2Proof.Machine
end

