-- ==== Sys2Proof/Certificates/Slice0/Obligations.lean ====
section
/-! DEFINITION. The statements for the provers, one definition each; OBLIGATIONS.json says in words what each states
and which rules it formalises. `s.record r` is `s` with the result `r` appended at the port and nothing else changed,
so an equation `exec i s = .next ({ s with … }.record r)` is the instruction's whole effect: its result, its writes and,
by leaving every other field as it was, its frame. -/

open Sys2Proof Sys2Proof.Machine

/-! ### The command word -/

/-- R127 with R125, R126: the decoder gives back every well-formed instruction that the encoder puts into a word. -/
def Obligations.DecodeOfEncodeIsTheInstruction : Prop :=
  ∀ (c : Config) (i : Instr), c.Valid → i.wellFormed c = true → decode c (encode c i) = .ok i

/-- The other direction: a command the decoder accepts is the encoding of the instruction it gives, ADDR apart where
R121 has it ignored, and the instruction is well-formed. -/
def Obligations.EncodeOfDecodeIsTheCommand : Prop :=
  ∀ (c : Config) (cmd : Command) (i : Instr), decode c cmd = .ok i →
    i.wellFormed c = true ∧ (encode c i).cw = cmd.cw ∧ (encode c i).din = cmd.din ∧
      ∀ a, addrOperand i = some a → a = cmd.addr

/-- R126: the illegal encodings, and no others, answer the status ILLEGAL with no state change and no effect. -/
def Obligations.IllegalEncodingsAnswerIllegal : Prop :=
  ∀ (s : State) (cmd : Command) (rest : List Input), s.cfg.Valid → s.pending = .command cmd :: rest →
    s.cfg.addrOk cmd.addr = true → cmd.din.length = countedLength cmd.cw →
      (IllegalWord s.cfg cmd.cw → step s = .next (({ s with pending := rest } : State).record { st := .illegal })) ∧
      (¬ IllegalWord s.cfg cmd.cw → ∃ i, decode s.cfg cmd = .ok i)

/-- What the port does with what is no command, and with nothing (log entries 2, 3 and 5): a DIN of the wrong length and
an ADDR wider than ADDR_BITS are refused and yield no status (R8, R121, R501), an empty port waits, and a parameter set
that breaks R6 is refused. -/
def Obligations.PortWaitsAndRefuses : Prop :=
  ∀ s : State, (¬ s.cfg.Valid → step s = .refused .badConfig) ∧
    (s.cfg.Valid →
      (s.pending = [] → step s = .next s) ∧
      ∀ (cmd : Command) (rest : List Input), s.pending = .command cmd :: rest →
        (s.cfg.addrOk cmd.addr = false → step s = .refused (.notACommand .addrWidth)) ∧
        (s.cfg.addrOk cmd.addr = true → cmd.din.length ≠ countedLength cmd.cw →
          step s = .refused (.notACommand .dinLength)))

/-- Words written out from R125 decode to the commands they stand for, one of each family at least. -/
def Obligations.SampleWordsDecode : Prop :=
  decode Config.default { cw := 0x00080001, addr := 0, din := [] } = .ok (.rbInit 8) ∧
  decode Config.default { cw := 0x00020106, addr := 0, din := [] } = .ok (.rbPop 2 true) ∧
  decode Config.default { cw := 0x00045110, addr := 0, din := [4, 0, 0, 0] } = .ok (.fcEncode 0x51 [4, 0, 0, 0]) ∧
  decode Config.default { cw := 0x00045120, addr := 2, din := [4, 0, 0, 0] } = .ok (.otaRxBlockReq 2 [4, 0, 0, 0]) ∧
  decode Config.default { cw := 0x00000022, addr := 2, din := [] } = .ok (.otaTrigger 2) ∧
  decode Config.default { cw := 0x00000025, addr := 0, din := [] } = .ok .otaBoot

/-- A step takes the next input and runs the instruction it decodes to, as one command (R100, R127). That inputs
wait in a queue is the model's choice (log entry 5). -/
def Obligations.StepRunsTheDecodedInstruction : Prop :=
  ∀ (s : State) (cmd : Command) (rest : List Input) (i : Instr), s.cfg.Valid → s.pending = .command cmd :: rest →
    decode s.cfg cmd = .ok i → step s = exec i { s with pending := rest }

/-! ### Reset -/

/-- R70 and R550: what the spec states for the state after reset. -/
def Obligations.ResetHoldsTheStatedValues : Prop :=
  State.reset.rbInited = false ∧ State.reset.ota.role = .client ∧ State.reset.ota.downloading = .idle ∧
  State.reset.ota.totalBytes = 0 ∧ State.reset.ota.totalBlocks = 0 ∧ State.reset.ota.currentBlock = 0 ∧
  State.reset.ota.crc = 0 ∧ State.reset.ota.peer = 0 ∧ State.reset.ota.requestPeriodMs = 0 ∧
  State.reset.otaBooted = false ∧ State.reset.tmrArmed = false ∧ State.reset.tmrDelay = 0 ∧
  State.reset.nv = State.reset.cfg.nvInit

/-- R550: the Platform's reset sets every register field to its value of R70, and the flash and the NV store keep
their contents. That a reset stands in the queue of inputs is the model's choice (log entry 5). -/
def Obligations.ResetKeepsTheStores : Prop :=
  ∀ (s : State) (rest : List Input), s.cfg.Valid → s.pending = .reset :: rest →
    ∃ t, step s = .next t ∧ t.rbInited = false ∧ t.ota = OtaRecord.reset ∧ t.otaBooted = false ∧ t.tmrArmed = false ∧
      t.tmrDelay = 0 ∧ t.nv = s.nv ∧ t.cfg = s.cfg ∧ t.pending = rest ∧ t.outputs = s.outputs ∧
      (∀ a, t.flashByte a = s.flashByte a)

/-- The invariants of Safety.lean hold right after reset, and no command comes before the boot sequence (R551; log
entry 26). -/
def Obligations.ResetSatisfiesInv : Prop := Inv State.reset ∧ CheckpointInv State.reset ∧ State.reset.BootsFirst

/-! ### The whole machine -/

/-- Every step keeps the invariant: the ring buffer's ranges, I1-I6 of R47-R52, the flash's canonical form. -/
def Obligations.StepKeepsInv : Prop :=
  ∀ s t : State, Inv s → step s = .next t → Inv t

/-- R85: under the invariant no instruction leaves the flash, so each one completes. -/
def Obligations.InvRulesOutFaults : Prop :=
  ∀ (s : State) (i : Instr), Inv s → i.wellFormed s.cfg = true → ∃ t, exec i s = .next t

/-- R85: every flash address an instruction writes or erases for lies where the rules say: a write in the image area, an
erase on a sector of it. -/
def Obligations.FlashEffectsStayInTheImageArea : Prop :=
  ∀ (s t : State) (i : Instr), Inv s → i.wellFormed s.cfg = true → exec i s = .next t →
    (∀ addr v, Effect.flashWrite addr v ∈ newEffects s t →
      s.cfg.imageBase ≤ addr ∧ addr + v.length ≤ s.cfg.imageBase + s.cfg.maxImageSize) ∧
    (∀ k, Effect.flashErase k ∈ newEffects s t →
      s.cfg.imageBase ≤ k * s.cfg.sectorSize ∧ k * s.cfg.sectorSize < s.cfg.imageBase + s.cfg.maxImageSize)

/-- R5: no step changes a parameter, and a step appends at most one result to what the port holds. -/
def Obligations.StepKeepsParameters : Prop :=
  ∀ s t : State, step s = .next t → t.cfg = s.cfg ∧ ∃ rs, t.outputs = s.outputs ++ rs ∧ rs.length ≤ 1

/-- R503: what earlier commands returned changes nothing afterwards. -/
def Obligations.ResultsAreOutputsNotState : Prop :=
  ∀ (s t : State) (i : Instr), exec i s = .next t →
    ∃ r, t.outputs = s.outputs ++ [r] ∧
      ∀ o, exec i { s with outputs := o } = .next { t with outputs := o ++ [r] }

/-- R9: the effects are a full account of the flash and the NV store: what they hold after an instruction is what its
effects, in their order, make of what they held before. -/
def Obligations.EffectsAccountForTheStores : Prop :=
  ∀ (s t : State) (i : Instr), s.cfg.Valid → i.wellFormed s.cfg = true → exec i s = .next t →
    t.flash = ((newEffects s t).foldl replayEffect s).flash ∧ t.nv = ((newEffects s t).foldl replayEffect s).nv

/-- R502: a failing status changes no state and has no effect, but for the one Report of a failed OTA_TRIGGER. OTA_TICK is
left out: R401 has it disarm the timer before it answers IGNORED (log entry 10). -/
def Obligations.FailingStatusRecordsNothing : Prop :=
  ∀ (s t : State) (i : Instr) (r : Result), s.cfg.Valid → i.wellFormed s.cfg = true → i ≠ .otaTick →
    exec i s = .next t → t.outputs = s.outputs ++ [r] → r.st ≠ .ok →
      t = s.record r ∧
      (r.effects = [] ∨ ∃ peer, i = .otaTrigger peer ∧
        (r.effects = [.report .busy] ∨ r.effects = [.report .noImage] ∨ ∃ len, r.effects = [.report (.badLength len)]))

/-- R46: who writes the role, the boot bit, the timer and the ring buffer; and who drops queued inputs, which is the
model's choice (log entries 5 and 12). -/
def Obligations.OnlyTheNamedCommandsWrite : Prop :=
  ∀ (s t : State) (i : Instr), Inv s → i.wellFormed s.cfg = true → exec i s = .next t →
    (t.ota.role ≠ s.ota.role → ∃ peer, i = .otaTrigger peer) ∧
    (t.otaBooted ≠ s.otaBooted → i = .otaBoot ∨ Effect.softwareReset ∈ newEffects s t) ∧
    ((t.tmrArmed ≠ s.tmrArmed ∨ t.tmrDelay ≠ s.tmrDelay) →
      (∃ d, Effect.timerArm d ∈ newEffects s t) ∨ Effect.timerDisarm ∈ newEffects s t) ∧
    ((t.rbInited ≠ s.rbInited ∨ t.rbCap ≠ s.rbCap ∨ t.rbBegin ≠ s.rbBegin ∨ t.rbEnd ≠ s.rbEnd ∨
        t.rbStorage ≠ s.rbStorage) → isRing i = true ∨ Effect.softwareReset ∈ newEffects s t) ∧
    (t.pending ≠ s.pending → Effect.softwareReset ∈ newEffects s t)

/-- R522: every Send carries one complete frame, which FC_DECODE takes whole. -/
def Obligations.EverySendIsOneFrame : Prop :=
  ∀ (s t : State) (i : Instr) (dest : Addr) (b : Bytes), Inv s → i.wellFormed s.cfg = true → exec i s = .next t →
    Effect.send dest b ∈ newEffects s t →
      (decodeFrame s.cfg b).st = .ok ∧ (decodeFrame s.cfg b).consumed = b.length

/-! ### Ring buffer -/

/-- R201: RB_INIT, and the capacities outside 1 .. RB_NMAX. -/
def Obligations.RbInitSetsCapacity : Prop :=
  ∀ (s : State) (cap : U16),
    (1 ≤ cap.toNat ∧ cap.toNat ≤ s.cfg.rbNmax → exec (.rbInit cap) s =
      .next (({ s with rbCap := cap, rbBegin := 0, rbEnd := 0, rbInited := true } : State).record { st := .ok })) ∧
    (¬ (1 ≤ cap.toNat ∧ cap.toNat ≤ s.cfg.rbNmax) → exec (.rbInit cap) s = .next (s.record { st := .illegal }))

/-- R202, R203, R204: RB_CLEAR empties the buffer, RB_FREE and RB_SIZE answer the counts and write nothing. -/
def Obligations.RbClearFreeSizeResults : Prop :=
  ∀ s : State, s.rbInited = true →
    exec .rbClear s = .next (({ s with rbBegin := 0, rbEnd := 0 } : State).record { st := .ok }) ∧
    exec .rbFree s = .next (s.record
      { st := .ok
        res := BitVec.ofNat 32
          (s.rbCap.toNat - 1 - (((s.rbEnd : Int) - (s.rbBegin : Int)) % (s.rbCap.toNat : Int)).toNat) }) ∧
    exec .rbSize s = .next (s.record
      { st := .ok, res := BitVec.ofNat 32 (((s.rbEnd : Int) - (s.rbBegin : Int)) % (s.rbCap.toNat : Int)).toNat })

/-- R31, R33, R34: the stored bytes are data_size many, data_size + free_space = rb_cap - 1, empty iff begin = end, full
iff the slot after the end is the begin. -/
def Obligations.RingCountsConserve : Prop :=
  ∀ s : State, RingInv s → s.rbInited = true →
    s.storedBytes.length = s.dataSize ∧ s.dataSize ≤ s.rbCap.toNat - 1 ∧
    s.dataSize + s.freeSpace = s.rbCap.toNat - 1 ∧
    (s.storedBytes = [] ↔ s.rbBegin = s.rbEnd) ∧
    (s.freeSpace = 0 ↔ (s.rbEnd + 1) % s.rbCap.toNat = s.rbBegin)

/-- R205 and R81: a push that fits stores its bytes slot by slot from the end, reduced mod rb_cap; every other slot and
every other field stays as it was. One that does not fit is DROPPED and writes nothing. -/
def Obligations.RbPushStoresAtTheEnd : Prop :=
  ∀ (s : State) (data : Bytes), RingInv s → s.rbInited = true →
    (data.length ≤ s.freeSpace →
      ∃ t, exec (.rbPush data) s = .next t ∧
        t.rbEnd = (s.rbEnd + data.length) % s.rbCap.toNat ∧
        (∀ i, i < data.length → t.rbStorage.getD ((s.rbEnd + i) % s.rbCap.toNat) 0 = data.getD i 0) ∧
        (∀ k, (∀ i, i < data.length → k ≠ (s.rbEnd + i) % s.rbCap.toNat) →
          t.rbStorage.getD k 0 = s.rbStorage.getD k 0) ∧
        t = ({ s with rbStorage := t.rbStorage, rbEnd := t.rbEnd } : State).record { st := .ok }) ∧
    (s.freeSpace < data.length → exec (.rbPush data) s = .next (s.record { st := .dropped }))

/-- R206 and R207: a pop or peek of at most data_size bytes answers the oldest bytes, and the pop moves the begin past
them; one of more bytes is DROPPED and changes nothing. -/
def Obligations.RbPopPeekReadTheFront : Prop :=
  ∀ (s : State) (n : U16) (copy : Bool), RingInv s → s.rbInited = true →
    (n.toNat ≤ s.dataSize →
      exec (.rbPop n copy) s =
        .next (({ s with rbBegin := (s.rbBegin + n.toNat) % s.rbCap.toNat } : State).record
          { st := .ok, dout := if copy then s.storedBytes.take n.toNat else [] }) ∧
      exec (.rbPeek n) s = .next (s.record { st := .ok, dout := s.storedBytes.take n.toNat })) ∧
    (s.dataSize < n.toNat → exec (.rbPop n copy) s = .next (s.record { st := .dropped }) ∧
      exec (.rbPeek n) s = .next (s.record { st := .dropped }))

/-- R211: every ring-buffer command is a step of the unbounded reference queue that the stored bytes stand for, with the
same result. -/
def Obligations.RingRefinesReferenceQueue : Prop :=
  ∀ (s : State) (i : Instr), RingInv s → s.rbInited = true → isRing i = true → i.wellFormed s.cfg = true →
    ∃ t, exec i s = .next t ∧ RingInv t ∧ t.rbInited = true ∧ t.cfg = s.cfg ∧
      t.refQueue = (s.refQueue.step i).1 ∧ t.outputs = s.outputs ++ [(s.refQueue.step i).2]

/-- R101: over any run of pushes and pops, copying or not, none of which is dropped, the bytes removed, command by command,
and then the bytes still stored, are the bytes stored at the start and then the bytes pushed. A push removes none, a pop
removes as many as it names, and it answers them where COPY is 1; so in a run of copying pops the bytes answered are the
bytes removed. -/
def Obligations.PoppedBytesFollowPushedBytes : Prop :=
  ∀ (is : List Instr) (s t : State), RingInv s → s.rbInited = true →
    (∀ i ∈ is, (∃ data, i = .rbPush data) ∨ ∃ n copy, i = .rbPop n copy) → runInstrs is s = .next t →
      (∀ r ∈ newResults s t, r.st = .ok) →
        (∃ removed : List Bytes, removed.length = is.length ∧
          removed.flatten ++ t.storedBytes = s.storedBytes ++ is.flatMap pushedBytes ∧
          ∀ (k : Nat) (i : Instr), is[k]? = some i → ∃ (b : Bytes) (r : Result), removed[k]? = some b ∧
            (newResults s t)[k]? = some r ∧
            (∀ data, i = .rbPush data → b = [] ∧ r.dout = []) ∧
            ∀ n copy, i = .rbPop n copy → b.length = n.toNat ∧ r.dout = if copy then b else []) ∧
        ((∀ n, Instr.rbPop n false ∉ is) →
          (newResults s t).flatMap Result.dout ++ t.storedBytes = s.storedBytes ++ is.flatMap pushedBytes)

/-- R35 and R61: two states with the same capacity and the same stored bytes, alike but for the indices and the storage
(and, before RB_INIT, the capacity), answer every instruction alike and stay so. -/
def Obligations.RingIndicesAreUnobservable : Prop :=
  ∀ (s t s' : State) (i : Instr), RingEquiv s t → i.wellFormed s.cfg = true → exec i s = .next s' →
    ∃ t', exec i t = .next t' ∧ RingEquiv s' t'

/-! ### Frame codec -/

/-- R251 with R130-R132: the frame FC_ENCODE gives, byte for byte, and its length. -/
def Obligations.FcEncodeLaysOutTheFrame : Prop :=
  ∀ (s : State) (t : Byte) (p : Bytes), s.cfg.Valid →
    (p.length ≤ s.cfg.mtu → exec (.fcEncode t p) s = .next (s.record
      { st := .ok
        res := BitVec.ofNat 32 (p.length + 5)
        dout := [s.cfg.startMarker, t, BitVec.ofNat 8 p.length, BitVec.ofNat 8 (p.length / 256)] ++ p ++
          [BitVec.ofNat 8 (t.toNat + p.length % 256 + p.length / 256 + (p.map BitVec.toNat).sum)] })) ∧
    (s.cfg.mtu < p.length → exec (.fcEncode t p) s = .next (s.record { st := .tooLong }))

/-- R252, line by line: no marker; and from the first marker, at index p: a short header, a length above MTU, a short
frame, a matching checksum, another checksum. -/
def Obligations.FcDecodeFollowsItsLines : Prop :=
  ∀ (s : State) (b : Bytes),
    ((∀ x ∈ b, x ≠ s.cfg.startMarker) → exec (.fcDecode b) s =
      .next (s.record { st := .incomplete, res := BitVec.ofNat 32 b.length })) ∧
    ∀ (noise rest : Bytes) (t lo hi : Byte), (∀ x ∈ noise, x ≠ s.cfg.startMarker) →
      (b = noise ++ s.cfg.startMarker :: rest → rest.length < 3 → exec (.fcDecode b) s =
        .next (s.record { st := .incomplete, res := BitVec.ofNat 32 noise.length })) ∧
      (b = noise ++ s.cfg.startMarker :: t :: lo :: hi :: rest →
        (s.cfg.mtu < lo.toNat + 256 * hi.toNat → exec (.fcDecode b) s =
          .next (s.record { st := .invalid, res := BitVec.ofNat 32 (noise.length + 1) })) ∧
        (lo.toNat + 256 * hi.toNat ≤ s.cfg.mtu → rest.length < lo.toNat + 256 * hi.toNat + 1 → exec (.fcDecode b) s =
          .next (s.record { st := .incomplete, res := BitVec.ofNat 32 noise.length })) ∧
        ∀ (p after : Bytes) (k : Byte), rest = p ++ k :: after → p.length = lo.toNat + 256 * hi.toNat →
          p.length ≤ s.cfg.mtu →
          (k = BitVec.ofNat 8 (t.toNat + lo.toNat + hi.toNat + (p.map BitVec.toNat).sum) → exec (.fcDecode b) s =
            .next (s.record
              { st := .ok, res := frameRes (noise.length + 5 + p.length) t, dout := p })) ∧
          (k ≠ BitVec.ofNat 8 (t.toNat + lo.toNat + hi.toNat + (p.map BitVec.toNat).sum) → exec (.fcDecode b) s =
            .next (s.record { st := .cksumBad, res := frameRes (noise.length + 5 + p.length) t })))

/-- R260: FC_DECODE of an encoded frame gives its type and payload back and consumes it whole. -/
def Obligations.DecodeOfEncodedFrame : Prop :=
  ∀ (s : State) (t : Byte) (p after : Bytes), s.cfg.Valid → p.length ≤ s.cfg.mtu →
    exec (.fcDecode (encodeFrame s.cfg t p ++ after)) s =
      .next (s.record { st := .ok, res := frameRes (p.length + 5) t, dout := p })

/-- R261: flipping one bit of the type byte, of a payload byte or of the checksum byte of a frame presented alone gives
CKSUM_BAD, and the whole frame is consumed. -/
def Obligations.SingleBitFlipsAreCaught : Prop :=
  ∀ (s : State) (t : Byte) (p : Bytes) (j k : Nat), s.cfg.Valid → p.length ≤ s.cfg.mtu → k < 8 →
    (j = 1 ∨ (4 ≤ j ∧ j ≤ p.length + 4)) →
      let f := encodeFrame s.cfg t p
      let b := f.set j (byteAt f j ^^^ BitVec.twoPow 8 k)
      exec (.fcDecode b) s = .next (s.record { st := .cksumBad, res := frameRes (p.length + 5) (byteAt b 1) })

/-- R262 and R263: every outcome but INCOMPLETE consumes at least one byte; INCOMPLETE consumes exactly the noise before
the first marker, decoding the rest again gives INCOMPLETE with nothing consumed, and whatever bytes arrive after the
rest, its marker is the first one found, at index 0. -/
def Obligations.DecodeMakesProgress : Prop :=
  ∀ (s : State) (b : Bytes),
    let d := decodeFrame s.cfg b
    exec (.fcDecode b) s = .next (s.record { st := d.st, res := frameRes d.consumed d.type, dout := d.payload }) ∧
    d.consumed ≤ b.length ∧
    (d.st ≠ .incomplete → 1 ≤ d.consumed) ∧
    (d.st = .incomplete →
      (∀ i, i < d.consumed → byteAt b i ≠ s.cfg.startMarker) ∧
      (d.consumed = b.length ∨ byteAt b d.consumed = s.cfg.startMarker) ∧
      exec (.fcDecode (b.drop d.consumed)) s = .next (s.record { st := .incomplete }) ∧
      ∀ e : Bytes, d.consumed < b.length →
        byteAt (b.drop d.consumed ++ e) 0 = s.cfg.startMarker ∧
        decodeFrame s.cfg (b.drop d.consumed ++ e) = decodeAt s.cfg (b.drop d.consumed ++ e) 0)

/-- R253 with R250: FC_CKSUM answers the sum of the bytes modulo 256. -/
def Obligations.FcCksumSumsTheBytes : Prop :=
  ∀ (s : State) (data : Bytes), exec (.fcCksum data) s =
    .next (s.record { st := .ok, res := BitVec.ofNat 32 ((data.map BitVec.toNat).sum % 256) })

/-- R254 with R140-R149: the payload of every message is parsed back to it; a payload of another length, a BlockResponse
whose length field does not count its bytes and an in-progress flag above 1 are MALFORMED; another type is OTHER. -/
def Obligations.FcParseReadsMessages : Prop :=
  ∀ s : State, s.cfg.Valid →
    (∀ m : Msg, messageOk m → exec (.fcParse (s.cfg.tagByte m.tag) m.payload) s =
      .next (s.record { st := .ok, msg := some m })) ∧
    (∀ p : Bytes, (p.length ≠ 6 → exec (.fcParse s.cfg.tNotify p) s = .next (s.record { st := .malformed })) ∧
      (p.length ≠ 4 → exec (.fcParse s.cfg.tBlockReq p) s = .next (s.record { st := .malformed })) ∧
      (p.length < 10 ∨ p.length ≠ 10 + (rd16 p 4).toNat →
        exec (.fcParse s.cfg.tBlockResp p) s = .next (s.record { st := .malformed })) ∧
      (p ≠ [] → ∀ k ∈ [Tag.abortReq, .abortResp, .upgReq, .upgResp, .statusReq],
        exec (.fcParse (s.cfg.tagByte k) p) s = .next (s.record { st := .malformed })) ∧
      (p.length ≠ 6 ∨ 1 < (byteAt p 0).toNat →
        exec (.fcParse s.cfg.tStatusResp p) s = .next (s.record { st := .malformed })) ∧
      ∀ t, (∀ k, s.cfg.tagByte k ≠ t) → exec (.fcParse t p) s = .next (s.record { st := .other }))

/-! ### OTA sequencer: common rules -/

/-- R200 and R310: before RB_INIT every other ring-buffer command, and before OTA_BOOT every other OTA command, answers
UNINIT, and no state is read or written. -/
def Obligations.UninitialisedUnitsAnswerUninit : Prop :=
  ∀ (s : State) (i : Instr),
    (s.rbInited = false → isRing i = true → (∀ cap, i ≠ .rbInit cap) → exec i s = .next (s.record { st := .uninit })) ∧
    (s.otaBooted = false → needsBoot i = true → exec i s = .next (s.record { st := .uninit }))

/-- R306: a message meant for the other role is IGNORED with no state change and no effect. -/
def Obligations.MessagesForTheOtherRoleAreIgnored : Prop :=
  ∀ (s : State) (src : Addr) (m : Msg), s.cfg.Valid → s.otaBooted = true → messageOk m →
    ((s.ota.role = .server → m.tag ∈ [Tag.notify, .blockResp, .upgResp, .statusReq]) ∧
      (s.ota.role = .client → m.tag ∈ [Tag.blockReq, .abortResp, .upgReq, .statusResp])) →
    exec (rxInstr s.cfg (s.cfg.tagByte m.tag) src m.payload) s = .next (s.record { st := .ignored })

/-- R307: a payload FC_PARSE calls MALFORMED, or a type that is no OTA tag, is answered so and changes no state. -/
def Obligations.MalformedAndOtherFramesChangeNothing : Prop :=
  ∀ (s : State) (src : Addr) (t : Byte) (p : Bytes), s.cfg.Valid → s.otaBooted = true →
    ((∀ k, s.cfg.tagByte k ≠ t) → exec (.otaRxOther t src p) s = .next (s.record { st := .other })) ∧
    (exec (.fcParse t p) s = .next (s.record { st := .malformed }) →
      exec (rxInstr s.cfg t src p) s = .next (s.record { st := .malformed }))

/-- R320: OTA_BOOT restores a consistent Client record of a download in progress, and only that; a second is IGNORED. -/
def Obligations.OtaBootRestoresADownload : Prop :=
  ∀ s : State,
    (s.otaBooted = true → exec .otaBoot s = .next (s.record { st := .ignored })) ∧
    (s.otaBooted = false →
      (∀ r, s.nv = some r → r.role = .client → r.downloading ≠ .idle → s.cfg.headerMin ≤ r.totalBytes.toNat →
        r.totalBytes.toNat ≤ s.cfg.maxImageSize → r.totalBlocks.toNat = blocks s.cfg r.totalBytes.toNat →
        r.currentBlock.toNat ≤ r.totalBlocks.toNat →
        (r.downloading ≠ .upgradeRequesting ∨ r.currentBlock = r.totalBlocks) →
        exec .otaBoot s = .next (({ s with otaBooted := true, ota := r, tmrArmed := true, tmrDelay := 0 } : State).record
          { st := .ok, effects := [.timerArm 0, .report (.resumed r.currentBlock r.totalBlocks)] })) ∧
      ((∀ r, s.nv = some r → ¬ (r.role = .client ∧ r.downloading ≠ .idle ∧ s.cfg.headerMin ≤ r.totalBytes.toNat ∧
          r.totalBytes.toNat ≤ s.cfg.maxImageSize ∧ r.totalBlocks.toNat = blocks s.cfg r.totalBytes.toNat ∧
          r.currentBlock.toNat ≤ r.totalBlocks.toNat ∧
          (r.downloading ≠ .upgradeRequesting ∨ r.currentBlock = r.totalBlocks))) →
        exec .otaBoot s = .next (({ s with otaBooted := true } : State).record { st := .ok })))

/-! ### OTA sequencer: server half -/

/-- R350 and R501: OTA_TRIGGER's checks in their order, BUSY, NO_IMAGE, BAD_LEN, each with its one report and no state
change; past them the node serves: the metadata, the CRC of the whole image, the Notify and the report. -/
def Obligations.OtaTriggerServesOrReports : Prop :=
  ∀ (s : State) (peer : Addr), s.cfg.Valid → s.otaBooted = true →
    let busy := s.ota.role = .client ∧ s.ota.downloading ≠ .idle
    let magic := bytesAt s.flashByte (s.cfg.imageBase + s.cfg.hdrMagicOff) s.cfg.hdrMagicLen
    let len := rd32 (bytesAt s.flashByte (s.cfg.imageBase + s.cfg.hdrLenOff) 4) 0
    let nblocks : U32 := BitVec.ofNat 32 (blocks s.cfg len.toNat)
    let crc := crc32 s.cfg (bytesAt s.flashByte s.cfg.imageBase len.toNat)
    (busy → exec (.otaTrigger peer) s = .next (s.record { st := .busy, effects := [.report .busy] })) ∧
    (¬ busy → magic ≠ s.cfg.imageMagic →
      exec (.otaTrigger peer) s = .next (s.record { st := .noImage, effects := [.report .noImage] })) ∧
    (¬ busy → magic = s.cfg.imageMagic → (s.cfg.maxImageSize < len.toNat ∨ len.toNat < s.cfg.headerMin) →
      exec (.otaTrigger peer) s = .next (s.record { st := .badLen, effects := [.report (.badLength len)] })) ∧
    (¬ busy → magic = s.cfg.imageMagic → s.cfg.headerMin ≤ len.toNat → len.toNat ≤ s.cfg.maxImageSize →
      exec (.otaTrigger peer) s = .next
        (({ s with
            ota :=
              { role := .server
                downloading := .idle
                totalBytes := len
                totalBlocks := nblocks
                currentBlock := 0
                crc := crc
                peer := peer
                requestPeriodMs := s.cfg.srvRequestPeriodMs } } : State).record
          { st := .ok
            res := nblocks
            effects :=
              [.send peer (frameOf s.cfg (.notify len s.cfg.srvRequestPeriodMs)), .report (.notified len nblocks crc)] }))

/-- R352: a server answers a request for a block of its image to the requester, with the block's bytes and the
whole-image CRC; an index past the image is IGNORED. No state is written. -/
def Obligations.ServerServesBlocks : Prop :=
  ∀ (s : State) (src : Addr) (idx : U32), Inv s → s.otaBooted = true → s.ota.role = .server →
    let n := min s.cfg.blockSize (s.ota.totalBytes.toNat - idx.toNat * s.cfg.blockSize)
    (idx.toNat < s.ota.totalBlocks.toNat → exec (.otaRxBlockReq src (le32 idx)) s = .next (s.record
      { st := .ok
        effects := [.send src (frameOf s.cfg (.blockResponse idx (BitVec.ofNat 16 n)
          (bytesAt s.flashByte (s.cfg.imageBase + idx.toNat * s.cfg.blockSize) n) s.ota.crc))] })) ∧
    (s.ota.totalBlocks.toNat ≤ idx.toNat →
      exec (.otaRxBlockReq src (le32 idx)) s = .next (s.record { st := .ignored }))

/-- R353-R358: what a server does on the other messages meant for it, and on the operator's abort and status poll. No
state is written. -/
def Obligations.ServerAnswersAndReports : Prop :=
  ∀ (s : State) (src : Addr) (ip pct : Byte) (rem : U32), s.cfg.Valid → s.otaBooted = true → s.ota.role = .server →
    exec (.otaRxUpgReq src []) s = .next (s.record
      { st := .ok, effects := [.send src [s.cfg.startMarker, s.cfg.tUpgResp, 0, 0, s.cfg.tUpgResp]] }) ∧
    exec (.otaRxAbortReq src []) s = .next (s.record
      { st := .ok, effects := [.send src [s.cfg.startMarker, s.cfg.tAbortResp, 0, 0, s.cfg.tAbortResp]] }) ∧
    exec (.otaRxAbortResp src []) s = .next (s.record { st := .ok, effects := [.report (.abortAcked src)] }) ∧
    (ip.toNat ≤ 1 → exec (.otaRxStatusResp src ([ip, pct] ++ le32 rem)) s = .next (s.record
      { st := .ok, effects := [.report (.remoteStatus src ip pct rem)] })) ∧
    exec .otaAbort s = .next (s.record
      { st := .ok
        effects := [.send s.ota.peer [s.cfg.startMarker, s.cfg.tAbortReq, 0, 0, s.cfg.tAbortReq],
          .report .abortSent] }) ∧
    exec .otaPoll s = .next (s.record
      { st := .ok, effects := [.send s.ota.peer [s.cfg.startMarker, s.cfg.tStatusReq, 0, 0, s.cfg.tStatusReq]] })

/-- R351: a server stays a server, Idle with current_block 0, until reset. -/
def Obligations.ServerStaysServing : Prop :=
  ∀ s t : State, Inv s → s.ota.role = .server → step s = .next t → (∀ rest, s.pending ≠ .reset :: rest) →
    t.ota.role = .server ∧ t.ota.downloading = .idle ∧ t.ota.currentBlock = 0 ∧
      ∀ d, Effect.timerArm d ∉ newEffects s t

/-! ### OTA sequencer: client half -/

/-- R400: an accepted Notify starts the transfer from block 0 whatever the client was doing: the fields, the erased
sectors, the saved record, the timer, and nothing else; the flash outside those sectors reads as before. A Notify of an
illegal length is IGNORED in every `downloading` state. -/
def Obligations.ClientNotifyStartsADownload : Prop :=
  ∀ (s : State) (src : Addr) (total : U32) (period : U16), s.cfg.Valid → s.otaBooted = true → s.ota.role = .client →
    let o : OtaRecord :=
      { role := .client
        downloading := .downloading
        totalBytes := total
        totalBlocks := BitVec.ofNat 32 (blocks s.cfg total.toNat)
        currentBlock := 0
        crc := 0
        peer := src
        requestPeriodMs := period }
    (s.cfg.headerMin ≤ total.toNat → total.toNat ≤ s.cfg.maxImageSize →
      ∃ t, exec (.otaRxNotify src (le32 total ++ le16 period)) s = .next t ∧
        t = ({ s with ota := o, nv := some o, tmrArmed := true, tmrDelay := 0, flash := t.flash } : State).record
          { st := .ok
            effects := (eraseSet s.cfg total.toNat).map Effect.flashErase ++ [.nvSave o, .timerArm 0] } ∧
        ∀ a, (InEraseSet s.cfg total.toNat a → t.flashByte a = s.cfg.flashErased) ∧
          (¬ InEraseSet s.cfg total.toNat a → t.flashByte a = s.flashByte a)) ∧
    ((s.cfg.maxImageSize < total.toNat ∨ total.toNat < s.cfg.headerMin) →
      exec (.otaRxNotify src (le32 total ++ le16 period)) s = .next (s.record { st := .ignored }))

/-- R401: the request task, all but the tick that verifies: a tick while disarmed, outside a transfer, while blocks are
missing, and while UpgradeRequesting. The clause outside a transfer is the model's choice (log entry 10): an armed tick at a
server or an Idle client disarms, as R401 says, and answers IGNORED, although R502 has a failing status change no state. -/
def Obligations.OtaTickSendsTheNextRequest : Prop :=
  ∀ s : State, s.otaBooted = true →
    (s.tmrArmed = false → exec .otaTick s = .next (s.record { st := .ignored })) ∧
    (s.tmrArmed = true → s.ota.role = .server ∨ s.ota.downloading = .idle → exec .otaTick s =
      .next (({ s with tmrArmed := false, tmrDelay := 0 } : State).record
        { st := .ignored, effects := [.timerDisarm] })) ∧
    (s.tmrArmed = true → s.ota.role = .client → s.ota.downloading = .downloading →
      s.ota.currentBlock.toNat < s.ota.totalBlocks.toNat → exec .otaTick s =
        .next (({ s with tmrArmed := true, tmrDelay := s.ota.requestPeriodMs.zeroExtend 32 } : State).record
          { st := .ok
            effects := [.timerDisarm, .send s.ota.peer (frameOf s.cfg (.blockRequest s.ota.currentBlock)),
              .timerArm (s.ota.requestPeriodMs.zeroExtend 32)] })) ∧
    (s.tmrArmed = true → s.ota.role = .client → s.ota.downloading = .upgradeRequesting → exec .otaTick s =
      .next (({ s with tmrArmed := true, tmrDelay := s.cfg.upgradeRetryMs } : State).record
        { st := .ok
          effects := [.timerDisarm, .send s.ota.peer [s.cfg.startMarker, s.cfg.tUpgReq, 0, 0, s.cfg.tUpgReq],
            .timerArm s.cfg.upgradeRetryMs] }))

/-- R401 and R405: a tick that finds every block received verifies the flash: on success UpgradeRequesting at the retry
period, on failure block 0 again with the image's sectors erased and the record saved. -/
def Obligations.OtaTickVerifiesACompleteImage : Prop :=
  ∀ s : State, Inv s → s.otaBooted = true → s.tmrArmed = true → s.ota.role = .client →
    s.ota.downloading = .downloading → s.ota.currentBlock = s.ota.totalBlocks →
    (Verifies s.cfg s.flashByte s.ota.totalBytes s.ota.crc → exec .otaTick s =
      .next (({ s with
          ota := { s.ota with downloading := .upgradeRequesting }
          tmrArmed := true
          tmrDelay := s.cfg.upgradeRetryMs } : State).record
        { st := .ok, effects := [.timerDisarm, .timerArm s.cfg.upgradeRetryMs, .report .verifyOk] })) ∧
    (¬ Verifies s.cfg s.flashByte s.ota.totalBytes s.ota.crc →
      let o : OtaRecord := { s.ota with currentBlock := 0 }
      let delay : U32 := s.ota.requestPeriodMs.zeroExtend 32
      ∃ t, exec .otaTick s = .next t ∧
        t = ({ s with ota := o, nv := some o, tmrArmed := true, tmrDelay := delay, flash := t.flash } : State).record
          { st := .ok
            effects := .timerDisarm :: (eraseSet s.cfg s.ota.totalBytes.toNat).map Effect.flashErase ++
              [.nvSave o, .timerArm delay, .report .verifyFailed] } ∧
        ∀ a, (InEraseSet s.cfg s.ota.totalBytes.toNat a → t.flashByte a = s.cfg.flashErased) ∧
          (¬ InEraseSet s.cfg s.ota.totalBytes.toNat a → t.flashByte a = s.flashByte a))

/-- R403 and R404: the block the client expects, and not the last: its bytes at its own place in the flash and nowhere
else, the count, the CRC, and the record saved exactly when the count is a multiple of CHECKPOINT_INTERVAL. -/
def Obligations.ClientStoresTheExpectedBlock : Prop :=
  ∀ (s : State) (src : Addr) (idx : U32) (n : U16) (data : Bytes) (crc : U32), Inv s → s.otaBooted = true →
    s.ota.role = .client → s.ota.downloading = .downloading → idx = s.ota.currentBlock →
    s.ota.currentBlock.toNat + 1 < s.ota.totalBlocks.toNat → data.length = n.toNat →
    n.toNat = min s.cfg.blockSize (s.ota.totalBytes.toNat - idx.toNat * s.cfg.blockSize) →
      let addr := s.cfg.imageBase + idx.toNat * s.cfg.blockSize
      let o : OtaRecord := { s.ota with currentBlock := BitVec.ofNat 32 (idx.toNat + 1), crc := crc }
      ∃ t, exec (.otaRxBlockResp src (le32 idx ++ le16 n ++ data ++ le32 crc)) s = .next t ∧
        t = ({ s with
              ota := o
              nv := if (idx.toNat + 1) % s.cfg.checkpointInterval = 0 then some o else s.nv
              flash := t.flash } : State).record
          { st := .ok
            effects := .flashWrite addr data ::
              (if (idx.toNat + 1) % s.cfg.checkpointInterval = 0 then [.nvSave o] else []) } ∧
        ∀ a, t.flashByte a = storedAt s.flashByte addr data a

/-- R403 and R405: the last block. The flash with the block's bytes in it is verified in the same command; a checkpoint at
that count is saved first. -/
def Obligations.ClientVerifiesAtTheLastBlock : Prop :=
  ∀ (s : State) (src : Addr) (idx : U32) (n : U16) (data : Bytes) (crc : U32), Inv s → s.otaBooted = true →
    s.ota.role = .client → s.ota.downloading = .downloading → idx = s.ota.currentBlock →
    s.ota.currentBlock.toNat + 1 = s.ota.totalBlocks.toNat → data.length = n.toNat →
    n.toNat = min s.cfg.blockSize (s.ota.totalBytes.toNat - idx.toNat * s.cfg.blockSize) →
      let addr := s.cfg.imageBase + idx.toNat * s.cfg.blockSize
      let o : OtaRecord := { s.ota with currentBlock := s.ota.totalBlocks, crc := crc }
      let saved : List Effect := if (idx.toNat + 1) % s.cfg.checkpointInterval = 0 then [.nvSave o] else []
      let read := storedAt s.flashByte addr data
      ∃ t, exec (.otaRxBlockResp src (le32 idx ++ le16 n ++ data ++ le32 crc)) s = .next t ∧
        (Verifies s.cfg read s.ota.totalBytes crc →
          t = ({ s with
                ota := { o with downloading := .upgradeRequesting }
                nv := if (idx.toNat + 1) % s.cfg.checkpointInterval = 0 then some o else s.nv
                tmrArmed := true
                tmrDelay := s.cfg.upgradeRetryMs
                flash := t.flash } : State).record
            { st := .ok
              effects := .flashWrite addr data :: saved ++ [.timerArm s.cfg.upgradeRetryMs, .report .verifyOk] } ∧
          ∀ a, t.flashByte a = read a) ∧
        (¬ Verifies s.cfg read s.ota.totalBytes crc →
          t = ({ s with
                ota := { o with currentBlock := 0 }
                nv := some { o with currentBlock := 0 }
                tmrArmed := true
                tmrDelay := s.ota.requestPeriodMs.zeroExtend 32
                flash := t.flash } : State).record
            { st := .ok
              effects := .flashWrite addr data :: saved ++
                (eraseSet s.cfg s.ota.totalBytes.toNat).map Effect.flashErase ++
                [.nvSave { o with currentBlock := 0 }, .timerArm (s.ota.requestPeriodMs.zeroExtend 32),
                  .report .verifyFailed] } ∧
          ∀ a, (InEraseSet s.cfg s.ota.totalBytes.toNat a → t.flashByte a = s.cfg.flashErased) ∧
            (¬ InEraseSet s.cfg s.ota.totalBytes.toNat a → t.flashByte a = read a))

/-- R403: a BlockResponse outside Downloading, past the last block, of another index or of another length is IGNORED. -/
def Obligations.ClientIgnoresOtherBlocks : Prop :=
  ∀ (s : State) (src : Addr) (idx : U32) (n : U16) (data : Bytes) (crc : U32), s.cfg.Valid → s.otaBooted = true →
    s.ota.role = .client → data.length = n.toNat →
    (s.ota.downloading ≠ .downloading ∨ s.ota.totalBlocks.toNat ≤ s.ota.currentBlock.toNat ∨ idx ≠ s.ota.currentBlock ∨
      n.toNat ≠ min s.cfg.blockSize (s.ota.totalBytes.toNat - idx.toNat * s.cfg.blockSize)) →
      exec (.otaRxBlockResp src (le32 idx ++ le16 n ++ data ++ le32 crc)) s = .next (s.record { st := .ignored })

/-- R412: a BlockResponse that was accepted is IGNORED when it is delivered a second time, unless the first delivery's
Verify failed and set the count back. -/
def Obligations.DuplicateBlocksAreIgnored : Prop :=
  ∀ (s t : State) (src : Addr) (p : Bytes), Inv s → s.otaBooted = true → s.ota.role = .client →
    exec (.otaRxBlockResp src p) s = .next t → t.ota.currentBlock.toNat = s.ota.currentBlock.toNat + 1 →
      exec (.otaRxBlockResp src p) t = .next (t.record { st := .ignored })

/-- R406: UpgradeResponse while UpgradeRequesting: the Idle record is saved, the timer disarmed, the running header
invalidated, and the node resets: every register at its reset value, the flash kept, and no further command of the
run, which in the model's queue are those up to the next reset (log entries 5 and 12). In any other client state it is
IGNORED. (The ring buffer's registers after the reset are not stated: R70 leaves
them unspecified.) -/
def Obligations.UpgradeResponseResetsTheNode : Prop :=
  ∀ (s : State) (src : Addr), s.cfg.Valid → s.otaBooted = true → s.ota.role = .client →
    (s.ota.downloading = .upgradeRequesting →
      ∃ t, exec (.otaRxUpgResp src []) s = .next t ∧ t.nv = some OtaRecord.reset ∧ t.ota = OtaRecord.reset ∧
        t.rbInited = false ∧ t.otaBooted = false ∧ t.tmrArmed = false ∧ t.tmrDelay = 0 ∧ t.cfg = s.cfg ∧
        (∀ a, t.flashByte a = s.flashByte a) ∧ t.pending = nextRun s.pending ∧
        t.outputs = s.outputs ++ [{ st := .ok, effects := [.nvSave OtaRecord.reset, .timerDisarm,
          .invalidateRunningHeader, .softwareReset] }]) ∧
    (s.ota.downloading ≠ .upgradeRequesting →
      exec (.otaRxUpgResp src []) s = .next (s.record { st := .ignored }))

/-- R407: an AbortRequest at a client resets a transfer in progress, saves Idle, disarms and acks the sender; at an Idle
client only the ack is sent. -/
def Obligations.ClientAbortRequest : Prop :=
  ∀ (s : State) (src : Addr), s.cfg.Valid → s.otaBooted = true → s.ota.role = .client →
    let ack : Effect := .send src [s.cfg.startMarker, s.cfg.tAbortResp, 0, 0, s.cfg.tAbortResp]
    (s.ota.downloading ≠ .idle → exec (.otaRxAbortReq src []) s =
      .next (({ s with ota := OtaRecord.reset, nv := some OtaRecord.reset, tmrArmed := false, tmrDelay := 0 } : State).record
        { st := .ok, effects := [.nvSave OtaRecord.reset, .timerDisarm, ack] })) ∧
    (s.ota.downloading = .idle → exec (.otaRxAbortReq src []) s = .next (s.record { st := .ok, effects := [ack] }))

/-- R409: the operator's abort at a client. -/
def Obligations.ClientOperatorAbort : Prop :=
  ∀ s : State, s.otaBooted = true → s.ota.role = .client →
    (s.ota.downloading ≠ .idle → exec .otaAbort s =
      .next (({ s with ota := OtaRecord.reset, nv := some OtaRecord.reset, tmrArmed := false, tmrDelay := 0 } : State).record
        { st := .ok, effects := [.nvSave OtaRecord.reset, .timerDisarm, .report .aborted] })) ∧
    (s.ota.downloading = .idle → exec .otaAbort s = .next (s.record { st := .ignored }))

/-- R408 and R410: the status values, sent to the requester or reported to the operator. No state is written. The minutes
fit their field but for blocks of one byte, where R7 keeps them mod 2^32 (log entry 11). -/
def Obligations.ClientReportsItsStatus : Prop :=
  ∀ (s : State) (src : Addr), Inv s → s.otaBooted = true → s.ota.role = .client →
    let ip : Byte := if s.ota.downloading = .idle then 0 else 1
    let pct : Nat := if s.ota.totalBlocks = 0 then 0 else s.ota.currentBlock.toNat * 100 / s.ota.totalBlocks.toNat
    let rem : Nat := if s.ota.totalBlocks = 0 then 0
      else s.ota.requestPeriodMs.toNat * (s.ota.totalBlocks.toNat - s.ota.currentBlock.toNat) / 60000
    pct ≤ 100 ∧ (2 ≤ s.cfg.blockSize → rem < 2 ^ 32) ∧
    exec (.otaRxStatusReq src []) s = .next (s.record
      { st := .ok
        effects := [.send src (frameOf s.cfg (.statusResponse ip (BitVec.ofNat 8 pct) (BitVec.ofNat 32 rem)))] }) ∧
    exec .otaPoll s = .next (s.record
      { st := .ok
        res := BitVec.ofNat 32 (pct + 256 * ip.toNat)
        effects := [.report (.localStatus ip (BitVec.ofNat 8 pct) (BitVec.ofNat 32 rem))] })

/-- R404: the record is saved at no other point than the persist points: NvSave is issued only by a client, on an accepted
Notify, at a checkpoint, on a Verify failure, on the UpgradeResponse that resets, and on an abort of a transfer. (That each
of these saves it is stated with the rule it belongs to: ClientNotifyStartsADownload, ClientStoresTheExpectedBlock,
ClientVerifiesAtTheLastBlock, OtaTickVerifiesACompleteImage, UpgradeResponseResetsTheNode, ClientAbortRequest,
ClientOperatorAbort.) -/
def Obligations.NvSaveOnlyAtPersistPoints : Prop :=
  ∀ (s t : State) (i : Instr) (r : OtaRecord), Inv s → i.wellFormed s.cfg = true → exec i s = .next t →
    Effect.nvSave r ∈ newEffects s t →
    s.otaBooted = true ∧ s.ota.role = .client ∧
      ((∃ src p, i = .otaRxNotify src p ∧ t.ota.downloading = .downloading ∧ t.ota.currentBlock = 0) ∨
        (∃ src p, i = .otaRxBlockResp src p ∧
          ((s.ota.currentBlock.toNat + 1) % s.cfg.checkpointInterval = 0 ∨
            (s.ota.currentBlock.toNat + 1 = s.ota.totalBlocks.toNat ∧ t.ota.currentBlock = 0))) ∨
        (i = .otaTick ∧ s.ota.currentBlock = s.ota.totalBlocks ∧ t.ota.currentBlock = 0) ∨
        (∃ src p, i = .otaRxUpgResp src p ∧ s.ota.downloading = .upgradeRequesting) ∨
        (∃ src p, i = .otaRxAbortReq src p ∧ s.ota.downloading ≠ .idle) ∨
        (i = .otaAbort ∧ s.ota.downloading ≠ .idle))

/-- Every step keeps a record to resume from in the NV store while a download is in progress (R404, R413). -/
def Obligations.StepKeepsCheckpoint : Prop :=
  ∀ s t : State, Inv s → CheckpointInv s → step s = .next t → CheckpointInv t

/-- R413 and R552: after a reset in the middle of a download, OTA_BOOT resumes the same transfer at most
CHECKPOINT_INTERVAL - 1 blocks behind, with a tick owed at once and the flash as it was. The reset comes between two
commands, as every reset of the model does (log entry 23). -/
def Obligations.ResumeLosesLessThanACheckpoint : Prop :=
  ∀ (s : State) (rest : List Input), Inv s → CheckpointInv s → s.ota.role = .client → s.ota.downloading ≠ .idle →
    s.pending = .reset :: rest →
      ∃ t u, step s = .next t ∧ exec .otaBoot t = .next u ∧ u.ota.role = .client ∧ u.ota.downloading ≠ .idle ∧
        u.ota.totalBytes = s.ota.totalBytes ∧ u.ota.totalBlocks = s.ota.totalBlocks ∧
        u.ota.currentBlock.toNat ≤ s.ota.currentBlock.toNat ∧
        s.ota.currentBlock.toNat - u.ota.currentBlock.toNat ≤ s.cfg.checkpointInterval - 1 ∧
        u.tmrArmed = true ∧ u.tmrDelay = 0 ∧ (∀ a, u.flashByte a = s.flashByte a)

/-! ### Several commands, several nodes -/

/-- R161, R264 and R572. With no other agent's command between (`rxStep`, log entry 9), RX_STEP discards exactly the span
that FC_DECODE of the stored bytes consumed, and hands the frame to OTA_RX exactly when the decode was OK. Command by command
(`RxPhase`), any other agent's command may come between that neither removes stored bytes nor resets the node: each command
of RX_STEP and each such command leaves what the Consumer holds true of the buffer, and so its pop removes exactly the span
that was decoded. -/
def Obligations.RxStepDiscardsTheConsumedSpan : Prop :=
  (∀ (s : State) (src : Addr), RingInv s → s.rbInited = true →
    let d := decodeFrame s.cfg s.storedBytes
    ∃ t, t.storedBytes = s.storedBytes.drop d.consumed ∧ RingInv t ∧
      t = { s with rbBegin := t.rbBegin, outputs := t.outputs } ∧
      rxStep src s = if d.st = .ok then exec (rxInstr s.cfg d.type src d.payload) t else .next t) ∧
  (∀ (s t : State) (p : RxPhase), Inv s → s.rbInited = true → RxCoherent p s → t.rbInited = true →
    (∀ i, p.instr s.cfg = some i → exec i s = .next t → RxCoherent (p.after t.lastResult) t) ∧
    ∀ i, i.wellFormed s.cfg = true → i ≠ .rbClear → (∀ cap, i ≠ .rbInit cap) → (∀ n copy, i ≠ .rbPop n copy) →
      exec i s = .next t → RxCoherent p t) ∧
  ∀ (s : State) (src : Addr) (d : Result) (b : Bytes), RingInv s → s.rbInited = true → b <+: s.storedBytes →
    IsDecodeOf s.cfg d b →
      (RxPhase.discard src d).instr s.cfg = some (.rbPop d.consumed false) ∧
      ∃ t, exec (.rbPop d.consumed false) s = .next t ∧
        s.storedBytes = b.take (decodeFrame s.cfg b).consumed ++ t.storedBytes

/-- R517: nodes share nothing and are identified by their ADDR_BITS-bit addresses. Every event of a system keeps every
node's invariant, leaves the nodes the addresses they have, keeps them identified by them, and delivers a frame to no other
node than the addressed one; a command that a node takes leaves the other nodes as they were, and the Platform's events keep
the order of R551 (log entry 26). The system and its events are the model's choice (log entries 16, 27): frames are delivered
whole and unaltered, on the direct path those that do not decode are dropped, on the other those that no RB_PUSH can count
(log entry 25), and a step that faults or is refused leaves its node. -/
def Obligations.SystemEventsKeepEveryNode : Prop :=
  ∀ (sys : System) (e : Event), (∀ n ∈ sys.nodes, Inv n.st) →
    (∀ n ∈ (sys.step e).nodes, Inv n.st) ∧
    (sys.step e).nodes.map Node.addr = sys.nodes.map Node.addr ∧
    (sys.Identified → (sys.step e).Identified) ∧
    (∀ k j, e = .run k ∨ e = .rx k → j ≠ k → (sys.step e).nodes[j]? = sys.nodes[j]?) ∧
    (∀ (k j : Nat) (again : Bool) (p : Packet) (n : Node), e = .deliver k again ∨ e = .deliverBytes k again →
      sys.air[k]? = some p → sys.nodes[j]? = some n → n.addr ≠ p.dest → (sys.step e).nodes[j]? = some n) ∧
    ((∀ n ∈ sys.nodes, n.st.BootsFirst) → (∃ k order cap, e = .powerOn k order cap ∨ e = .boot k order cap) →
      ∀ n ∈ (sys.step e).nodes, n.st.BootsFirst)

/-- R411's reason: in a round of the pull in which nothing is lost, a client that still wants at least two blocks gets the
next one: its count goes up by one, the block's bytes in its flash are the server's, every other flash byte and the server
stay as they were, and the two nodes are ready for the next round. The system is the model's choice (log entry 16): the
frames take the direct path, and no frame is altered. -/
def Obligations.OneRoundMovesTheNextBlock : Prop :=
  ∀ client server : Node, PullPair client server →
    client.st.ota.currentBlock.toNat + 1 < client.st.ota.totalBlocks.toNat →
      let idx := client.st.ota.currentBlock.toNat
      let addr := blockAddr client.st.cfg idx
      let n := blockLen client.st.cfg client.st.ota.totalBytes.toNat idx
      ∃ client' server' : Node,
        ({ nodes := [client, server], air := [] } : System).run (pullRound 0 1) =
          { nodes := [client', server'], air := [] } ∧
        PullPair client' server' ∧
        client'.st.ota = { client.st.ota with currentBlock := BitVec.ofNat 32 (idx + 1), crc := server.st.ota.crc } ∧
        server'.st.ota = server.st.ota ∧ server'.st.flash = server.st.flash ∧
        ∀ a, client'.st.flashByte a = storedAt client.st.flashByte addr (bytesAt server.st.flashByte addr n) a

/-- R411 and R415: over a radio that loses nothing, one round a missing block brings the client to UpgradeRequesting with
the server's image in its flash, when the server's image is one that Verify accepts and the blocks the client counts
already are the server's. The system is the model's choice (log entry 16): the frames take the direct path, and none is
altered. -/
def Obligations.TransferCompletes : Prop :=
  ∀ client server : Node, PullPair client server →
    client.st.ota.currentBlock.toNat < client.st.ota.totalBlocks.toNat →
    Verifies server.st.cfg server.st.flashByte server.st.ota.totalBytes server.st.ota.crc →
    (∀ a, server.st.cfg.imageBase ≤ a → a < blockAddr server.st.cfg client.st.ota.currentBlock.toNat →
      client.st.flashByte a = server.st.flashByte a) →
      let missing := client.st.ota.totalBlocks.toNat - client.st.ota.currentBlock.toNat
      ∃ client' server' : Node,
        ({ nodes := [client, server], air := [] } : System).run (List.replicate missing (pullRound 0 1)).flatten =
          { nodes := [client', server'], air := [] } ∧
        client'.st.ota.downloading = .upgradeRequesting ∧ client'.st.ota.currentBlock = client.st.ota.totalBlocks ∧
        bytesAt client'.st.flashByte client.st.cfg.imageBase client.st.ota.totalBytes.toNat =
          bytesAt server.st.flashByte client.st.cfg.imageBase client.st.ota.totalBytes.toNat ∧
        server'.st.flash = server.st.flash

/-! ### Boot -/

/-- R551's order, and with it R571's bound on the capacity. Where the agents keep it (the model's `State.BootsFirst`, log
entry 26), a step keeps it, through software resets too; and until both units are ready the next command is an OTA_BOOT, or
an RB_INIT with MTU + 6 ≤ N ≤ RB_NMAX, of a unit that is not ready yet. -/
def Obligations.StepKeepsBootDiscipline : Prop :=
  ∀ s : State, s.BootsFirst →
    (∀ t, step s = .next t → t.BootsFirst) ∧
    ∀ cmd rest, s.pending = .command cmd :: rest → ¬ (s.rbInited = true ∧ s.otaBooted = true) →
      (∃ n, decode s.cfg cmd = .ok (.rbInit n) ∧ s.cfg.mtu + 6 ≤ n.toNat ∧ n.toNat ≤ s.cfg.rbNmax ∧
        s.rbInited = false) ∨
      (decode s.cfg cmd = .ok .otaBoot ∧ s.otaBooted = false)
end

