-- ==== Sys2Proof/Laws/Config.lean ====
section
/-! SUPPORT. The constraints of a valid parameter set, one by one. -/

namespace Sys2Proof.Config.Valid

variable {c : Config}

theorem blockSize_pos (h : c.Valid) : 1 ≤ c.blockSize := h.1.1.1
theorem blockSize_le (h : c.Valid) : c.blockSize ≤ 65535 := h.1.1.2
theorem block_fits_mtu (h : c.Valid) : c.blockSize + 10 ≤ c.mtu := h.1.2.1.1
theorem mtu_le (h : c.Valid) : c.mtu ≤ 65535 := h.1.2.1.2
theorem frame_fits_ring (h : c.Valid) : c.mtu + 6 ≤ c.rbNmax := h.1.2.2.1
theorem tags_nodup (h : c.Valid) : (Tag.all.map c.tagByte).Nodup := h.1.2.2.2.1
theorem base_aligned (h : c.Valid) : c.imageBase % c.sectorSize = 0 := h.1.2.2.2.2.1
theorem header_le_max (h : c.Valid) : c.headerMin ≤ c.maxImageSize := h.1.2.2.2.2.2.1
theorem image_in_flash (h : c.Valid) : c.imageBase + c.maxImageSize ≤ c.flashSize := h.1.2.2.2.2.2.2.1
theorem maxImageSize_lt (h : c.Valid) : c.maxImageSize < 2 ^ 32 := h.1.2.2.2.2.2.2.2.1
theorem crcChunk_pos (h : c.Valid) : 1 ≤ c.crcChunk := h.1.2.2.2.2.2.2.2.2
theorem magic_length (h : c.Valid) : c.imageMagic.length = c.hdrMagicLen := h.2.1
theorem magic_in_header (h : c.Valid) : c.hdrMagicOff + c.hdrMagicLen ≤ c.headerMin := h.2.2.1
theorem flashSize_le (h : c.Valid) : c.flashSize ≤ 2 ^ 32 := h.2.2.2.1
theorem interval_pos (h : c.Valid) : 1 ≤ c.checkpointInterval := h.2.2.2.2.1
theorem nvInit_peer (h : c.Valid) : ∀ r ∈ c.nvInit, c.addrOk r.peer = true := h.2.2.2.2.2

/-- A sector is not empty: the image area is not, and lies in the flash. -/
theorem sectorSize_pos (h : c.Valid) : 1 ≤ c.sectorSize := by
  have h1 := h.header_le_max
  have h2 := h.image_in_flash
  unfold Config.headerMin at h1
  unfold Config.flashSize at h2
  rcases Nat.eq_zero_or_pos c.sectorSize with h0 | h0
  · rw [h0] at h2
    omega
  · exact h0

theorem headerMin_ge : 4 ≤ c.headerMin := by
  unfold Config.headerMin
  omega

end Sys2Proof.Config.Valid

/-- This hardware's parameters satisfy R6. -/
theorem Sys2Proof.Config.default_valid : Sys2Proof.Config.default.Valid := by decide
end

