-- ==== Sys2Proof/Laws/Encoding.lean ====
section
/-! SUPPORT. The opcode map read both ways, and the fields of a command word. -/

namespace Sys2Proof

/-- A command word as a number: `OP + 2^8 × A + 2^16 × LEN`. -/
theorem commandWord_toNat (o : Opcode) (a : Byte) (len : U16) :
    (commandWord o a len).toNat = o.op.toNat + 2 ^ 8 * a.toNat + 2 ^ 16 * len.toNat := by
  have ho := o.op.isLt
  have ha := a.isLt
  have hl := len.isLt
  unfold commandWord
  simp only [BitVec.toNat_or, BitVec.toNat_shiftLeft, BitVec.zeroExtend, BitVec.toNat_setWidth]
  rw [Nat.mod_eq_of_lt (show len.toNat < 2 ^ 32 by omega), Nat.mod_eq_of_lt (show a.toNat < 2 ^ 32 by omega),
    Nat.mod_eq_of_lt (show o.op.toNat < 2 ^ 32 by omega),
    Nat.mod_eq_of_lt (show len.toNat <<< 16 < 2 ^ 32 by rw [Nat.shiftLeft_eq]; omega),
    Nat.mod_eq_of_lt (show a.toNat <<< 8 < 2 ^ 32 by rw [Nat.shiftLeft_eq]; omega),
    ← Nat.shiftLeft_add_eq_or_of_lt (show a.toNat <<< 8 < 2 ^ 16 by rw [Nat.shiftLeft_eq]; omega)]
  have h8 : len.toNat <<< 16 + a.toNat <<< 8 = (len.toNat <<< 8 + a.toNat) <<< 8 := by
    simp only [Nat.shiftLeft_eq]
    omega
  rw [h8, ← Nat.shiftLeft_add_eq_or_of_lt (show o.op.toNat < 2 ^ 8 by omega)]
  simp only [Nat.shiftLeft_eq]
  omega

/-- The fields of a word as numbers (R120). -/
theorem opField_toNat (cw : U32) : (opField cw).toNat = cw.toNat % 256 := by
  simp [opField, BitVec.extractLsb'_toNat]

theorem auxField_toNat (cw : U32) : (auxField cw).toNat = cw.toNat / 256 % 256 := by
  simp [auxField, BitVec.extractLsb'_toNat, Nat.shiftRight_eq_div_pow]

theorem lenField_toNat (cw : U32) : (lenField cw).toNat = cw.toNat / 65536 := by
  have := cw.isLt
  simp [lenField, BitVec.extractLsb'_toNat, Nat.shiftRight_eq_div_pow]
  omega

theorem opField_commandWord (o : Opcode) (a : Byte) (len : U16) : opField (commandWord o a len) = o.op := by
  apply BitVec.eq_of_toNat_eq
  have ho := o.op.isLt
  rw [opField_toNat, commandWord_toNat]
  omega

theorem auxField_commandWord (o : Opcode) (a : Byte) (len : U16) : auxField (commandWord o a len) = a := by
  apply BitVec.eq_of_toNat_eq
  have ho := o.op.isLt
  have ha := a.isLt
  rw [auxField_toNat, commandWord_toNat]
  omega

theorem lenField_commandWord (o : Opcode) (a : Byte) (len : U16) : lenField (commandWord o a len) = len := by
  apply BitVec.eq_of_toNat_eq
  have ho := o.op.isLt
  have ha := a.isLt
  rw [lenField_toNat, commandWord_toNat]
  omega

/-- No two commands of R125 share an OP. -/
theorem opcodeOf_op (o : Opcode) : opcodeOf o.op = some o := by cases o <;> rfl

/-- An OP that R125 lists is the OP of what it lists. -/
theorem op_of_opcodeOf {b : Byte} {o : Opcode} (h : opcodeOf b = some o) : o.op = b := by
  have := List.find?_some h
  simpa using this

/-- A word is put together from its own fields. -/
theorem commandWord_fields {cw : U32} {o : Opcode} (h : opcodeOf (opField cw) = some o) :
    commandWord o (auxField cw) (lenField cw) = cw := by
  apply BitVec.eq_of_toNat_eq
  rw [commandWord_toNat, op_of_opcodeOf h, opField_toNat, auxField_toNat, lenField_toNat]
  omega

theorem tag_mem_all (k : Tag) : k ∈ Tag.all := by cases k <;> decide

/-- Distinct tags: no two message kinds share a tag (R6). -/
theorem tagByte_injective {c : Config} (h : c.Valid) {k l : Tag} (e : c.tagByte k = c.tagByte l) : k = l :=
  List.inj_on_of_nodup_map h.tags_nodup (tag_mem_all k) (tag_mem_all l) e

/-- A message kind's tag stands for that kind (R6, R135). -/
theorem tagOf_tagByte {c : Config} (h : c.Valid) (k : Tag) : tagOf c (c.tagByte k) = some k := by
  unfold tagOf
  cases e : Tag.all.find? (fun l => c.tagByte l == c.tagByte k) with
  | none =>
    have := List.find?_eq_none.1 e k (tag_mem_all k)
    simp at this
  | some l =>
    have he : c.tagByte l = c.tagByte k := by simpa using List.find?_some e
    rw [tagByte_injective h he]

theorem tagByte_of_tagOf {c : Config} {b : Byte} {k : Tag} (h : tagOf c b = some k) : c.tagByte k = b := by
  have := List.find?_some h
  simpa using this

theorem tagOf_eq_none {c : Config} {b : Byte} : tagOf c b = none ↔ ∀ k, c.tagByte k ≠ b := by
  unfold tagOf
  simp only [List.find?_eq_none, beq_iff_eq]
  exact ⟨fun h k => h k (tag_mem_all k), fun h k _ => h k⟩

/-- What the decoder does with a command word put together from its fields: the boundary's checks, then R126's. -/
theorem decode_commandWord (c : Config) (o : Opcode) (a : Byte) (len : U16) (addr : Addr) (din : Bytes)
    (haddr : c.addrOk addr = true) (hdin : din.length = if o.lenKind = .count then len.toNat else 0)
    (haux : auxLegal o a = true) (hlen : lenReject c o len = none) :
    decode c { cw := commandWord o a len, addr := addr, din := din } = .ok (instrOf c o a len addr din) := by
  simp [decode, decodeWord, dinLengthOf, haddr, hdin, haux, hlen, opField_commandWord, auxField_commandWord,
    lenField_commandWord, opcodeOf_op]

/-- A string that LEN can count has the LEN that counts it. -/
theorem lenOf_toNat {p : Bytes} (h : countOk p = true) : (lenOf p).toNat = p.length := by
  unfold countOk at h
  simp only [decide_eq_true_eq] at h
  exact Nat.mod_eq_of_lt h

/-- ADDR 0 fits every width. -/
@[simp] theorem addrOk_zero (c : Config) : c.addrOk 0 = true := by simp [Config.addrOk]

/-- The OTA_RX row that a frame type selects is well-formed where its source and payload are. -/
theorem rxInstr_wellFormed {c : Config} {t : Byte} {src : Addr} {p : Bytes} (hs : c.addrOk src = true)
    (hp : countOk p = true) : (rxInstr c t src p).wellFormed c = true := by
  unfold rxInstr
  split <;> simp [Instr.wellFormed, hs, hp]
  rename_i h
  exact fun k _ => tagOf_eq_none.1 h k

/-- What the decoder accepts is well-formed. -/
theorem decode_wellFormed {c : Config} {cmd : Command} {i : Instr} (h : decode c cmd = .ok i) : i.wellFormed c = true := by
  unfold decode at h
  split at h
  · rename_i ha
    split at h
    · rename_i hd
      have hp : countOk cmd.din = true := by
        have := (lenField cmd.cw).isLt
        simp only [countOk, decide_eq_true_eq]
        unfold dinLengthOf at hd
        split at hd <;> (try split at hd) <;> omega
      unfold decodeWord at h
      split at h
      · cases h
      · rename_i o ho
        split at h
        · split at h
          · cases h
          · rename_i hl
            injection h with h
            subst h
            cases o <;> simp only [instrOf, Instr.wellFormed] <;> first | rfl | exact hp | exact ha | skip
            · unfold lenReject at hl
              simp only [Opcode.lenKind] at hl
              split at hl
              · rename_i hc
                exact hc
              · cases hl
            · exact rxInstr_wellFormed ha hp
        · cases h
    · cases h
  · cases h

end Sys2Proof
end

