-- ==== Sys2Proof/Laws/Bytes.lean ====
section
/-! SUPPORT. Byte strings: the little-endian fields read back, the checksum of a concatenation, and the CRC of one
(R301). -/

namespace Sys2Proof.Machine

@[simp] theorem le16_length (v : U16) : (le16 v).length = 2 := rfl
@[simp] theorem le32_length (v : U32) : (le32 v).length = 4 := rfl

/-- A byte of a u16 as a number. -/
theorem le16_eq (v : U16) : le16 v = [BitVec.ofNat 8 v.toNat, BitVec.ofNat 8 (v.toNat / 256)] := by
  simp only [le16, List.cons.injEq, and_true]
  constructor <;> apply BitVec.eq_of_toNat_eq <;> simp [BitVec.extractLsb'_toNat, Nat.shiftRight_eq_div_pow]

theorem le32_eq (v : U32) : le32 v =
    [BitVec.ofNat 8 v.toNat, BitVec.ofNat 8 (v.toNat / 2 ^ 8), BitVec.ofNat 8 (v.toNat / 2 ^ 16),
      BitVec.ofNat 8 (v.toNat / 2 ^ 24)] := by
  simp only [le32, List.cons.injEq, and_true]
  refine ⟨?_, ?_, ?_, ?_⟩ <;> apply BitVec.eq_of_toNat_eq <;>
    simp [BitVec.extractLsb'_toNat, Nat.shiftRight_eq_div_pow]

@[simp] theorem byteAt_cons_zero (b : Byte) (s : Bytes) : byteAt (b :: s) 0 = b := rfl
@[simp] theorem byteAt_cons_succ (b : Byte) (s : Bytes) (i : Nat) : byteAt (b :: s) (i + 1) = byteAt s i := rfl

theorem byteAt_append_left {s t : Bytes} {i : Nat} (h : i < s.length) : byteAt (s ++ t) i = byteAt s i := by
  simp [byteAt, List.getD, List.getElem?_append_left h]

theorem byteAt_append_right (s t : Bytes) (i : Nat) : byteAt (s ++ t) (s.length + i) = byteAt t i := by
  simp [byteAt, List.getD, List.getElem?_append_right]

/-- `rd16` depends on the bytes from its offset on. -/
theorem rd16_append (s t : Bytes) (i : Nat) : rd16 (s ++ t) (s.length + i) = rd16 t i := by
  simp only [rd16, Nat.add_assoc, byteAt_append_right]

theorem rd32_append (s t : Bytes) (i : Nat) : rd32 (s ++ t) (s.length + i) = rd32 t i := by
  simp only [rd32, Nat.add_assoc, byteAt_append_right]

/-- `rd16` reads back what `le16` lays out (R7, R90). -/
@[simp] theorem rd16_le16 (v : U16) (t : Bytes) : rd16 (le16 v ++ t) 0 = v := by
  have h := v.isLt
  apply BitVec.eq_of_toNat_eq
  simp [le16_eq, rd16]
  omega

/-- `rd32` reads back what `le32` lays out (R7, R90). -/
@[simp] theorem rd32_le32 (v : U32) (t : Bytes) : rd32 (le32 v ++ t) 0 = v := by
  have h := v.isLt
  apply BitVec.eq_of_toNat_eq
  simp [le32_eq, rd32]
  omega

theorem slice_length (s : Bytes) (a b : Nat) : (slice s a b).length = min (b - a) (s.length - a) := by
  simp [slice]

/-- The slice of a concatenation that starts where its first part ends. -/
theorem slice_append (s t : Bytes) (n : Nat) : slice (s ++ t) s.length (s.length + n) = t.take n := by
  simp [slice]

/-- The checksum is additive over a concatenation. -/
theorem cksum_append (s t : Bytes) : cksum (s ++ t) = cksum s + cksum t := by
  induction s with
  | nil => simp [cksum]
  | cons b s ih => simp [cksum, ih, BitVec.add_assoc]

/-- R250: the checksum is the sum of the bytes modulo 256. -/
theorem cksum_eq_sum (s : Bytes) : cksum s = BitVec.ofNat 8 (s.map BitVec.toNat).sum := by
  induction s with
  | nil => rfl
  | cons b s ih =>
    apply BitVec.eq_of_toNat_eq
    simp [cksum, ih]

/-- R301's reason: the CRC over a concatenation is the CRC over the parts in order. -/
theorem crc32Update_append (c : Config) (v : U32) (s t : Bytes) :
    crc32Update c v (s ++ t) = crc32Update c (crc32Update c v s) t := by
  induction s generalizing v with
  | nil => rfl
  | cons b s ih => simp [crc32Update, ih]

/-- The frame is 5 bytes longer than its payload (R130). -/
@[simp] theorem encodeFrame_length (c : Config) (t : Byte) (p : Bytes) : (encodeFrame c t p).length = p.length + 5 := by
  simp [encodeFrame, frameHeader]
  omega

end Sys2Proof.Machine
end

