-- ==== Sys2Proof/Laws/Memory.lean ====
section
/-! SUPPORT. The byte memory: reading after writing, the canonical form every operation keeps, and that no operation
lists an address outside the ones it stores to. -/

namespace Sys2Proof.Machine

variable {d : Byte} {m : Memory}

/-- Every listed address satisfies `P`. -/
def Memory.Keys (P : Nat → Prop) (m : Memory) : Prop := ∀ cell ∈ m, P cell.1

theorem Memory.read_put (a : Nat) (v : Byte) (m : Memory) (h : ∀ cell ∈ m, a < cell.1) (b : Nat) :
    Memory.read d (Memory.put d a v m) b = if a = b then v else Memory.read d m b := by
  have skip : ∀ l : Memory, (∀ cell ∈ l, a < cell.1) → Memory.read d l a = d := by
    intro l hl
    induction l with
    | nil => rfl
    | cons cell l ih =>
      have h1 := hl cell (by simp)
      simp only [Memory.read]
      rw [if_neg (by omega)]
      exact ih (fun c hc => hl c (by simp [hc]))
  unfold Memory.put
  split
  · split
    · subst_vars
      exact skip m h
    · rfl
  · rfl

theorem Memory.wf_tail {k : Nat} {w : Byte} {rest : Memory} (h : Memory.Wf d ((k, w) :: rest)) : Memory.Wf d rest :=
  ⟨(List.pairwise_cons.1 h.1).2, fun c hc => h.2 c (by simp [hc])⟩

theorem Memory.wf_head {k : Nat} {w : Byte} {rest : Memory} (h : Memory.Wf d ((k, w) :: rest)) :
    ∀ cell ∈ rest, k < cell.1 := by
  intro cell hc
  exact (List.pairwise_cons.1 h.1).1 cell.1 (List.mem_map_of_mem hc)

theorem Memory.wf_cons {k : Nat} {w : Byte} {rest : Memory} (hk : ∀ cell ∈ rest, k < cell.1) (hw : w ≠ d)
    (h : Memory.Wf d rest) : Memory.Wf d ((k, w) :: rest) := by
  refine ⟨List.pairwise_cons.2 ⟨?_, h.1⟩, ?_⟩
  · intro a ha
    obtain ⟨c, hc, rfl⟩ := List.mem_map.1 ha
    exact hk c hc
  · intro c hc
    rcases List.mem_cons.1 hc with rfl | hc
    · exact hw
    · exact h.2 c hc

theorem Memory.put_wf {a : Nat} {v : Byte} (hk : ∀ cell ∈ m, a < cell.1) (h : Memory.Wf d m) :
    Memory.Wf d (Memory.put d a v m) := by
  unfold Memory.put
  split
  · exact h
  · exact Memory.wf_cons hk ‹_› h

/-- A listed address after a write is one listed before, or the one written. -/
theorem Memory.write_keys {P : Nat → Prop} {a : Nat} {v : Byte} (ha : P a) (h : m.Keys P) :
    Memory.Keys P (Memory.write d m a v) := by
  have hput : ∀ l : Memory, l.Keys P → Memory.Keys P (Memory.put d a v l) := by
    intro l hl
    unfold Memory.put
    split
    · exact hl
    · intro c hc
      rcases List.mem_cons.1 hc with rfl | hc
      · exact ha
      · exact hl c hc
  induction m with
  | nil => exact hput [] h
  | cons cell rest ih =>
    obtain ⟨k, w⟩ := cell
    have hrest : Memory.Keys P rest := fun c hc => h c (by simp [hc])
    simp only [Memory.write]
    split
    · exact hput _ h
    · split
      · exact hput _ hrest
      · intro c hc
        rcases List.mem_cons.1 hc with rfl | hc
        · exact h (k, w) (by simp)
        · exact ih hrest c hc

/-- Reading after writing one byte: the byte written there, the earlier byte elsewhere. -/
theorem Memory.read_write (h : Memory.Wf d m) (a : Nat) (v : Byte) (b : Nat) :
    Memory.read d (Memory.write d m a v) b = if a = b then v else Memory.read d m b := by
  induction m with
  | nil => exact Memory.read_put a v [] (by simp) b
  | cons cell rest ih =>
    obtain ⟨k, w⟩ := cell
    have hk := Memory.wf_head h
    simp only [Memory.write]
    split
    · refine Memory.read_put a v _ ?_ b
      intro c hc
      rcases List.mem_cons.1 hc with rfl | hc
      · assumption
      · have := hk c hc
        omega
    · split
      · subst_vars
        rw [Memory.read_put k v rest hk b]
        simp only [Memory.read]
        split <;> rfl
      · simp only [Memory.read]
        rw [ih (Memory.wf_tail h)]
        by_cases hkb : k = b
        · rw [if_pos hkb, if_neg (by omega), if_pos hkb]
        · simp [hkb]

/-- Writing keeps the canonical form. -/
theorem Memory.write_wf (h : Memory.Wf d m) (a : Nat) (v : Byte) : Memory.Wf d (Memory.write d m a v) := by
  induction m with
  | nil => exact Memory.put_wf (by simp) h
  | cons cell rest ih =>
    obtain ⟨k, w⟩ := cell
    have hk := Memory.wf_head h
    simp only [Memory.write]
    split
    · refine Memory.put_wf ?_ h
      intro c hc
      rcases List.mem_cons.1 hc with rfl | hc
      · assumption
      · have := hk c hc
        omega
    · split
      · subst_vars
        exact Memory.put_wf hk (Memory.wf_tail h)
      · exact Memory.wf_cons (Memory.write_keys (P := fun x => k < x) (by omega) hk) (h.2 (k, w) (by simp))
          (ih (Memory.wf_tail h))

theorem Memory.writeBytes_wf (h : Memory.Wf d m) (a : Nat) (v : Bytes) : Memory.Wf d (Memory.writeBytes d m a v) := by
  induction v generalizing m a with
  | nil => exact h
  | cons b bs ih => exact ih (Memory.write_wf h a b) (a + 1)

theorem Memory.writeBytes_keys {n a : Nat} {v : Bytes} (ha : a + v.length ≤ n) (h : m.Keys (· < n)) :
    Memory.Keys (· < n) (Memory.writeBytes d m a v) := by
  induction v generalizing m a with
  | nil => exact h
  | cons b bs ih =>
    simp only [List.length_cons] at ha
    exact ih (by omega) (Memory.write_keys (by omega) h)

/-- Reading after storing a byte string: its bytes inside, the earlier bytes outside (R9, R83). -/
theorem Memory.read_writeBytes (h : Memory.Wf d m) (a : Nat) (v : Bytes) (b : Nat) :
    Memory.read d (Memory.writeBytes d m a v) b =
      if a ≤ b ∧ b < a + v.length then v.getD (b - a) 0 else Memory.read d m b := by
  induction v generalizing m a with
  | nil =>
    simp only [Memory.writeBytes, List.length_nil]
    rw [if_neg (by omega)]
  | cons x xs ih =>
    simp only [Memory.writeBytes]
    rw [ih (Memory.write_wf h a x), Memory.read_write h, List.length_cons]
    by_cases h1 : a + 1 ≤ b ∧ b < a + 1 + xs.length
    · rw [if_pos h1, if_pos (by omega), show b - a = (b - (a + 1)) + 1 by omega]
      simp
    · rw [if_neg h1]
      by_cases h2 : a = b
      · subst h2
        simp
      · rw [if_neg h2, if_neg (by omega)]

/-- Erasing keeps the canonical form and lists no new address. -/
theorem Memory.eraseBytes_wf (h : Memory.Wf d m) (a n : Nat) : Memory.Wf d (Memory.eraseBytes m a n) := by
  refine ⟨?_, fun c hc => h.2 c (List.mem_of_mem_filter hc)⟩
  exact List.Pairwise.sublist (List.filter_sublist.map Prod.fst) h.1

theorem Memory.eraseBytes_keys {P : Nat → Prop} (h : m.Keys P) (a n : Nat) : Memory.Keys P (Memory.eraseBytes m a n) :=
  fun c hc => h c (List.mem_of_mem_filter hc)

/-- Reading after erasing: the unlisted value inside, the earlier byte outside (R84). -/
theorem Memory.read_eraseBytes (m : Memory) (a n b : Nat) :
    Memory.read d (Memory.eraseBytes m a n) b = if a ≤ b ∧ b < a + n then d else Memory.read d m b := by
  induction m with
  | nil => simp [Memory.eraseBytes, Memory.read]
  | cons cell rest ih =>
    obtain ⟨k, w⟩ := cell
    unfold Memory.eraseBytes at ih ⊢
    simp only [List.filter_cons]
    by_cases hk : a ≤ k ∧ k < a + n
    · rw [if_neg (by simp [hk]), ih]
      by_cases hb : a ≤ b ∧ b < a + n
      · rw [if_pos hb, if_pos hb]
      · rw [if_neg hb, if_neg hb]
        simp only [Memory.read]
        rw [if_neg (by rintro rfl; exact hb hk)]
    · rw [if_pos (by simp [hk])]
      simp only [Memory.read]
      by_cases hkb : k = b
      · subst hkb
        rw [if_pos rfl, if_neg hk, if_pos rfl]
      · rw [if_neg hkb, if_neg hkb, ih]

@[simp] theorem Memory.readBytes_length (a n : Nat) : (Memory.readBytes d m a n).length = n := by
  simp [Memory.readBytes]

/-- An empty memory is in the canonical form. -/
theorem Memory.wf_nil : Memory.Wf d [] := by simp [Memory.Wf]

end Sys2Proof.Machine
end

