-- ==== Sys2Proof/Laws/State.lean ====
section
/-! SUPPORT. One lemma per field per update of the state, and the state and the effects of each primitive of a
command in progress: no later proof unfolds a record update. -/

namespace Sys2Proof.Machine

section Updates

variable (s : State)

/-! `record` -/

@[simp] theorem State.record_cfg (r : Result) : (s.record r).cfg = s.cfg := rfl
@[simp] theorem State.record_rbInited (r : Result) : (s.record r).rbInited = s.rbInited := rfl
@[simp] theorem State.record_rbCap (r : Result) : (s.record r).rbCap = s.rbCap := rfl
@[simp] theorem State.record_rbBegin (r : Result) : (s.record r).rbBegin = s.rbBegin := rfl
@[simp] theorem State.record_rbEnd (r : Result) : (s.record r).rbEnd = s.rbEnd := rfl
@[simp] theorem State.record_rbStorage (r : Result) : (s.record r).rbStorage = s.rbStorage := rfl
@[simp] theorem State.record_ota (r : Result) : (s.record r).ota = s.ota := rfl
@[simp] theorem State.record_otaBooted (r : Result) : (s.record r).otaBooted = s.otaBooted := rfl
@[simp] theorem State.record_tmrArmed (r : Result) : (s.record r).tmrArmed = s.tmrArmed := rfl
@[simp] theorem State.record_tmrDelay (r : Result) : (s.record r).tmrDelay = s.tmrDelay := rfl
@[simp] theorem State.record_flash (r : Result) : (s.record r).flash = s.flash := rfl
@[simp] theorem State.record_nv (r : Result) : (s.record r).nv = s.nv := rfl
@[simp] theorem State.record_pending (r : Result) : (s.record r).pending = s.pending := rfl
@[simp] theorem State.record_outputs (r : Result) : (s.record r).outputs = s.outputs ++ [r] := rfl

/-! `withPending` -/

@[simp] theorem State.withPending_cfg (l : List Input) : (s.withPending l).cfg = s.cfg := rfl
@[simp] theorem State.withPending_rbInited (l : List Input) : (s.withPending l).rbInited = s.rbInited := rfl
@[simp] theorem State.withPending_rbCap (l : List Input) : (s.withPending l).rbCap = s.rbCap := rfl
@[simp] theorem State.withPending_rbBegin (l : List Input) : (s.withPending l).rbBegin = s.rbBegin := rfl
@[simp] theorem State.withPending_rbEnd (l : List Input) : (s.withPending l).rbEnd = s.rbEnd := rfl
@[simp] theorem State.withPending_rbStorage (l : List Input) : (s.withPending l).rbStorage = s.rbStorage := rfl
@[simp] theorem State.withPending_ota (l : List Input) : (s.withPending l).ota = s.ota := rfl
@[simp] theorem State.withPending_otaBooted (l : List Input) : (s.withPending l).otaBooted = s.otaBooted := rfl
@[simp] theorem State.withPending_tmrArmed (l : List Input) : (s.withPending l).tmrArmed = s.tmrArmed := rfl
@[simp] theorem State.withPending_tmrDelay (l : List Input) : (s.withPending l).tmrDelay = s.tmrDelay := rfl
@[simp] theorem State.withPending_flash (l : List Input) : (s.withPending l).flash = s.flash := rfl
@[simp] theorem State.withPending_nv (l : List Input) : (s.withPending l).nv = s.nv := rfl
@[simp] theorem State.withPending_pending (l : List Input) : (s.withPending l).pending = l := rfl
@[simp] theorem State.withPending_outputs (l : List Input) : (s.withPending l).outputs = s.outputs := rfl

/-! `setIndices` -/

@[simp] theorem State.setIndices_cfg (b e : Nat) : (s.setIndices b e).cfg = s.cfg := rfl
@[simp] theorem State.setIndices_rbInited (b e : Nat) : (s.setIndices b e).rbInited = s.rbInited := rfl
@[simp] theorem State.setIndices_rbCap (b e : Nat) : (s.setIndices b e).rbCap = s.rbCap := rfl
@[simp] theorem State.setIndices_rbBegin (b e : Nat) : (s.setIndices b e).rbBegin = b := rfl
@[simp] theorem State.setIndices_rbEnd (b e : Nat) : (s.setIndices b e).rbEnd = e := rfl
@[simp] theorem State.setIndices_rbStorage (b e : Nat) : (s.setIndices b e).rbStorage = s.rbStorage := rfl
@[simp] theorem State.setIndices_ota (b e : Nat) : (s.setIndices b e).ota = s.ota := rfl
@[simp] theorem State.setIndices_otaBooted (b e : Nat) : (s.setIndices b e).otaBooted = s.otaBooted := rfl
@[simp] theorem State.setIndices_tmrArmed (b e : Nat) : (s.setIndices b e).tmrArmed = s.tmrArmed := rfl
@[simp] theorem State.setIndices_tmrDelay (b e : Nat) : (s.setIndices b e).tmrDelay = s.tmrDelay := rfl
@[simp] theorem State.setIndices_flash (b e : Nat) : (s.setIndices b e).flash = s.flash := rfl
@[simp] theorem State.setIndices_nv (b e : Nat) : (s.setIndices b e).nv = s.nv := rfl
@[simp] theorem State.setIndices_pending (b e : Nat) : (s.setIndices b e).pending = s.pending := rfl
@[simp] theorem State.setIndices_outputs (b e : Nat) : (s.setIndices b e).outputs = s.outputs := rfl

/-! `initRing` -/

@[simp] theorem State.initRing_cfg (cap : U16) : (s.initRing cap).cfg = s.cfg := rfl
@[simp] theorem State.initRing_rbInited (cap : U16) : (s.initRing cap).rbInited = true := rfl
@[simp] theorem State.initRing_rbCap (cap : U16) : (s.initRing cap).rbCap = cap := rfl
@[simp] theorem State.initRing_rbBegin (cap : U16) : (s.initRing cap).rbBegin = 0 := rfl
@[simp] theorem State.initRing_rbEnd (cap : U16) : (s.initRing cap).rbEnd = 0 := rfl
@[simp] theorem State.initRing_rbStorage (cap : U16) : (s.initRing cap).rbStorage = s.rbStorage := rfl
@[simp] theorem State.initRing_ota (cap : U16) : (s.initRing cap).ota = s.ota := rfl
@[simp] theorem State.initRing_otaBooted (cap : U16) : (s.initRing cap).otaBooted = s.otaBooted := rfl
@[simp] theorem State.initRing_tmrArmed (cap : U16) : (s.initRing cap).tmrArmed = s.tmrArmed := rfl
@[simp] theorem State.initRing_tmrDelay (cap : U16) : (s.initRing cap).tmrDelay = s.tmrDelay := rfl
@[simp] theorem State.initRing_flash (cap : U16) : (s.initRing cap).flash = s.flash := rfl
@[simp] theorem State.initRing_nv (cap : U16) : (s.initRing cap).nv = s.nv := rfl
@[simp] theorem State.initRing_pending (cap : U16) : (s.initRing cap).pending = s.pending := rfl
@[simp] theorem State.initRing_outputs (cap : U16) : (s.initRing cap).outputs = s.outputs := rfl

/-! `pushBytes` -/

@[simp] theorem State.pushBytes_cfg (data : Bytes) : (s.pushBytes data).cfg = s.cfg := rfl
@[simp] theorem State.pushBytes_rbInited (data : Bytes) : (s.pushBytes data).rbInited = s.rbInited := rfl
@[simp] theorem State.pushBytes_rbCap (data : Bytes) : (s.pushBytes data).rbCap = s.rbCap := rfl
@[simp] theorem State.pushBytes_rbBegin (data : Bytes) : (s.pushBytes data).rbBegin = s.rbBegin := rfl
@[simp] theorem State.pushBytes_rbEnd (data : Bytes) : (s.pushBytes data).rbEnd = (s.rbEnd + data.length) % s.rbCap.toNat := rfl
@[simp] theorem State.pushBytes_rbStorage (data : Bytes) : (s.pushBytes data).rbStorage = rbWriteBytes s.rbStorage s.rbCap.toNat s.rbEnd data := rfl
@[simp] theorem State.pushBytes_ota (data : Bytes) : (s.pushBytes data).ota = s.ota := rfl
@[simp] theorem State.pushBytes_otaBooted (data : Bytes) : (s.pushBytes data).otaBooted = s.otaBooted := rfl
@[simp] theorem State.pushBytes_tmrArmed (data : Bytes) : (s.pushBytes data).tmrArmed = s.tmrArmed := rfl
@[simp] theorem State.pushBytes_tmrDelay (data : Bytes) : (s.pushBytes data).tmrDelay = s.tmrDelay := rfl
@[simp] theorem State.pushBytes_flash (data : Bytes) : (s.pushBytes data).flash = s.flash := rfl
@[simp] theorem State.pushBytes_nv (data : Bytes) : (s.pushBytes data).nv = s.nv := rfl
@[simp] theorem State.pushBytes_pending (data : Bytes) : (s.pushBytes data).pending = s.pending := rfl
@[simp] theorem State.pushBytes_outputs (data : Bytes) : (s.pushBytes data).outputs = s.outputs := rfl

/-! `popBytes` -/

@[simp] theorem State.popBytes_cfg (n : Nat) : (s.popBytes n).cfg = s.cfg := rfl
@[simp] theorem State.popBytes_rbInited (n : Nat) : (s.popBytes n).rbInited = s.rbInited := rfl
@[simp] theorem State.popBytes_rbCap (n : Nat) : (s.popBytes n).rbCap = s.rbCap := rfl
@[simp] theorem State.popBytes_rbBegin (n : Nat) : (s.popBytes n).rbBegin = (s.rbBegin + n) % s.rbCap.toNat := rfl
@[simp] theorem State.popBytes_rbEnd (n : Nat) : (s.popBytes n).rbEnd = s.rbEnd := rfl
@[simp] theorem State.popBytes_rbStorage (n : Nat) : (s.popBytes n).rbStorage = s.rbStorage := rfl
@[simp] theorem State.popBytes_ota (n : Nat) : (s.popBytes n).ota = s.ota := rfl
@[simp] theorem State.popBytes_otaBooted (n : Nat) : (s.popBytes n).otaBooted = s.otaBooted := rfl
@[simp] theorem State.popBytes_tmrArmed (n : Nat) : (s.popBytes n).tmrArmed = s.tmrArmed := rfl
@[simp] theorem State.popBytes_tmrDelay (n : Nat) : (s.popBytes n).tmrDelay = s.tmrDelay := rfl
@[simp] theorem State.popBytes_flash (n : Nat) : (s.popBytes n).flash = s.flash := rfl
@[simp] theorem State.popBytes_nv (n : Nat) : (s.popBytes n).nv = s.nv := rfl
@[simp] theorem State.popBytes_pending (n : Nat) : (s.popBytes n).pending = s.pending := rfl
@[simp] theorem State.popBytes_outputs (n : Nat) : (s.popBytes n).outputs = s.outputs := rfl

/-! `flashWithBytes` -/

@[simp] theorem State.flashWithBytes_cfg (addr : Nat) (v : Bytes) : (s.flashWithBytes addr v).cfg = s.cfg := rfl
@[simp] theorem State.flashWithBytes_rbInited (addr : Nat) (v : Bytes) : (s.flashWithBytes addr v).rbInited = s.rbInited := rfl
@[simp] theorem State.flashWithBytes_rbCap (addr : Nat) (v : Bytes) : (s.flashWithBytes addr v).rbCap = s.rbCap := rfl
@[simp] theorem State.flashWithBytes_rbBegin (addr : Nat) (v : Bytes) : (s.flashWithBytes addr v).rbBegin = s.rbBegin := rfl
@[simp] theorem State.flashWithBytes_rbEnd (addr : Nat) (v : Bytes) : (s.flashWithBytes addr v).rbEnd = s.rbEnd := rfl
@[simp] theorem State.flashWithBytes_rbStorage (addr : Nat) (v : Bytes) : (s.flashWithBytes addr v).rbStorage = s.rbStorage := rfl
@[simp] theorem State.flashWithBytes_ota (addr : Nat) (v : Bytes) : (s.flashWithBytes addr v).ota = s.ota := rfl
@[simp] theorem State.flashWithBytes_otaBooted (addr : Nat) (v : Bytes) : (s.flashWithBytes addr v).otaBooted = s.otaBooted := rfl
@[simp] theorem State.flashWithBytes_tmrArmed (addr : Nat) (v : Bytes) : (s.flashWithBytes addr v).tmrArmed = s.tmrArmed := rfl
@[simp] theorem State.flashWithBytes_tmrDelay (addr : Nat) (v : Bytes) : (s.flashWithBytes addr v).tmrDelay = s.tmrDelay := rfl
@[simp] theorem State.flashWithBytes_flash (addr : Nat) (v : Bytes) : (s.flashWithBytes addr v).flash = Memory.writeBytes s.flashUnlisted s.flash addr v := rfl
@[simp] theorem State.flashWithBytes_nv (addr : Nat) (v : Bytes) : (s.flashWithBytes addr v).nv = s.nv := rfl
@[simp] theorem State.flashWithBytes_pending (addr : Nat) (v : Bytes) : (s.flashWithBytes addr v).pending = s.pending := rfl
@[simp] theorem State.flashWithBytes_outputs (addr : Nat) (v : Bytes) : (s.flashWithBytes addr v).outputs = s.outputs := rfl

/-! `flashWithErased` -/

@[simp] theorem State.flashWithErased_cfg (sector : Nat) : (s.flashWithErased sector).cfg = s.cfg := rfl
@[simp] theorem State.flashWithErased_rbInited (sector : Nat) : (s.flashWithErased sector).rbInited = s.rbInited := rfl
@[simp] theorem State.flashWithErased_rbCap (sector : Nat) : (s.flashWithErased sector).rbCap = s.rbCap := rfl
@[simp] theorem State.flashWithErased_rbBegin (sector : Nat) : (s.flashWithErased sector).rbBegin = s.rbBegin := rfl
@[simp] theorem State.flashWithErased_rbEnd (sector : Nat) : (s.flashWithErased sector).rbEnd = s.rbEnd := rfl
@[simp] theorem State.flashWithErased_rbStorage (sector : Nat) : (s.flashWithErased sector).rbStorage = s.rbStorage := rfl
@[simp] theorem State.flashWithErased_ota (sector : Nat) : (s.flashWithErased sector).ota = s.ota := rfl
@[simp] theorem State.flashWithErased_otaBooted (sector : Nat) : (s.flashWithErased sector).otaBooted = s.otaBooted := rfl
@[simp] theorem State.flashWithErased_tmrArmed (sector : Nat) : (s.flashWithErased sector).tmrArmed = s.tmrArmed := rfl
@[simp] theorem State.flashWithErased_tmrDelay (sector : Nat) : (s.flashWithErased sector).tmrDelay = s.tmrDelay := rfl
@[simp] theorem State.flashWithErased_flash (sector : Nat) : (s.flashWithErased sector).flash = Memory.eraseBytes s.flash (sector * s.cfg.sectorSize) s.cfg.sectorSize := rfl
@[simp] theorem State.flashWithErased_nv (sector : Nat) : (s.flashWithErased sector).nv = s.nv := rfl
@[simp] theorem State.flashWithErased_pending (sector : Nat) : (s.flashWithErased sector).pending = s.pending := rfl
@[simp] theorem State.flashWithErased_outputs (sector : Nat) : (s.flashWithErased sector).outputs = s.outputs := rfl

/-! `resetRegisters` -/

@[simp] theorem State.resetRegisters_cfg : (s.resetRegisters).cfg = s.cfg := rfl
@[simp] theorem State.resetRegisters_rbInited : (s.resetRegisters).rbInited = false := rfl
@[simp] theorem State.resetRegisters_rbCap : (s.resetRegisters).rbCap = 0 := rfl
@[simp] theorem State.resetRegisters_rbBegin : (s.resetRegisters).rbBegin = 0 := rfl
@[simp] theorem State.resetRegisters_rbEnd : (s.resetRegisters).rbEnd = 0 := rfl
@[simp] theorem State.resetRegisters_rbStorage : (s.resetRegisters).rbStorage = List.replicate s.cfg.rbNmax 0 := rfl
@[simp] theorem State.resetRegisters_ota : (s.resetRegisters).ota = OtaRecord.reset := rfl
@[simp] theorem State.resetRegisters_otaBooted : (s.resetRegisters).otaBooted = false := rfl
@[simp] theorem State.resetRegisters_tmrArmed : (s.resetRegisters).tmrArmed = false := rfl
@[simp] theorem State.resetRegisters_tmrDelay : (s.resetRegisters).tmrDelay = 0 := rfl
@[simp] theorem State.resetRegisters_flash : (s.resetRegisters).flash = s.flash := rfl
@[simp] theorem State.resetRegisters_nv : (s.resetRegisters).nv = s.nv := rfl
@[simp] theorem State.resetRegisters_pending : (s.resetRegisters).pending = s.pending := rfl
@[simp] theorem State.resetRegisters_outputs : (s.resetRegisters).outputs = s.outputs := rfl

/-! `endRun` -/

@[simp] theorem State.endRun_cfg : (s.endRun).cfg = s.cfg := rfl
@[simp] theorem State.endRun_rbInited : (s.endRun).rbInited = false := rfl
@[simp] theorem State.endRun_rbCap : (s.endRun).rbCap = 0 := rfl
@[simp] theorem State.endRun_rbBegin : (s.endRun).rbBegin = 0 := rfl
@[simp] theorem State.endRun_rbEnd : (s.endRun).rbEnd = 0 := rfl
@[simp] theorem State.endRun_rbStorage : (s.endRun).rbStorage = List.replicate s.cfg.rbNmax 0 := rfl
@[simp] theorem State.endRun_ota : (s.endRun).ota = OtaRecord.reset := rfl
@[simp] theorem State.endRun_otaBooted : (s.endRun).otaBooted = false := rfl
@[simp] theorem State.endRun_tmrArmed : (s.endRun).tmrArmed = false := rfl
@[simp] theorem State.endRun_tmrDelay : (s.endRun).tmrDelay = 0 := rfl
@[simp] theorem State.endRun_flash : (s.endRun).flash = s.flash := rfl
@[simp] theorem State.endRun_nv : (s.endRun).nv = s.nv := rfl
@[simp] theorem State.endRun_pending : (s.endRun).pending = nextRun s.pending := rfl
@[simp] theorem State.endRun_outputs : (s.endRun).outputs = s.outputs := rfl

end Updates

section Primitives

variable (w : Work)

@[simp] theorem Work.did_st (e : Effect) : (w.did e).st = w.st := rfl
@[simp] theorem Work.did_effects (e : Effect) : (w.did e).effects = w.effects ++ [e] := rfl
@[simp] theorem Work.setOta_st (o : OtaRecord) : (w.setOta o).st = { w.st with ota := o } := rfl
@[simp] theorem Work.setOta_effects (o : OtaRecord) : (w.setOta o).effects = w.effects := rfl
@[simp] theorem Work.timerArm_st (d : U32) : (w.timerArm d).st = { w.st with tmrArmed := true, tmrDelay := d } := rfl
@[simp] theorem Work.timerArm_effects (d : U32) : (w.timerArm d).effects = w.effects ++ [.timerArm d] := rfl
@[simp] theorem Work.timerDisarm_st : (w.timerDisarm).st = { w.st with tmrArmed := false, tmrDelay := 0 } := rfl
@[simp] theorem Work.timerDisarm_effects : (w.timerDisarm).effects = w.effects ++ [.timerDisarm] := rfl
@[simp] theorem Work.persist_st : (w.persist).st = { w.st with nv := some w.st.ota } := rfl
@[simp] theorem Work.persist_effects : (w.persist).effects = w.effects ++ [.nvSave w.st.ota] := rfl
@[simp] theorem Work.sendMsg_st (dest : Addr) (m : Msg) : (w.sendMsg dest m).st = w.st := rfl
@[simp] theorem Work.sendMsg_effects (dest : Addr) (m : Msg) : (w.sendMsg dest m).effects = w.effects ++ [.send dest (frameOf w.st.cfg m)] := rfl
@[simp] theorem Work.report_st (r : Report) : (w.report r).st = w.st := rfl
@[simp] theorem Work.report_effects (r : Report) : (w.report r).effects = w.effects ++ [.report r] := rfl
@[simp] theorem Work.invalidateRunningHeader_st : (w.invalidateRunningHeader).st = w.st := rfl
@[simp] theorem Work.invalidateRunningHeader_effects : (w.invalidateRunningHeader).effects = w.effects ++ [.invalidateRunningHeader] := rfl
@[simp] theorem Work.softwareReset_st : (w.softwareReset).st = w.st.endRun := rfl
@[simp] theorem Work.softwareReset_effects : (w.softwareReset).effects = w.effects ++ [.softwareReset] := rfl
@[simp] theorem Work.resetTransfer_st : (w.resetTransfer).st = { w.st with ota := { OtaRecord.reset with role := w.st.ota.role } } := rfl
@[simp] theorem Work.resetTransfer_effects : (w.resetTransfer).effects = w.effects := rfl

@[simp] theorem State.work_st (s : State) : s.work.st = s := rfl
@[simp] theorem State.work_effects (s : State) : s.work.effects = [] := rfl

/-- A command that finishes answers the state it has written, with its result at the port. -/
@[simp] theorem Work.finish_eq (st : Status) (res : U32) :
    w.finish st res = .next (w.st.record { st := st, res := res, effects := w.effects }) := rfl

@[simp] theorem State.answer_eq (s : State) (r : Result) : s.answer r = .next (s.record r) := rfl

end Primitives

@[simp] theorem andThen_ok {α : Type} (v : α) (f : α → Answer) : andThen (.ok v) f = f v := rfl
@[simp] theorem andThen_error {α : Type} (e : Fault) (f : α → Answer) : andThen (.error e) f = .fault e := rfl

/-- `andThen` answers a next state only through the value it was waiting for. -/
theorem andThen_eq_next {α : Type} {x : Except Fault α} {f : α → Answer} {t : State} (h : andThen x f = .next t) :
    ∃ v, x = .ok v ∧ f v = .next t := by
  cases x with
  | ok v => exact ⟨v, rfl, h⟩
  | error e => cases h

end Sys2Proof.Machine
end

