-- ==== Sys2Proof/Laws/Flash.lean ====
section
/-! SUPPORT. The external flash: what each access answers, what the flash reads as afterwards, and that every access
keeps its canonical form. -/

namespace Sys2Proof.Machine

/-- What `memRead` answers inside the flash. -/
theorem State.memRead_ok {s : State} {addr n : Nat} (h : addr + n ≤ s.cfg.flashSize) :
    s.memRead addr n = .ok (bytesAt s.flashByte addr n) := by
  unfold State.memRead
  rw [if_pos h]
  rfl

/-- `memRead` answers only inside the flash, and then what the flash reads. -/
theorem State.memRead_eq_ok {s : State} {addr n : Nat} {b : Bytes} (h : s.memRead addr n = .ok b) :
    addr + n ≤ s.cfg.flashSize ∧ b = bytesAt s.flashByte addr n := by
  unfold State.memRead at h
  split at h
  · rename_i hle
    exact ⟨hle, (Except.ok.inj h).symm⟩
  · cases h

@[simp] theorem bytesAt_length (read : Nat → Byte) (addr n : Nat) : (bytesAt read addr n).length = n := by
  simp [bytesAt]

/-- A longer reading is a reading and then the reading of the rest. -/
theorem bytesAt_add (read : Nat → Byte) (addr m n : Nat) :
    bytesAt read addr (m + n) = bytesAt read addr m ++ bytesAt read (addr + m) n := by
  simp only [bytesAt, ← List.map_append]
  rw [List.range'_append_1]

/-- Storing a byte string: the flash reads it back, and reads as before elsewhere (R9, R83). -/
theorem State.flashWithBytes_flashByte {s : State} (h : FlashInv s) (addr : Nat) (v : Bytes) (a : Nat) :
    (s.flashWithBytes addr v).flashByte a = storedAt s.flashByte addr v a :=
  Memory.read_writeBytes h.wf addr v a

/-- Erasing a sector: it reads FLASH_ERASED, and the flash reads as before elsewhere (R84). -/
theorem State.flashWithErased_flashByte (s : State) (sector a : Nat) :
    (s.flashWithErased sector).flashByte a =
      if sector * s.cfg.sectorSize ≤ a ∧ a < sector * s.cfg.sectorSize + s.cfg.sectorSize then s.cfg.flashErased
      else s.flashByte a :=
  Memory.read_eraseBytes s.flash _ _ a

theorem FlashInv.flashWithBytes {s : State} (h : FlashInv s) {addr : Nat} {v : Bytes}
    (hle : addr + v.length ≤ s.cfg.flashSize) : FlashInv (s.flashWithBytes addr v) :=
  ⟨Memory.writeBytes_wf h.wf addr v, Memory.writeBytes_keys hle h.inside⟩

theorem FlashInv.flashWithErased {s : State} (h : FlashInv s) (sector : Nat) : FlashInv (s.flashWithErased sector) :=
  ⟨Memory.eraseBytes_wf h.wf _ _, Memory.eraseBytes_keys (P := (· < s.cfg.flashSize)) h.inside _ _⟩

/-- An update that touches neither the flash nor the parameters keeps `FlashInv`. -/
theorem FlashInv.of_eq {s t : State} (h : FlashInv s) (hcfg : t.cfg = s.cfg) (hf : t.flash = s.flash) : FlashInv t := by
  obtain ⟨h1, h2⟩ := h
  refine ⟨?_, ?_⟩
  · rw [hf]
    unfold State.flashUnlisted at h1 ⊢
    rwa [hcfg]
  · rw [hf, hcfg]
    exact h2

/-- Everything `memWrite` can do. -/
theorem Work.memWrite_eq_ok {w w' : Work} {addr : Nat} {v : Bytes} (h : w.memWrite addr v = .ok w') :
    addr + v.length ≤ w.st.cfg.flashSize ∧
      w' = { st := w.st.flashWithBytes addr v, effects := w.effects ++ [.flashWrite addr v] } := by
  unfold Work.memWrite at h
  split at h
  · rename_i hle
    exact ⟨hle, (Except.ok.inj h).symm⟩
  · cases h

theorem Work.memWrite_ok {w : Work} {addr : Nat} {v : Bytes} (h : addr + v.length ≤ w.st.cfg.flashSize) :
    w.memWrite addr v = .ok { st := w.st.flashWithBytes addr v, effects := w.effects ++ [.flashWrite addr v] } := by
  unfold Work.memWrite
  rw [if_pos h]

/-- Everything `flashErase` can do. -/
theorem Work.flashErase_eq_ok {w w' : Work} {sector : Nat} (h : w.flashErase sector = .ok w') :
    sector < w.st.cfg.flashSectors ∧
      w' = { st := w.st.flashWithErased sector, effects := w.effects ++ [.flashErase sector] } := by
  unfold Work.flashErase at h
  split at h
  · rename_i hlt
    exact ⟨hlt, (Except.ok.inj h).symm⟩
  · cases h

theorem Work.flashErase_ok {w : Work} {sector : Nat} (h : sector < w.st.cfg.flashSectors) :
    w.flashErase sector = .ok { st := w.st.flashWithErased sector, effects := w.effects ++ [.flashErase sector] } := by
  unfold Work.flashErase
  rw [if_pos h]

/-- What erasing a list of sectors leaves: only the flash changes, the effects are the erases in order, every address
of an erased sector reads FLASH_ERASED and every other reads as before. -/
structure Work.ErasedBy (w : Work) (sectors : List Nat) (w' : Work) : Prop where
  st : w'.st = { w.st with flash := w'.st.flash }
  effects : w'.effects = w.effects ++ sectors.map Effect.flashErase
  flashByte : 1 ≤ w.st.cfg.sectorSize → ∀ a,
    w'.st.flashByte a = if a / w.st.cfg.sectorSize ∈ sectors then w.st.cfg.flashErased else w.st.flashByte a
  flashInv : FlashInv w.st → FlashInv w'.st
  replay : (sectors.map Effect.flashErase).foldl replayEffect w.st = w'.st

theorem mem_sector_iff {k n a : Nat} (hn : 1 ≤ n) : k * n ≤ a ∧ a < k * n + n ↔ a / n = k := by
  rw [Nat.div_eq_iff (by omega)]
  constructor <;> intro ⟨h1, h2⟩ <;> constructor <;> omega

/-- Everything `eraseSectors` can do. -/
theorem Work.eraseSectors_eq_ok {w w' : Work} {sectors : List Nat} (h : w.eraseSectors sectors = .ok w') :
    w.ErasedBy sectors w' := by
  induction sectors generalizing w with
  | nil =>
    cases h
    exact ⟨rfl, by simp, by simp, id, rfl⟩
  | cons x xs ih =>
    simp only [Work.eraseSectors] at h
    split at h
    · rename_i w1 h1
      obtain ⟨-, rfl⟩ := Work.flashErase_eq_ok h1
      obtain ⟨hst, heff, hbyte, hinv, hreplay⟩ := ih h
      refine ⟨?_, ?_, ?_, fun hi => hinv (hi.flashWithErased x), hreplay⟩
      · rw [hst]
        rfl
      · rw [heff]
        simp
      · intro hpos a
        rw [hbyte hpos a]
        simp only [State.flashWithErased_cfg, State.flashWithErased_flashByte, List.mem_cons, mem_sector_iff hpos]
        by_cases h1 : a / w.st.cfg.sectorSize ∈ xs <;> by_cases h2 : a / w.st.cfg.sectorSize = x <;> simp [h1, h2]
    · cases h

/-- Erasing sectors of the flash never faults. -/
theorem Work.eraseSectors_ok {w : Work} {sectors : List Nat} (h : ∀ x ∈ sectors, x < w.st.cfg.flashSectors) :
    ∃ w', w.eraseSectors sectors = .ok w' := by
  induction sectors generalizing w with
  | nil => exact ⟨w, rfl⟩
  | cons x xs ih =>
    simp only [Work.eraseSectors, Work.flashErase_ok (h x (by simp))]
    exact ih (fun y hy => h y (by simp [hy]))

/-- The sectors of EraseSet(t), as R84 bounds them. -/
theorem mem_eraseSet {c : Config} {t k : Nat} :
    k ∈ eraseSet c t ↔ c.imageBase / c.sectorSize ≤ k ∧ k ≤ (c.imageBase + t - 1) / c.sectorSize := by
  simp only [eraseSet, List.mem_range'_1]
  omega

/-- The sectors of a legal image lie in the flash (R85). -/
theorem eraseSet_lt {c : Config} (hc : c.Valid) {t : Nat} (ht : legalLength c t = true) :
    ∀ k ∈ eraseSet c t, k < c.flashSectors := by
  simp only [legalLength, decide_eq_true_eq] at ht
  have h1 := hc.image_in_flash
  have h2 := hc.sectorSize_pos
  have h3 : 4 ≤ c.headerMin := Config.Valid.headerMin_ge
  intro k hk
  obtain ⟨-, hk⟩ := mem_eraseSet.1 hk
  refine lt_of_le_of_lt hk ((Nat.div_lt_iff_lt_mul (by omega)).2 ?_)
  unfold Config.flashSize at h1
  rw [Nat.mul_comm]
  omega

/-- Erasing a legal image never faults. -/
theorem Work.eraseImage_ok {w : Work} (hc : w.st.cfg.Valid) {t : Nat} (ht : legalLength w.st.cfg t = true) :
    ∃ w', w.eraseImage t = .ok w' :=
  Work.eraseSectors_ok (eraseSet_lt hc ht)

/-- Everything `eraseImage` can do. -/
theorem Work.eraseImage_eq_ok {w w' : Work} {t : Nat} (h : w.eraseImage t = .ok w') :
    w.ErasedBy (eraseSet w.st.cfg t) w' :=
  Work.eraseSectors_eq_ok h

/-- The chunk loop reads the bytes from offset k to the end, whatever the chunk (R301). -/
theorem State.crcChunks_eq {s : State} (hpos : 1 ≤ s.cfg.crcChunk) {len : Nat}
    (hle : s.cfg.imageBase + len ≤ s.cfg.flashSize) :
    ∀ fuel k v, k ≤ len → len ≤ k + fuel →
      s.crcChunks len fuel k v = .ok (crc32Update s.cfg v (bytesAt s.flashByte (s.cfg.imageBase + k) (len - k))) := by
  intro fuel
  induction fuel with
  | zero =>
    intro k v hk hf
    have : len - k = 0 := by omega
    simp [State.crcChunks, this, bytesAt, crc32Update]
  | succ fuel ih =>
    intro k v hk hf
    simp only [State.crcChunks]
    split
    · rename_i hlt
      rw [State.memRead_ok (by omega)]
      by_cases hlast : k + s.cfg.crcChunk ≤ len
      · rw [Nat.min_eq_left (by omega)]
        simp only
        rw [ih _ _ (by omega) (by omega), ← crc32Update_append, ← Nat.add_assoc s.cfg.imageBase,
          ← bytesAt_add]
        congr 3
        omega
      · rw [Nat.min_eq_right (by omega)]
        simp only
        cases fuel with
        | zero => rfl
        | succ fuel =>
          simp only [State.crcChunks]
          rw [if_neg (by omega)]
    · rename_i hge
      have : len - k = 0 := by omega
      simp [this, bytesAt, crc32Update]

/-- R301: `crc_flash(len)` is `crc32(MemRead(IMAGE_BASE, len))`, whatever the chunk. -/
theorem State.crcFlash_ok {s : State} (hpos : 1 ≤ s.cfg.crcChunk) {len : Nat}
    (hle : s.cfg.imageBase + len ≤ s.cfg.flashSize) :
    s.crcFlash len = .ok (crc32 s.cfg (bytesAt s.flashByte s.cfg.imageBase len)) := by
  unfold State.crcFlash
  rw [State.crcChunks_eq hpos hle len 0 s.cfg.crcInit (by omega) (by omega)]
  rfl

/-- The header lies in the flash. -/
theorem State.magicOk_ok {s : State} (hc : s.cfg.Valid) :
    s.magicOk = .ok (bytesAt s.flashByte (s.cfg.imageBase + s.cfg.hdrMagicOff) s.cfg.hdrMagicLen == s.cfg.imageMagic) := by
  have h1 := hc.magic_in_header
  have h2 := hc.header_le_max
  have h3 := hc.image_in_flash
  unfold State.magicOk
  rw [State.memRead_ok (by omega)]

theorem State.imageLen_ok {s : State} (hc : s.cfg.Valid) :
    s.imageLen = .ok (rd32 (bytesAt s.flashByte (s.cfg.imageBase + s.cfg.hdrLenOff) 4) 0) := by
  have h2 := hc.header_le_max
  have h3 := hc.image_in_flash
  unfold Config.headerMin at h2
  unfold State.imageLen
  rw [State.memRead_ok (by omega)]

/-- `hdr_ok(t)` tests what R303 says. -/
theorem State.hdrOk_ok {s : State} (hc : s.cfg.Valid) (t : U32) :
    ∃ b, s.hdrOk t = .ok b ∧ (b = true ↔ HeaderGood s.cfg s.flashByte t) := by
  unfold State.hdrOk
  rw [State.magicOk_ok hc, State.imageLen_ok hc]
  exact ⟨_, rfl, by simp [HeaderGood]⟩

/-- The CRC over a legal image never faults. -/
theorem State.crcFlash_legal {s : State} (hc : s.cfg.Valid) {t : Nat} (ht : legalLength s.cfg t = true) :
    s.crcFlash t = .ok (crc32 s.cfg (bytesAt s.flashByte s.cfg.imageBase t)) := by
  have h := hc.image_in_flash
  simp only [legalLength, decide_eq_true_eq] at ht
  exact State.crcFlash_ok hc.crcChunk_pos (by omega)

/-- A block of a legal image lies in the image, hence in the flash (R85, R302). -/
theorem block_in_image {c : Config} {t idx : Nat} (hidx : idx < blocks c t) (hb : 1 ≤ c.blockSize) :
    idx * c.blockSize + blockLen c t idx ≤ t ∧ 1 ≤ blockLen c t idx := by
  have hlt : idx * c.blockSize < t := by
    unfold blocks ceilDiv at hidx
    have h1 := Nat.lt_iff_add_one_le.1 hidx
    rw [Nat.le_div_iff_mul_le (by omega), Nat.add_mul] at h1
    omega
  unfold blockLen
  omega

end Sys2Proof.Machine
end

