-- ==== Sys2Proof/Laws/Frame.lean ====
section
/-! SUPPORT. The frame codec: what the decoder answers from the first marker on, and that the parser reads every
message the encoder lays out. -/

namespace Sys2Proof.Machine

/-! The decoder. -/

/-- With no marker in the buffer everything is noise (R252, first line). -/
theorem decodeFrame_noise {c : Config} {b : Bytes} (h : ∀ x ∈ b, x ≠ c.startMarker) :
    decodeFrame c b = .bare .incomplete b.length := by
  have : b.findIdx? (fun x => x == c.startMarker) = none := by
    rw [List.findIdx?_eq_none_iff]
    intro x hx
    simp [h x hx]
  simp [decodeFrame, this]

/-- The first marker stands after the noise. -/
theorem findIdx_marker {c : Config} {noise rest : Bytes} (h : ∀ x ∈ noise, x ≠ c.startMarker) :
    (noise ++ c.startMarker :: rest).findIdx? (fun x => x == c.startMarker) = some noise.length := by
  induction noise with
  | nil => simp [List.findIdx?_cons]
  | cons x xs ih =>
    have hx : x ≠ c.startMarker := h x (by simp)
    have hxs := ih (fun y hy => h y (by simp [hy]))
    rw [List.cons_append, List.findIdx?_cons]
    simp [hx, hxs]

/-- From the first marker on, R252's other lines decide. -/
theorem decodeFrame_marker {c : Config} {noise rest : Bytes} (h : ∀ x ∈ noise, x ≠ c.startMarker) :
    decodeFrame c (noise ++ c.startMarker :: rest) = decodeAt c (noise ++ c.startMarker :: rest) noise.length := by
  simp [decodeFrame, findIdx_marker h]

/-- A buffer has no marker, or noise and then a first marker. -/
theorem noise_cases (c : Config) (b : Bytes) :
    (∀ x ∈ b, x ≠ c.startMarker) ∨
      ∃ noise rest, b = noise ++ c.startMarker :: rest ∧ ∀ x ∈ noise, x ≠ c.startMarker := by
  induction b with
  | nil => exact .inl (by simp)
  | cons x xs ih =>
    by_cases hx : x = c.startMarker
    · exact .inr ⟨[], xs, by simp [hx], by simp⟩
    · rcases ih with hn | ⟨noise, rest, rfl, hn⟩
      · exact .inl (by simpa [hx] using hn)
      · exact .inr ⟨x :: noise, rest, by simp, by simpa [hx] using hn⟩

/-- A header that is not all there. -/
theorem decodeAt_short {c : Config} {noise rest : Bytes} (h : rest.length < 3) :
    decodeAt c (noise ++ c.startMarker :: rest) noise.length = .bare .incomplete noise.length := by
  unfold decodeAt
  rw [if_pos (by simp; omega)]

/-- The payload length of a header, as a number. -/
theorem rd16_pair (lo hi : Byte) (rest : Bytes) : (rd16 (lo :: hi :: rest) 0).toNat = lo.toNat + 256 * hi.toNat := by
  have h1 := lo.isLt
  have h2 := hi.isLt
  simp [rd16, byteAt]
  omega

/-- A whole header: the length above MTU, the frame not all there, and the checksum's two outcomes. -/
theorem decodeAt_header {c : Config} {noise rest : Bytes} {t lo hi : Byte} :
    decodeAt c (noise ++ c.startMarker :: t :: lo :: hi :: rest) noise.length =
      if c.mtu < lo.toNat + 256 * hi.toNat then .bare .invalid (noise.length + 1)
      else if rest.length < lo.toNat + 256 * hi.toNat + 1 then .bare .incomplete noise.length
      else if cksum (t :: lo :: hi :: rest.take (lo.toNat + 256 * hi.toNat)) =
          byteAt rest (lo.toNat + 256 * hi.toNat) then
        { st := .ok, consumed := noise.length + 5 + (lo.toNat + 256 * hi.toNat), type := t,
          payload := rest.take (lo.toNat + 256 * hi.toNat) }
      else
        { st := .cksumBad, consumed := noise.length + 5 + (lo.toNat + 256 * hi.toNat), type := t, payload := [] } := by
  have hn : (rd16 (noise ++ c.startMarker :: t :: lo :: hi :: rest) (noise.length + 2)).toNat =
      lo.toNat + 256 * hi.toNat := by
    rw [rd16_append, ← rd16_pair lo hi rest]
    rfl
  have ht : byteAt (noise ++ c.startMarker :: t :: lo :: hi :: rest) (noise.length + 1) = t := by
    rw [byteAt_append_right]; rfl
  generalize hN : lo.toNat + 256 * hi.toNat = n at *
  have hk : byteAt (noise ++ c.startMarker :: t :: lo :: hi :: rest) (noise.length + 4 + n) = byteAt rest n := by
    rw [Nat.add_assoc, byteAt_append_right, Nat.add_comm 4 n]; rfl
  have hp : slice (noise ++ c.startMarker :: t :: lo :: hi :: rest) (noise.length + 4) (noise.length + 4 + n) =
      rest.take n := by
    rw [slice, ← List.drop_drop, List.drop_left]
    simp
  have hs : slice (noise ++ c.startMarker :: t :: lo :: hi :: rest) (noise.length + 1) (noise.length + 4 + n) =
      t :: lo :: hi :: rest.take n := by
    have : noise.length + 4 + n - (noise.length + 1) = n + 3 := by omega
    rw [slice, ← List.drop_drop, List.drop_left, this]
    simp
  unfold decodeAt
  simp only [hn, ht, hk, hp, hs]
  rw [if_neg (by simp)]
  have hl : ((noise ++ c.startMarker :: t :: lo :: hi :: rest).length - noise.length < n + 5) ↔ rest.length < n + 1 := by
    simp
  simp only [hl]

/-- The frame R251 lays out, byte by byte. -/
theorem encodeFrame_eq (c : Config) (t : Byte) (p : Bytes) :
    encodeFrame c t p = c.startMarker :: t :: BitVec.ofNat 8 p.length :: BitVec.ofNat 8 (p.length / 256) ::
      (p ++ [cksum (t :: BitVec.ofNat 8 p.length :: BitVec.ofNat 8 (p.length / 256) :: p)]) := by
  have h : le16 (lenOf p) = [BitVec.ofNat 8 p.length, BitVec.ofNat 8 (p.length / 256)] := by
    rw [le16_eq]
    congr 1
    · apply BitVec.eq_of_toNat_eq; simp [lenOf]
    · congr 1; apply BitVec.eq_of_toNat_eq; simp [lenOf]; omega
  simp [encodeFrame, frameHeader, h]

/-- R260: a frame that follows no noise is decoded whole, whatever follows it. -/
theorem decodeFrame_encodeFrame {c : Config} (hc : c.Valid) (t : Byte) {p : Bytes} (hp : p.length ≤ c.mtu) (after : Bytes) :
    decodeFrame c (encodeFrame c t p ++ after) =
      { st := .ok, consumed := p.length + 5, type := t, payload := p } := by
  have hm := hc.mtu_le
  have hl : (BitVec.ofNat 8 p.length).toNat + 256 * (BitVec.ofNat 8 (p.length / 256)).toNat = p.length := by
    simp; omega
  have := decodeFrame_marker (c := c) (noise := []) (rest := (encodeFrame c t p ++ after).tail) (by simp)
  rw [encodeFrame_eq] at this ⊢
  simp only [List.nil_append, List.cons_append, List.tail_cons] at this ⊢
  rw [this]
  have h2 := decodeAt_header (c := c) (noise := []) (t := t) (lo := BitVec.ofNat 8 p.length)
    (hi := BitVec.ofNat 8 (p.length / 256))
    (rest := p ++ [cksum (t :: BitVec.ofNat 8 p.length :: BitVec.ofNat 8 (p.length / 256) :: p)] ++ after)
  rw [hl] at h2
  rw [List.nil_append] at h2
  rw [List.length_nil] at h2 ⊢
  rw [h2, if_neg (by omega), if_neg (by simp), if_pos]
  · simp; omega
  · have h3 := byteAt_append_right p ([cksum (t :: BitVec.ofNat 8 p.length :: BitVec.ofNat 8 (p.length / 256) :: p)] ++ after) 0
    rw [Nat.add_zero] at h3
    rw [List.append_assoc, h3]
    simp [byteAt]

/-! The parser. -/

/-- What the parser answers for a frame whose type is the tag of `k`: the message of its payload ... -/
theorem parseMsg_tag {c : Config} (hc : c.Valid) {k : Tag} {p : Bytes} {m : Msg} (h : parsePayload k p = some m) :
    parseMsg c (c.tagByte k) p = .message m := by
  simp [parseMsg, tagOf_tagByte hc, h]

/-- ... or MALFORMED. -/
theorem parseMsg_tag_malformed {c : Config} (hc : c.Valid) {k : Tag} {p : Bytes} (h : parsePayload k p = none) :
    parseMsg c (c.tagByte k) p = .malformed := by
  simp [parseMsg, tagOf_tagByte hc, h]

/-- A type that is no OTA tag (R254, last line). -/
theorem parseMsg_other {c : Config} {t : Byte} (h : ∀ k, c.tagByte k ≠ t) (p : Bytes) : parseMsg c t p = .other := by
  simp [parseMsg, tagOf_eq_none.mpr h]

/-- The payload of a message is parsed back to it (R140-R149, R254). -/
theorem parsePayload_payload {m : Msg} (h : messageOk m) : parsePayload m.tag m.payload = some m := by
  cases m with
  | notify t p =>
    have h2 := rd16_append (le32 t) (le16 p) 0
    have h3 := rd16_le16 p []
    simp only [le32_length, List.append_nil] at h2 h3
    simp [Msg.tag, Msg.payload, parsePayload, h2, h3]
  | blockRequest i =>
    have := rd32_le32 i []
    simp only [List.append_nil] at this
    simp [Msg.tag, Msg.payload, parsePayload, this]
  | blockResponse i n b crc =>
    have hb : b.length = n.toNat := h
    have h1 := rd32_le32 i (le16 n ++ b ++ le32 crc)
    have h2 := rd16_append (le32 i) (le16 n ++ b ++ le32 crc) 0
    have h3 := rd16_le16 n (b ++ le32 crc)
    have h4 := rd32_append (le32 i ++ le16 n ++ b) (le32 crc) 0
    have h5 := rd32_le32 crc []
    have h6 := slice_append (le32 i ++ le16 n) (b ++ le32 crc) n.toNat
    simp only [le32_length, le16_length, List.length_append, List.append_nil, List.append_assoc, Nat.add_zero] at h1 h2 h3 h4 h5 h6
    rw [h3] at h2
    rw [h5] at h4
    have h7 : (b ++ le32 crc).take n.toNat = b := by rw [← hb]; simp
    rw [h7] at h6
    rw [hb, show 4 + (2 + n.toNat) = 6 + n.toNat by omega] at h4
    simp only [Msg.tag, Msg.payload, parsePayload, List.append_assoc, h1, h2, h4, List.length_append, le32_length,
      le16_length]
    rw [if_neg (by omega), if_pos (by omega)]
    simp [h6]
  | abortRequest => rfl
  | abortResponse => rfl
  | upgradeRequest => rfl
  | upgradeResponse => rfl
  | statusRequest => rfl
  | statusResponse f q m =>
    have h2 := rd32_append [f, q] (le32 m) 0
    have h3 := rd32_le32 m []
    simp only [List.length_cons, List.length_nil, List.append_nil, Nat.add_zero, Nat.zero_add] at h2 h3
    simp only [Msg.tag, Msg.payload, parsePayload, List.length_append, List.length_cons, List.length_nil, le32_length,
      Nat.reduceAdd, h2, h3]
    simp only [List.cons_append, List.nil_append, byteAt_cons_zero, byteAt_cons_succ, true_and]
    exact if_pos h

/-- A message's frame, handed to the parser, gives the message. -/
theorem parseMsg_payload {c : Config} (hc : c.Valid) {m : Msg} (h : messageOk m) :
    parseMsg c (c.tagByte m.tag) m.payload = .message m :=
  parseMsg_tag hc (parsePayload_payload h)

/-- What the parser reads is a message of the tag's kind that it accepts. -/
theorem parsePayload_eq_some {k : Tag} {p : Bytes} {m : Msg} (h : parsePayload k p = some m) :
    m.tag = k ∧ messageOk m := by
  unfold parsePayload at h
  split at h <;> (try (split at h)) <;> (try cases h) <;> (try exact ⟨rfl, trivial⟩)
  · simp only [Option.ite_none_right_eq_some] at h
    obtain ⟨hl, rfl⟩ : _ ∧ _ := by simpa using h
    refine ⟨rfl, ?_⟩
    show (slice p 6 (6 + (rd16 p 4).toNat)).length = _
    rw [slice_length]
    omega
  · rename_i hle
    exact ⟨rfl, hle.2⟩

end Sys2Proof.Machine
end

