-- ==== Sys2Proof/Laws/Ota.lean ====
section
/-! SUPPORT. The OTA sequencer: what each of its procedures answers, as one equation of the state it was given. -/

namespace Sys2Proof.Machine

/-! Dispatch. -/

/-- A message of the parser reaches the rule of its kind (R307, R306). -/
theorem otaRx_message {s : State} (hb : s.otaBooted = true) {t : Byte} {p : Bytes} {m : Msg}
    (h : parseMsg s.cfg t p = .message m) (src : Addr) : otaRx t src p s = dispatchMsg src m s := by
  simp [otaRx, otaGuard, hb, h]

/-- Everything OTA_RX can do past its guard: a bare status, or the rule of a message (R307). -/
theorem otaRx_cases (t : Byte) (src : Addr) (p : Bytes) (s : State) :
    (∃ st, st ≠ .ok ∧ otaRx t src p s = .next (s.record { st := st })) ∨
      (s.otaBooted = true ∧ ∃ m, parseMsg s.cfg t p = .message m ∧ otaRx t src p s = dispatchMsg src m s) := by
  unfold otaRx otaGuard
  split
  · rename_i hb
    split
    · exact .inl ⟨.malformed, by decide, rfl⟩
    · exact .inl ⟨.other, by decide, rfl⟩
    · rename_i m hm
      exact .inr ⟨hb, m, hm, rfl⟩
  · exact .inl ⟨.uninit, by decide, rfl⟩

/-- The OTA_RX row that a tag selects runs OTA_RX with that tag (R306, R307). -/
theorem exec_rxInstr (c : Config) (t : Byte) (src : Addr) (p : Bytes) (s : State) (hc : s.cfg = c) :
    exec (rxInstr c t src p) s = otaRx t src p s := by
  unfold rxInstr
  split <;> rename_i h <;>
    (try (have h := tagByte_of_tagOf h; simp only [Config.tagByte] at h; subst hc; subst h; rfl))
  rfl

/-! Erasing an image. -/

/-- The flash `f` is that of `s` with the sectors of a list erased. -/
structure State.ErasedTo (s : State) (sectors : List Nat) (f : Memory) : Prop where
  read : ∀ a, Memory.read s.flashUnlisted f a =
    if a / s.cfg.sectorSize ∈ sectors then s.cfg.flashErased else s.flashByte a
  inv : FlashInv s → FlashInv { s with flash := f }

/-- Erasing a legal image: only the flash changes, and the effects are the erases in order (R304). -/
theorem Work.eraseImage_eq {w : Work} (hc : w.st.cfg.Valid) {t : Nat} (ht : legalLength w.st.cfg t = true) :
    ∃ f, w.eraseImage t = .ok
        { st := { w.st with flash := f }, effects := w.effects ++ (eraseSet w.st.cfg t).map Effect.flashErase } ∧
      w.st.ErasedTo (eraseSet w.st.cfg t) f := by
  obtain ⟨w', hw⟩ := Work.eraseImage_ok hc ht
  have h := Work.eraseImage_eq_ok hw
  have hst := h.st
  refine ⟨w'.st.flash, ?_, ?_, ?_⟩
  · rw [hw]
    obtain ⟨st, effects⟩ := w'
    simp only at hst
    rw [← hst, ← h.effects]
  · intro a
    have := h.flashByte hc.sectorSize_pos a
    rw [hst] at this
    exact this
  · intro hi
    have := h.flashInv hi
    rwa [hst] at this

/-- In or out of EraseSet(t), as addresses (R84). -/
theorem inEraseSet_iff {c : Config} {t a : Nat} : InEraseSet c t a ↔ a / c.sectorSize ∈ eraseSet c t :=
  mem_eraseSet.symm

/-! The client. -/

/-- An accepted Notify (R400). -/
theorem clientNotify_eq {s : State} (hc : s.cfg.Valid) {total : U32} (ht : legalLength s.cfg total.toNat = true)
    (src : Addr) (period : U16) :
    let o : OtaRecord :=
      { notifiedOta s.cfg s.ota src total period with downloading := .downloading, currentBlock := 0 }
    ∃ f, clientNotify src total period s =
        .next (({ s with ota := o, nv := some o, tmrArmed := true, tmrDelay := 0, flash := f } : State).record
          { st := .ok
            effects := (eraseSet s.cfg total.toNat).map Effect.flashErase ++ [.nvSave o, .timerArm 0] }) ∧
      s.ErasedTo (eraseSet s.cfg total.toNat) f := by
  obtain ⟨f, hf, he⟩ := Work.eraseImage_eq (w := s.work.setOta (notifiedOta s.cfg s.ota src total period))
    (t := total.toNat) hc ht
  refine ⟨f, ?_, ⟨he.read, fun hi => ⟨(he.inv ⟨hi.wf, hi.inside⟩).wf, (he.inv ⟨hi.wf, hi.inside⟩).inside⟩⟩⟩
  unfold clientNotify
  rw [if_pos ht, hf]
  simp [Work.setOta, Work.persist, Work.timerArm, State.record, State.work, notifiedOta]

/-- `Verify()` on an image both of whose checks pass (R405). -/
theorem verify_succeeds {w : Work} (hc : w.st.cfg.Valid) (ht : legalLength w.st.cfg w.st.ota.totalBytes.toNat = true)
    (hv : Verifies w.st.cfg w.st.flashByte w.st.ota.totalBytes w.st.ota.crc) :
    verify w = .next (({ w.st with
        ota := { w.st.ota with downloading := .upgradeRequesting }
        tmrArmed := true
        tmrDelay := w.st.cfg.upgradeRetryMs } : State).record
      { st := .ok, effects := w.effects ++ [.timerArm w.st.cfg.upgradeRetryMs, .report .verifyOk] }) := by
  obtain ⟨b, hb, hiff⟩ := State.hdrOk_ok hc w.st.ota.totalBytes
  unfold verify
  rw [hb, State.crcFlash_legal hc ht, andThen_ok, andThen_ok, if_pos ⟨hiff.2 hv.1, hv.2⟩]
  simp [verifySucceeds, Work.setOta, Work.timerArm, Work.report, Work.did, State.record]

/-- `Verify()` on an image one of whose checks fails (R405). -/
theorem verify_fails {w : Work} (hc : w.st.cfg.Valid) (ht : legalLength w.st.cfg w.st.ota.totalBytes.toNat = true)
    (hv : ¬ Verifies w.st.cfg w.st.flashByte w.st.ota.totalBytes w.st.ota.crc) :
    let o : OtaRecord := { w.st.ota with currentBlock := 0 }
    let delay : U32 := w.st.ota.requestPeriodMs.zeroExtend 32
    ∃ f, verify w = .next (({ w.st with ota := o, nv := some o, tmrArmed := true, tmrDelay := delay, flash := f } :
          State).record
        { st := .ok
          effects := w.effects ++ (eraseSet w.st.cfg w.st.ota.totalBytes.toNat).map Effect.flashErase ++
            [.nvSave o, .timerArm delay, .report .verifyFailed] }) ∧
      w.st.ErasedTo (eraseSet w.st.cfg w.st.ota.totalBytes.toNat) f := by
  obtain ⟨b, hb, hiff⟩ := State.hdrOk_ok hc w.st.ota.totalBytes
  obtain ⟨f, hf, he⟩ := Work.eraseImage_eq (w := w.setOta { w.st.ota with currentBlock := 0 })
    (t := w.st.ota.totalBytes.toNat) hc ht
  refine ⟨f, ?_, ⟨he.read, fun hi => ⟨(he.inv ⟨hi.wf, hi.inside⟩).wf, (he.inv ⟨hi.wf, hi.inside⟩).inside⟩⟩⟩
  unfold verify
  rw [hb, State.crcFlash_legal hc ht, andThen_ok, andThen_ok, if_neg (fun h => hv ⟨hiff.1 h.1, h.2⟩)]
  unfold verifyFails
  rw [hf]
  simp [Work.setOta, Work.persist, Work.timerArm, Work.report, Work.did, State.record]

/-- The record and the effects of the checkpoint of R403. -/
theorem Work.checkpoint_eq (w : Work) :
    w.checkpoint =
      if w.st.ota.currentBlock.toNat % w.st.cfg.checkpointInterval = 0 then
        { st := { w.st with nv := some w.st.ota }, effects := w.effects ++ [.nvSave w.st.ota] }
      else w := rfl

/-- What the tests of R403 ask. -/
theorem blockAccepted_iff {c : Config} {o : OtaRecord} {idx : U32} {n : U16} :
    blockAccepted c o idx n = true ↔
      o.downloading = .downloading ∧ o.currentBlock.toNat < o.totalBlocks.toNat ∧ idx = o.currentBlock ∧
        n.toNat = blockLen c o.totalBytes.toNat idx.toNat := by
  simp [blockAccepted, and_assoc]

end Sys2Proof.Machine
end

