-- ==== Sys2Proof/Laws/Ring.lean ====
section
/-! SUPPORT. The ring buffer: its counts in closed form, and what each index and storage update does to the stored
bytes. -/

namespace Sys2Proof.Machine

/-- Two indices less than a capacity apart have different slots. -/
theorem add_mod_ne {cap : Nat} (x : Nat) {i j : Nat} (hi : i < cap) (hj : j < cap) (hij : i ≠ j) :
    (x + i) % cap ≠ (x + j) % cap := by
  intro h
  have h1 : (x + i) ≡ (x + j) [MOD cap] := h
  have h2 : i ≡ j [MOD cap] := Nat.ModEq.add_left_cancel' x h1
  unfold Nat.ModEq at h2
  rw [Nat.mod_eq_of_lt hi, Nat.mod_eq_of_lt hj] at h2
  exact hij h2

/-- `data_size` without the integer division (R33). -/
theorem State.dataSize_eq {s : State} (hb : s.rbBegin < s.rbCap.toNat) (he : s.rbEnd < s.rbCap.toNat) :
    s.dataSize = if s.rbBegin ≤ s.rbEnd then s.rbEnd - s.rbBegin else s.rbCap.toNat + s.rbEnd - s.rbBegin := by
  unfold State.dataSize
  split
  · rw [Int.emod_eq_of_lt (by omega) (by omega)]
    omega
  · rw [← Int.add_emod_right, Int.emod_eq_of_lt (by omega) (by omega)]
    omega

/-- `data_size ≤ rb_cap - 1` (R33). -/
theorem State.dataSize_lt {s : State} (hb : s.rbBegin < s.rbCap.toNat) (he : s.rbEnd < s.rbCap.toNat) :
    s.dataSize < s.rbCap.toNat := by
  rw [State.dataSize_eq hb he]
  split <;> omega

/-- Where the stored bytes end. -/
theorem State.begin_add_dataSize {s : State} (hb : s.rbBegin < s.rbCap.toNat) (he : s.rbEnd < s.rbCap.toNat) :
    (s.rbBegin + s.dataSize) % s.rbCap.toNat = s.rbEnd := by
  rw [State.dataSize_eq hb he]
  split
  · rw [show s.rbBegin + (s.rbEnd - s.rbBegin) = s.rbEnd by omega, Nat.mod_eq_of_lt he]
  · rw [show s.rbBegin + (s.rbCap.toNat + s.rbEnd - s.rbBegin) = s.rbEnd + s.rbCap.toNat by omega, Nat.add_mod_right,
      Nat.mod_eq_of_lt he]

/-- The size of a buffer whose end lies n slots after its begin. -/
theorem State.dataSize_of_end {s : State} {n : Nat} (hn : n < s.rbCap.toNat) (hb : s.rbBegin < s.rbCap.toNat)
    (he : s.rbEnd = (s.rbBegin + n) % s.rbCap.toNat) : s.dataSize = n := by
  have hlt : s.rbEnd < s.rbCap.toNat := by
    rw [he]
    exact Nat.mod_lt _ (by omega)
  by_contra hne
  exact add_mod_ne s.rbBegin (State.dataSize_lt hb hlt) hn hne (by rw [State.begin_add_dataSize hb hlt, he])

@[simp] theorem State.frontBytes_length (s : State) (n : Nat) : (s.frontBytes n).length = n := by
  simp [State.frontBytes]

@[simp] theorem State.storedBytes_length (s : State) : s.storedBytes.length = s.dataSize := by
  simp [State.storedBytes]

/-- The first n stored bytes are a prefix of the stored bytes. -/
theorem State.frontBytes_eq_take {s : State} {n : Nat} (h : n ≤ s.dataSize) : s.frontBytes n = s.storedBytes.take n := by
  unfold State.storedBytes State.frontBytes
  rw [← List.map_take, List.take_range, Nat.min_eq_left h]

@[simp] theorem rbWriteBytes_length (st : List Byte) (cap start : Nat) (v : Bytes) :
    (rbWriteBytes st cap start v).length = st.length := by
  induction v generalizing st start with
  | nil => rfl
  | cons b bs ih => simp [rbWriteBytes, ih]

/-- A slot no byte is written to keeps its byte (R81). -/
theorem rbWriteBytes_other {st : List Byte} {cap start k : Nat} {v : Bytes}
    (h : ∀ i, i < v.length → k ≠ (start + i) % cap) : (rbWriteBytes st cap start v).getD k 0 = st.getD k 0 := by
  induction v generalizing st start with
  | nil => rfl
  | cons b bs ih =>
    simp only [rbWriteBytes]
    rw [ih]
    · have h0 := h 0 (by simp)
      simp only [Nat.add_zero] at h0
      simp [List.getD, Ne.symm h0]
    · intro i hi
      have := h (i + 1) (by simp [hi])
      rwa [show start + (i + 1) = start + 1 + i by omega] at this

/-- A slot that is written to holds the byte written (R81). -/
theorem rbWriteBytes_written {st : List Byte} {cap start : Nat} {v : Bytes} (hv : v.length ≤ cap)
    (hst : cap ≤ st.length) {i : Nat} (hi : i < v.length) :
    (rbWriteBytes st cap start v).getD ((start + i) % cap) 0 = v.getD i 0 := by
  induction v generalizing st start i with
  | nil => simp at hi
  | cons b bs ih =>
    simp only [List.length_cons] at hv hi
    simp only [rbWriteBytes]
    cases i with
    | zero =>
      rw [rbWriteBytes_other]
      · have : start % cap < st.length := lt_of_lt_of_le (Nat.mod_lt _ (by omega)) hst
        simp [List.getD, this]
      · intro j hj
        have := add_mod_ne (cap := cap) start (i := 0) (j := j + 1) (by omega) (by omega) (by omega)
        rwa [show start + (j + 1) = start + 1 + j by omega] at this
    | succ i =>
      have := ih (st := st.set (start % cap) b) (start := start + 1) (i := i) (by omega) (by simpa using hst) (by omega)
      rw [show start + (i + 1) = start + 1 + i by omega, this]
      rfl

/-- An initialised ring buffer as `RingInv` has it, in one place. -/
theorem RingInv.bounds {s : State} (h : RingInv s) (hi : s.rbInited = true) :
    s.rbBegin < s.rbCap.toNat ∧ s.rbEnd < s.rbCap.toNat ∧ s.rbCap.toNat ≤ s.rbStorage.length :=
  ⟨h.beginLt hi, h.endLt hi, by rw [h.storage]; exact h.capMax hi⟩

/-- R34 and R210: `data_size + free_space = rb_cap - 1`. -/
theorem RingInv.conservation {s : State} (h : RingInv s) (hi : s.rbInited = true) :
    s.dataSize + s.freeSpace = s.rbCap.toNat - 1 := by
  obtain ⟨hb, he, -⟩ := h.bounds hi
  have := State.dataSize_lt hb he
  unfold State.freeSpace
  omega

/-- What a push that fits does to the count. -/
theorem State.pushBytes_dataSize {s : State} (h : RingInv s) (hi : s.rbInited = true) {data : Bytes}
    (hd : data.length ≤ s.freeSpace) : (s.pushBytes data).dataSize = s.dataSize + data.length := by
  obtain ⟨hb, he, -⟩ := h.bounds hi
  have hc := h.conservation hi
  refine State.dataSize_of_end (s := s.pushBytes data) ?_ hb ?_
  · simp only [State.pushBytes_rbCap]
    omega
  · simp only [State.pushBytes_rbEnd, State.pushBytes_rbBegin, State.pushBytes_rbCap]
    rw [← State.begin_add_dataSize hb he, Nat.mod_add_mod, Nat.add_assoc]

/-- R211: a push that fits appends its bytes to the stored bytes. -/
theorem State.pushBytes_storedBytes {s : State} (h : RingInv s) (hi : s.rbInited = true) {data : Bytes}
    (hd : data.length ≤ s.freeSpace) : (s.pushBytes data).storedBytes = s.storedBytes ++ data := by
  obtain ⟨hb, he, hst⟩ := h.bounds hi
  have hc := h.conservation hi
  have hsize := State.pushBytes_dataSize h hi hd
  have hend := State.begin_add_dataSize hb he
  apply List.ext_getElem
  · simp [hsize]
  · intro i h1 h2
    simp only [State.storedBytes_length, hsize] at h1
    simp only [State.storedBytes, State.frontBytes, State.slot, State.rbRead, List.getElem_map, List.getElem_range,
      State.pushBytes_rbCap, State.pushBytes_rbBegin, State.pushBytes_rbStorage, List.getElem_append, List.length_map,
      List.length_range]
    split
    · rename_i hlt
      refine rbWriteBytes_other fun j hj => ?_
      rw [← hend, Nat.mod_add_mod, Nat.add_assoc]
      exact add_mod_ne _ (by omega) (by omega) (by omega)
    · rename_i hge
      have hw := rbWriteBytes_written (st := s.rbStorage) (cap := s.rbCap.toNat) (start := s.rbEnd) (v := data)
        (by omega) hst (i := i - s.dataSize) (by omega)
      rw [← hend, Nat.mod_add_mod, show s.rbBegin + s.dataSize + (i - s.dataSize) = s.rbBegin + i by omega, hend] at hw
      rw [hw]
      simp [List.getD, List.getElem?_eq_getElem (show i - s.dataSize < data.length by omega)]

/-- What a pop does to the count. -/
theorem State.popBytes_dataSize {s : State} (h : RingInv s) (hi : s.rbInited = true) {n : Nat} (hn : n ≤ s.dataSize) :
    (s.popBytes n).dataSize = s.dataSize - n := by
  obtain ⟨hb, he, -⟩ := h.bounds hi
  have hlt := State.dataSize_lt hb he
  refine State.dataSize_of_end (s := s.popBytes n) ?_ ?_ ?_
  · simp only [State.popBytes_rbCap]
    omega
  · simp only [State.popBytes_rbBegin, State.popBytes_rbCap]
    exact Nat.mod_lt _ (by omega)
  · simp only [State.popBytes_rbEnd, State.popBytes_rbBegin, State.popBytes_rbCap]
    rw [Nat.mod_add_mod, Nat.add_assoc, show n + (s.dataSize - n) = s.dataSize by omega, State.begin_add_dataSize hb he]

/-- R211: a pop removes the first bytes of the stored bytes. -/
theorem State.popBytes_storedBytes {s : State} (h : RingInv s) (hi : s.rbInited = true) {n : Nat} (hn : n ≤ s.dataSize) :
    (s.popBytes n).storedBytes = s.storedBytes.drop n := by
  have hsize := State.popBytes_dataSize h hi hn
  apply List.ext_getElem
  · simp [hsize]
  · intro i h1 h2
    simp only [State.storedBytes, State.frontBytes, State.slot, State.rbRead, List.getElem_map, List.getElem_range,
      List.getElem_drop, State.popBytes_rbBegin, State.popBytes_rbCap, State.popBytes_rbStorage, Nat.mod_add_mod,
      Nat.add_assoc]

/-- An update that touches no ring field keeps `RingInv`. -/
theorem RingInv.of_eq {s t : State} (h : RingInv s) (hcfg : t.cfg = s.cfg) (hi : t.rbInited = s.rbInited)
    (hc : t.rbCap = s.rbCap) (hb : t.rbBegin = s.rbBegin) (he : t.rbEnd = s.rbEnd) (hst : t.rbStorage = s.rbStorage) :
    RingInv t := by
  constructor
  · rw [hst, hcfg, h.storage]
  · rw [hi, hc]; exact h.capPos
  · rw [hi, hc, hcfg]; exact h.capMax
  · rw [hi, hc, hb]; exact h.beginLt
  · rw [hi, hc, he]; exact h.endLt

theorem RingInv.initRing {s : State} (h : RingInv s) {cap : U16} (hc : capacityLegal s.cfg cap = true) :
    RingInv (s.initRing cap) := by
  simp only [capacityLegal, decide_eq_true_eq] at hc
  exact ⟨h.storage, fun _ => hc.1, fun _ => hc.2, fun _ => hc.1, fun _ => hc.1⟩

theorem RingInv.setIndices_zero {s : State} (h : RingInv s) : RingInv (s.setIndices 0 0) :=
  ⟨h.storage, h.capPos, h.capMax, h.capPos, h.capPos⟩

theorem RingInv.pushBytes {s : State} (h : RingInv s) (data : Bytes) : RingInv (s.pushBytes data) :=
  ⟨by simp [h.storage], h.capPos, h.capMax, h.beginLt, fun hi => Nat.mod_lt _ (h.capPos hi)⟩

theorem RingInv.popBytes {s : State} (h : RingInv s) (n : Nat) : RingInv (s.popBytes n) :=
  ⟨h.storage, h.capPos, h.capMax, fun hi => Nat.mod_lt _ (h.capPos hi), h.endLt⟩

theorem RingInv.resetRegisters (s : State) : RingInv s.resetRegisters := by
  constructor <;> simp

/-- An empty buffer stores nothing (R31). -/
theorem State.storedBytes_of_empty {s : State} (h : s.rbBegin = s.rbEnd) : s.storedBytes = [] := by
  apply List.eq_nil_of_length_eq_zero
  simp [State.dataSize, h]

end Sys2Proof.Machine
end

