-- ==== Sys2Proof/Laws/Step.lean ====
section
/-! SUPPORT. The step: what it does with each kind of input, and what a step that answers can have done. -/

namespace Sys2Proof.Machine

/-- Under a parameter set of R6 a step serves the next input. -/
theorem step_input {s : State} (hc : s.cfg.Valid) {i : Input} {rest : List Input} (hp : s.pending = i :: rest) :
    step s = serveInput i (s.withPending rest) := by
  unfold step
  rw [if_pos hc, hp]

/-- Everything a step that answers a next state can have been: the wait, the Platform's reset, an illegal command
answered, or an instruction run. -/
theorem step_cases {s t : State} (h : step s = .next t) :
    s.cfg.Valid ∧
      ((s.pending = [] ∧ t = s) ∨
        (∃ rest, s.pending = .reset :: rest ∧ t = (s.withPending rest).resetRegisters) ∨
        (∃ cmd rest r, s.pending = .command cmd :: rest ∧ decode s.cfg cmd = .error r ∧ r.isIllegal = true ∧
          t = (s.withPending rest).record { st := .illegal }) ∨
        (∃ cmd rest i, s.pending = .command cmd :: rest ∧ decode s.cfg cmd = .ok i ∧
          exec i (s.withPending rest) = .next t)) := by
  unfold step at h
  split at h
  · rename_i hc
    refine ⟨hc, ?_⟩
    split at h
    · rename_i hp
      exact .inl ⟨hp, by injection h with h; exact h.symm⟩
    · rename_i i rest hp
      cases i with
      | reset =>
        refine .inr (.inl ⟨rest, hp, ?_⟩)
        simpa [serveInput] using h.symm
      | command cmd =>
        simp only [serveInput, serveCommand, State.withPending_cfg] at h
        split at h
        · rename_i i hd
          exact .inr (.inr (.inr ⟨cmd, rest, i, hp, hd, h⟩))
        · rename_i r hd
          unfold rejectCommand at h
          split at h
          · rename_i hr
            refine .inr (.inr (.inl ⟨cmd, rest, r, hp, hd, hr, ?_⟩))
            simpa [State.answer, Result.status] using h.symm
          · cases h
  · cases h

end Sys2Proof.Machine
end

