-- ==== Sys2Proof/Laws/Boot.lean ====
section
/-! SUPPORT. The boot sequence: its commands are what `bootsFirst` asks for, it readies both units in either order, and
with its capacity every legal frame fits (spec/70_reset_and_hazards.md R551, R571). -/

namespace Sys2Proof.Machine

/-! The capacity. -/

theorem bootCapacityOk_iff {c : Config} {n : U16} : bootCapacityOk c n = true ↔ c.mtu + 6 ≤ n.toNat ∧ n.toNat ≤ c.rbNmax := by
  simp [bootCapacityOk]

/-- RB_INIT takes every capacity of the boot sequence (R125, R551). -/
theorem capacityLegal_of_boot {c : Config} {n : U16} (h : bootCapacityOk c n = true) : capacityLegal c n = true := by
  rw [bootCapacityOk_iff] at h
  simp only [capacityLegal, decide_eq_true_eq]
  omega

/-- R6 leaves the boot sequence a capacity, where MTU + 6 fits the 16 bits of RB_INIT's LEN. -/
theorem bootCapacity_exists {c : Config} (hc : c.Valid) (h : c.mtu + 6 < 2 ^ 16) : ∃ n, bootCapacityOk c n = true := by
  refine ⟨BitVec.ofNat 16 (c.mtu + 6), ?_⟩
  have := hc.frame_fits_ring
  rw [bootCapacityOk_iff, BitVec.toNat_ofNat, Nat.mod_eq_of_lt h]
  omega

/-! The commands. -/

theorem decode_encode_rbInit {c : Config} {n : U16} (h : capacityLegal c n = true) :
    decode c (encode c (.rbInit n)) = .ok (.rbInit n) :=
  decode_commandWord c .rbInit 0 n 0 [] (addrOk_zero c) rfl rfl (by simp [lenReject, Opcode.lenKind, h])

theorem decode_encode_otaBoot (c : Config) : decode c (encode c .otaBoot) = .ok .otaBoot :=
  decode_commandWord c .otaBoot 0 0 0 [] (addrOk_zero c) rfl rfl rfl

theorem decodesTo_iff {c : Config} {cmd : Command} {i : Instr} : decodesTo c cmd i = true ↔ decode c cmd = .ok i := by
  unfold decodesTo
  split <;> simp [*]

theorem lenField_encode_rbInit (c : Config) (n : U16) : lenField (encode c (.rbInit n)).cw = n :=
  lenField_commandWord _ _ _

theorem isBootInit_iff {c : Config} {cmd : Command} :
    isBootInit c cmd = true ↔ ∃ n, decode c cmd = .ok (.rbInit n) ∧ bootCapacityOk c n = true := by
  simp only [isBootInit, Bool.and_eq_true, decodesTo_iff]
  refine ⟨fun h => ⟨_, h⟩, ?_⟩
  rintro ⟨n, hd, hn⟩
  have hl : lenField cmd.cw = n := by
    unfold decode at hd
    split at hd
    · split at hd
      · unfold decodeWord at hd
        split at hd
        · cases hd
        · rename_i o _
          split at hd
          · split at hd
            · cases hd
            · injection hd with hd
              cases o <;> simp only [instrOf, reduceCtorEq] at hd
              · injection hd
              · unfold rxInstr at hd
                split at hd <;> cases hd
          · cases hd
      · cases hd
    · cases hd
  rw [hl]
  exact ⟨hd, hn⟩

theorem isBootOta_iff {c : Config} {cmd : Command} : isBootOta c cmd = true ↔ decode c cmd = .ok .otaBoot := decodesTo_iff

theorem isBootInit_rbInit {c : Config} {n : U16} (h : bootCapacityOk c n = true) :
    isBootInit c (encode c (.rbInit n)) = true :=
  isBootInit_iff.2 ⟨n, decode_encode_rbInit (capacityLegal_of_boot h), h⟩

theorem isBootInit_otaBoot (c : Config) : isBootInit c (encode c .otaBoot) = false := by
  rw [Bool.eq_false_iff]
  intro h
  obtain ⟨n, hd, -⟩ := isBootInit_iff.1 h
  rw [decode_encode_otaBoot] at hd
  cases hd

/-! The order. -/

/-- The boot sequence is what R551 asks for after a reset, in either order, and then any command may come. -/
theorem bootsFirst_bootInputs {c : Config} {n : U16} (h : bootCapacityOk c n = true) (order : BootOrder)
    (rest : List Input) : bootsFirst c false false (bootInputs c order n ++ rest) = bootsFirst c true true rest := by
  have ho : isBootOta c (encode c .otaBoot) = true := isBootOta_iff.2 (decode_encode_otaBoot c)
  cases order <;> simp [bootInputs, bootSequence, bootsFirst, isBootInit_rbInit h, isBootInit_otaBoot, ho]

/-- A reset may come after any queue that keeps the order, with what keeps it from a reset on. -/
theorem bootsFirst_append_reset {c : Config} {rest : List Input} (h : bootsFirst c false false rest = true)
    {queue : List Input} {r o : Bool} (hq : bootsFirst c r o queue = true) :
    bootsFirst c r o (queue ++ .reset :: rest) = true := by
  induction queue generalizing r o with
  | nil => exact h
  | cons i queue ih =>
    cases i with
    | reset => exact ih (r := false) (o := false) hq
    | command cmd =>
      simp only [List.cons_append, bootsFirst] at hq ⊢
      split
      · rename_i hb
        rw [if_pos hb] at hq
        exact ih hq
      · rename_i hb
        rw [if_neg hb] at hq
        split
        · rename_i hi
          rw [if_pos hi, Bool.and_eq_true] at hq
          rw [Bool.and_eq_true]
          exact ⟨hq.1, ih hq.2⟩
        · rename_i hi
          rw [if_neg hi, Bool.and_eq_true] at hq
          rw [Bool.and_eq_true]
          exact ⟨hq.1, ih hq.2⟩

/-- What is left of a queue after a software reset keeps the order (R550). -/
theorem bootsFirst_nextRun {c : Config} {queue : List Input} {r o : Bool} (hq : bootsFirst c r o queue = true) :
    bootsFirst c false false (nextRun queue) = true := by
  induction queue generalizing r o with
  | nil => rfl
  | cons i queue ih =>
    cases i with
    | reset => exact hq
    | command cmd =>
      simp only [bootsFirst] at hq
      simp only [nextRun]
      split at hq
      · exact ih hq
      · split at hq <;> (rw [Bool.and_eq_true] at hq; exact ih hq.2)

/-- Powering a node on keeps the order of R551. -/
theorem Node.powerOn_bootsFirst (order : BootOrder) (cap : U16) {n : Node} (h : n.st.BootsFirst) :
    (n.powerOn order cap).st.BootsFirst := by
  unfold Node.powerOn
  split
  · rename_i hc
    refine bootsFirst_append_reset ?_ h
    have := bootsFirst_bootInputs hc order []
    rwa [List.append_nil] at this
  · exact h

/-- Booting a node that a software reset has left keeps the order of R551. -/
theorem Node.boot_bootsFirst (order : BootOrder) (cap : U16) {n : Node} (h : n.st.BootsFirst) :
    (n.boot order cap).st.BootsFirst := by
  unfold Node.boot
  split
  · rename_i hc
    simp only [Bool.and_eq_true, Bool.not_eq_true', List.isEmpty_iff] at hc
    obtain ⟨⟨⟨hc, hr⟩, ho⟩, hp⟩ := hc
    have := bootsFirst_bootInputs hc order []
    simpa [State.BootsFirst, Node.issueAll, State.withPending, hr, ho, hp, bootsFirst] using this
  · exact h

/-! What the boot sequence leaves. -/

/-- RB_INIT of a legal capacity at the head of the queue. -/
theorem step_rbInit {s : State} {n : U16} {rest : List Input} (hc : s.cfg.Valid) (h : capacityLegal s.cfg n = true)
    (hp : s.pending = .command (encode s.cfg (.rbInit n)) :: rest) :
    step s = .next (((s.withPending rest).initRing n).record { st := .ok }) := by
  rw [step_input hc hp]
  simp only [serveInput, serveCommand, State.withPending_cfg, decode_encode_rbInit h, exec, execRbInit, h, if_true]
  rfl

/-- OTA_BOOT at the head of the queue, on a node that has not booted: it readies the sequencer and touches neither the
ring buffer nor the queue. -/
theorem step_otaBoot {s : State} {rest : List Input} (hc : s.cfg.Valid) (ho : s.otaBooted = false)
    (hp : s.pending = .command (encode s.cfg .otaBoot) :: rest) :
    ∃ t, step s = .next t ∧ t.otaBooted = true ∧ t.cfg = s.cfg ∧ t.pending = rest ∧ t.rbInited = s.rbInited ∧
      t.rbCap = s.rbCap ∧ t.rbBegin = s.rbBegin ∧ t.rbEnd = s.rbEnd := by
  rw [step_input hc hp]
  simp only [serveInput, serveCommand, State.withPending_cfg, decode_encode_otaBoot, exec]
  unfold execOtaBoot
  rw [if_neg (by simp [ho])]
  dsimp only
  split
  · exact ⟨_, rfl, rfl, rfl, rfl, rfl, rfl, rfl, rfl⟩
  · split <;> exact ⟨_, rfl, rfl, rfl, rfl, rfl, rfl, rfl, rfl⟩

/-- An empty buffer of the boot sequence's capacity has room for every legal frame (R571). -/
theorem freeSpace_of_boot {c : Config} {s : State} (h : bootCapacityOk c s.rbCap = true) (hb : s.rbBegin = 0)
    (he : s.rbEnd = 0) : c.mtu + 5 ≤ s.freeSpace := by
  rw [bootCapacityOk_iff] at h
  have : s.dataSize = 0 := by simp [State.dataSize, hb, he]
  unfold State.freeSpace
  omega

/-- R551: the reset and the boot sequence, in either order, are three steps, and leave both units ready: an empty ring
buffer of capacity n with room for every legal frame, and a booted sequencer. -/
theorem boot_ready {s : State} {n : U16} {order : BootOrder} {rest : List Input} (hc : s.cfg.Valid)
    (h : bootCapacityOk s.cfg n = true) (hp : s.pending = .reset :: (bootInputs s.cfg order n ++ rest)) :
    ∃ s₁ s₂ t, step s = .next s₁ ∧ step s₁ = .next s₂ ∧ step s₂ = .next t ∧ t.cfg = s.cfg ∧ t.pending = rest ∧
      t.otaBooted = true ∧ t.rbInited = true ∧ t.rbCap = n ∧ t.rbBegin = 0 ∧ t.rbEnd = 0 ∧
      t.cfg.mtu + 5 ≤ t.freeSpace := by
  have hl := capacityLegal_of_boot h
  have h1 : step s = .next (s.withPending (bootInputs s.cfg order n ++ rest)).resetRegisters := by
    rw [step_input hc hp]; rfl
  cases order with
  | ringFirst =>
    have h2 := step_rbInit (s := (s.withPending (bootInputs s.cfg .ringFirst n ++ rest)).resetRegisters) hc hl rfl
    obtain ⟨t, h3, k1, k2, k3, k4, k5, k6, k7⟩ := step_otaBoot (rest := rest)
      (s := (((s.withPending (bootInputs s.cfg .ringFirst n ++ rest)).resetRegisters.withPending
        (.command (encode s.cfg .otaBoot) :: rest)).initRing n).record { st := .ok }) hc rfl rfl
    refine ⟨_, _, t, h1, h2, h3, k2, k3, k1, k4, k5, k6, k7, ?_⟩
    rw [k2]
    exact freeSpace_of_boot (by rw [k5]; exact h) k6 k7
  | otaFirst =>
    obtain ⟨u, h2, k1, k2, k3, k4, k5, k6, k7⟩ := step_otaBoot
      (s := (s.withPending (bootInputs s.cfg .otaFirst n ++ rest)).resetRegisters) hc rfl rfl
    have k2 : u.cfg = s.cfg := k2
    have h3 := step_rbInit (s := u) (n := n) (rest := rest) (by rw [k2]; exact hc) (by rw [k2]; exact hl) (by rw [k3, k2]; rfl)
    refine ⟨_, u, _, h1, h2, h3, k2, rfl, k1, rfl, rfl, rfl, rfl, ?_⟩
    exact freeSpace_of_boot (by simpa [k2] using h) rfl rfl

/-- R571: with the boot sequence's capacity, a buffer that holds only the first bytes of a frame has room for the rest of
it. -/
theorem frame_rest_fits {s : State} (hr : RingInv s) (hi : s.rbInited = true) (h : bootCapacityOk s.cfg s.rbCap = true)
    {t : Byte} {p : Bytes} (hp : p.length ≤ s.cfg.mtu) {k : Nat} (hk : k ≤ p.length + 5)
    (hs : s.storedBytes = (encodeFrame s.cfg t p).take k) :
    ((encodeFrame s.cfg t p).drop k).length ≤ s.freeSpace := by
  have hc := hr.conservation hi
  have hlen : (encodeFrame s.cfg t p).length = p.length + 5 := by simp [encodeFrame, frameHeader, le16]
  have hd : s.dataSize = k := by
    rw [← State.storedBytes_length, hs, List.length_take, hlen]
    omega
  rw [bootCapacityOk_iff] at h
  rw [List.length_drop, hlen]
  omega

end Sys2Proof.Machine
end

