-- ==== Sys2Proof/Laws/Exec.lean ====
section
/-! SUPPORT. Everything an instruction that answers a next state can have done, said once (`exec_cases`): the proofs
about all instructions cite it, and unfold no meaning. -/

namespace Sys2Proof.Machine

/-- An effect that writes nothing of the node: a report, or a send of one frame whose payload is no longer than a full
BlockResponse's. -/
inductive Quiet (c : Config) : Effect → Prop where
  | report (r : Report) : Quiet c (.report r)
  | send (dest : Addr) (m : Msg) (h : m.payload.length ≤ c.blockSize + 10) : Quiet c (.send dest (frameOf c m))

/-- A failing answer has no effect, but for the one report of a failed trigger (R502). -/
def FailsQuietly (i : Instr) (r : Result) : Prop :=
  r.st ≠ .ok → r.effects = [] ∨ ∃ peer, i = .otaTrigger peer ∧
    (r.effects = [.report .busy] ∨ r.effects = [.report .noImage] ∨ ∃ len, r.effects = [.report (.badLength len)])

/-- The client's fields once a block is counted (R403). -/
def countedOta (o : OtaRecord) (crc : U32) : OtaRecord :=
  { o with currentBlock := BitVec.ofNat 32 (o.currentBlock.toNat + 1), crc := crc }

/-- The command in progress once a block has been written, counted and, at a checkpoint, saved (R403). -/
def blockWork (s : State) (addr : Nat) (data : Bytes) (crc : U32) : Work :=
  Work.checkpoint
    { st := { s.flashWithBytes addr data with ota := countedOta s.ota crc }, effects := [.flashWrite addr data] }

/-- Where `Verify()` is called from (R405): a tick with every block there, or the last block. -/
inductive VerifyFrom (s : State) : Instr → Work → Prop where
  | tick (ha : s.tmrArmed = true) (hr : s.ota.role = .client) (hd : s.ota.downloading = .downloading)
      (hk : ¬ s.ota.currentBlock.toNat < s.ota.totalBlocks.toNat) :
      VerifyFrom s .otaTick { st := { s with tmrArmed := false, tmrDelay := 0 }, effects := [.timerDisarm] }
  | block (src : Addr) (p : Bytes) (idx : U32) (n : U16) (data : Bytes) (crc : U32) (hr : s.ota.role = .client)
      (ha : blockAccepted s.cfg s.ota idx n = true) (hn : data.length = n.toNat)
      (hf : blockAddr s.cfg idx.toNat + data.length ≤ s.cfg.flashSize)
      (hl : (blockWork s (blockAddr s.cfg idx.toNat) data crc).st.ota.currentBlock = s.ota.totalBlocks) :
      VerifyFrom s (.otaRxBlockResp src p) (blockWork s (blockAddr s.cfg idx.toNat) data crc)

/-- Everything an instruction can have done, with what it found. -/
inductive Ran (s : State) : Instr → State → Prop where
  /-- Nothing but an answer. -/
  | answered (i : Instr) (r : Result) (hq : ∀ e ∈ r.effects, Quiet s.cfg e) (hf : FailsQuietly i r) :
      Ran s i (s.record r)
  | ringInit (cap : U16) (h : capacityLegal s.cfg cap = true) :
      Ran s (.rbInit cap) ((s.initRing cap).record { st := .ok })
  | ringClear (h : s.rbInited = true) : Ran s .rbClear ((s.setIndices 0 0).record { st := .ok })
  | ringPush (data : Bytes) (h : s.rbInited = true) (hle : data.length ≤ s.freeSpace) :
      Ran s (.rbPush data) ((s.pushBytes data).record { st := .ok })
  | ringPop (n : U16) (copy : Bool) (h : s.rbInited = true) (hle : n.toNat ≤ s.dataSize) :
      Ran s (.rbPop n copy) ((s.popBytes n.toNat).record
        { st := .ok, dout := if copy then s.frontBytes n.toNat else [] })
  | notify (src : Addr) (p : Bytes) (total : U32) (period : U16) (w : Work) (hb : s.otaBooted = true)
      (hr : s.ota.role = .client) (hp : parseMsg s.cfg s.cfg.tNotify p = .message (.notify total period))
      (hl : legalLength s.cfg total.toNat = true)
      (hw : (s.work.setOta (notifiedOta s.cfg s.ota src total period)).ErasedBy (eraseSet s.cfg total.toNat) w) :
      Ran s (.otaRxNotify src p)
        (({ w.st with
            ota := { w.st.ota with downloading := .downloading, currentBlock := 0 }
            nv := some { w.st.ota with downloading := .downloading, currentBlock := 0 }
            tmrArmed := true
            tmrDelay := 0 } : State).record
          { st := .ok
            effects := w.effects ++
              [.nvSave { w.st.ota with downloading := .downloading, currentBlock := 0 }, .timerArm 0] })
  | block (src : Addr) (p : Bytes) (idx : U32) (n : U16) (data : Bytes) (crc : U32) (hb : s.otaBooted = true)
      (hr : s.ota.role = .client) (ha : blockAccepted s.cfg s.ota idx n = true) (hn : data.length = n.toNat)
      (hf : blockAddr s.cfg idx.toNat + data.length ≤ s.cfg.flashSize)
      (hl : (blockWork s (blockAddr s.cfg idx.toNat) data crc).st.ota.currentBlock ≠ s.ota.totalBlocks) :
      Ran s (.otaRxBlockResp src p)
        ((blockWork s (blockAddr s.cfg idx.toNat) data crc).st.record
          { st := .ok, effects := (blockWork s (blockAddr s.cfg idx.toNat) data crc).effects })
  | verifyOk (i : Instr) (w : Work) (hb : s.otaBooted = true) (hw : VerifyFrom s i w) :
      Ran s i (({ w.st with
          ota := { w.st.ota with downloading := .upgradeRequesting }
          tmrArmed := true
          tmrDelay := w.st.cfg.upgradeRetryMs } : State).record
        { st := .ok, effects := w.effects ++ [.timerArm w.st.cfg.upgradeRetryMs, .report .verifyOk] })
  | verifyFail (i : Instr) (w w' : Work) (hb : s.otaBooted = true) (hw : VerifyFrom s i w)
      (he : (w.setOta { w.st.ota with currentBlock := 0 }).ErasedBy (eraseSet w.st.cfg w.st.ota.totalBytes.toNat) w') :
      Ran s i (({ w'.st with
          nv := some w'.st.ota
          tmrArmed := true
          tmrDelay := w'.st.ota.requestPeriodMs.zeroExtend 32 } : State).record
        { st := .ok
          effects := w'.effects ++
            [.nvSave w'.st.ota, .timerArm (w'.st.ota.requestPeriodMs.zeroExtend 32), .report .verifyFailed] })
  | tickIgnored (hb : s.otaBooted = true) (ha : s.tmrArmed = true)
      (h : s.ota.role = .server ∨ s.ota.downloading = .idle) :
      Ran s .otaTick (({ s with tmrArmed := false, tmrDelay := 0 } : State).record
        { st := .ignored, effects := [.timerDisarm] })
  | tickSends (m : Msg) (delay : U32) (hb : s.otaBooted = true) (ha : s.tmrArmed = true) (hr : s.ota.role = .client)
      (hd : s.ota.downloading ≠ .idle) (hm : m.payload.length ≤ 10) :
      Ran s .otaTick (({ s with tmrArmed := true, tmrDelay := delay } : State).record
        { st := .ok, effects := [.timerDisarm, .send s.ota.peer (frameOf s.cfg m), .timerArm delay] })
  | trigger (peer : Addr) (len crc : U32) (hb : s.otaBooted = true)
      (hn : ¬ (s.ota.role = .client ∧ s.ota.downloading ≠ .idle)) (hl : legalLength s.cfg len.toNat = true) :
      Ran s (.otaTrigger peer) (({ s with ota := triggeredOta s.cfg peer len crc } : State).record
        { st := .ok
          res := BitVec.ofNat 32 (blocks s.cfg len.toNat)
          effects :=
            [.send peer (frameOf s.cfg (.notify len s.cfg.srvRequestPeriodMs)),
              .report (.notified len (BitVec.ofNat 32 (blocks s.cfg len.toNat)) crc)] })
  | upgradeResponse (src : Addr) (p : Bytes) (hb : s.otaBooted = true) (hr : s.ota.role = .client)
      (hd : s.ota.downloading = .upgradeRequesting) :
      Ran s (.otaRxUpgResp src p) ((({ s with nv := some OtaRecord.reset } : State).endRun).record
        { st := .ok, effects := [.nvSave OtaRecord.reset, .timerDisarm, .invalidateRunningHeader, .softwareReset] })
  | aborted (i : Instr) (e : Effect) (hb : s.otaBooted = true) (hr : s.ota.role = .client)
      (hi : i = .otaAbort ∨ ∃ src p, i = .otaRxAbortReq src p) (hd : s.ota.downloading ≠ .idle) (he : Quiet s.cfg e) :
      Ran s i (({ s with ota := OtaRecord.reset, nv := some OtaRecord.reset, tmrArmed := false, tmrDelay := 0 } :
          State).record
        { st := .ok, effects := [.nvSave OtaRecord.reset, .timerDisarm, e] })
  | booted (hb : s.otaBooted = false) :
      Ran s .otaBoot (({ s with otaBooted := true } : State).record { st := .ok })
  | restored (r : OtaRecord) (hb : s.otaBooted = false) (hn : s.nv = some r) (hr : restorable s.cfg r = true) :
      Ran s .otaBoot (({ s with otaBooted := true, ota := r, tmrArmed := true, tmrDelay := 0 } : State).record
        { st := .ok, effects := [.timerArm 0, .report (.resumed r.currentBlock r.totalBlocks)] })

/-- An answer with no effect. -/
theorem Ran.plain {s : State} (i : Instr) (r : Result) (h : r.effects = []) : Ran s i (s.record r) :=
  .answered i r (by simp [h]) (fun _ => .inl h)

/-- An OK answer whose effects write nothing. -/
theorem Ran.quiet {s : State} (i : Instr) (r : Result) (h : ∀ e ∈ r.effects, Quiet s.cfg e) (hok : r.st = .ok) :
    Ran s i (s.record r) :=
  .answered i r h (fun hne => absurd hok hne)

theorem rbGuard_cases {s t : State} {body : Answer} (h : rbGuard s body = .next t) :
    (s.rbInited = true ∧ body = .next t) ∨ t = s.record { st := .uninit } := by
  unfold rbGuard at h
  split at h
  · exact .inl ⟨‹_›, h⟩
  · exact .inr (by simpa [Result.status] using h.symm)

theorem otaGuard_cases {s t : State} {body : Answer} (h : otaGuard s body = .next t) :
    (s.otaBooted = true ∧ body = .next t) ∨ t = s.record { st := .uninit } := by
  unfold otaGuard at h
  split at h
  · exact .inl ⟨‹_›, h⟩
  · exact .inr (by simpa [Result.status] using h.symm)

/-- Everything `verify` can do. -/
theorem verify_cases {w : Work} {t : State} (h : verify w = .next t) :
    (t = ({ w.st with
        ota := { w.st.ota with downloading := .upgradeRequesting }
        tmrArmed := true
        tmrDelay := w.st.cfg.upgradeRetryMs } : State).record
      { st := .ok, effects := w.effects ++ [.timerArm w.st.cfg.upgradeRetryMs, .report .verifyOk] }) ∨
    ∃ w', (w.setOta { w.st.ota with currentBlock := 0 }).ErasedBy (eraseSet w.st.cfg w.st.ota.totalBytes.toNat) w' ∧
      t = ({ w'.st with
          nv := some w'.st.ota
          tmrArmed := true
          tmrDelay := w'.st.ota.requestPeriodMs.zeroExtend 32 } : State).record
        { st := .ok
          effects := w'.effects ++
            [.nvSave w'.st.ota, .timerArm (w'.st.ota.requestPeriodMs.zeroExtend 32), .report .verifyFailed] } := by
  unfold verify at h
  obtain ⟨b, -, h⟩ := andThen_eq_next h
  obtain ⟨crc, -, h⟩ := andThen_eq_next h
  split at h
  · left
    simpa [verifySucceeds, Work.setOta, Work.timerArm, Work.report, Work.did] using h.symm
  · right
    obtain ⟨w', hw, h⟩ := andThen_eq_next h
    refine ⟨w', Work.eraseImage_eq_ok hw, ?_⟩
    simpa [Work.setOta, Work.persist, Work.timerArm, Work.report, Work.did] using h.symm

/-- A `Verify()` that answers leaves what `verify_cases` says, wherever it was called from. -/
theorem Ran.verify {s t : State} {i : Instr} {w : Work} (hb : s.otaBooted = true) (hw : VerifyFrom s i w)
    (h : verify w = .next t) : Ran s i t := by
  rcases verify_cases h with rfl | ⟨w', he, rfl⟩
  · exact .verifyOk i w hb hw
  · exact .verifyFail i w w' hb hw he

/-- The message an OTA_RX row acts on, or the answer it gives without one. -/
theorem otaRx_tag_cases {s t : State} (hc : s.cfg.Valid) {k : Tag} {src : Addr} {p : Bytes}
    (h : otaRx (s.cfg.tagByte k) src p s = .next t) :
    (∃ st, st ≠ .ok ∧ t = s.record { st := st }) ∨
      (s.otaBooted = true ∧ ∃ m, m.tag = k ∧ messageOk m ∧ parseMsg s.cfg (s.cfg.tagByte k) p = .message m ∧
        dispatchMsg src m s = .next t) := by
  rcases otaRx_cases (s.cfg.tagByte k) src p s with ⟨st, hst, he⟩ | ⟨hb, m, hm, he⟩
  · rw [he] at h
    exact .inl ⟨st, hst, by injection h with h; exact h.symm⟩
  · refine .inr ⟨hb, m, ?_, ?_, hm, by rw [← he, h]⟩ <;>
    · simp only [parseMsg, tagOf_tagByte hc] at hm
      split at hm
      · rename_i m' hm'
        injection hm with hm
        subst hm
        first | exact (parsePayload_eq_some hm').1 | exact (parsePayload_eq_some hm').2
      · cases hm

theorem byRole_client {s : State} (h : s.ota.role = .client) (a b : Answer) : byRole s a b = a := by
  simp [byRole, h]

theorem byRole_server {s : State} (h : s.ota.role = .server) (a b : Answer) : byRole s a b = b := by
  simp [byRole, h]

/-- A rule of one role: that rule at that role, IGNORED at the other. -/
theorem byRole_cases {s t : State} {a b : Answer} (h : byRole s a b = .next t) :
    (s.ota.role = .client ∧ a = .next t) ∨ (s.ota.role = .server ∧ b = .next t) := by
  unfold byRole at h
  split at h
  · exact .inl ⟨‹_›, h⟩
  · exact .inr ⟨‹_›, h⟩

theorem ignored_eq {s t : State} (h : ignored s = .next t) : t = s.record { st := .ignored } := by
  simpa [ignored, Result.status] using h.symm

/-- Everything a ring buffer or frame codec command can do. -/
theorem exec_local_cases {s t : State} {i : Instr} (hi : needsBoot i = false) (hb : i ≠ .otaBoot)
    (h : exec i s = .next t) : Ran s i t := by
  cases i <;> simp only [needsBoot, reduceCtorEq] at hi <;> simp only [exec] at h
  case rbInit cap =>
    unfold execRbInit at h
    split at h
    · rename_i hl
      simp only [State.answer_eq, Host.Outcome.next.injEq] at h
      exact h ▸ .ringInit cap hl
    · simp only [State.answer_eq, Host.Outcome.next.injEq] at h
      exact h ▸ .plain _ _ rfl
  case rbClear =>
    rcases rbGuard_cases h with ⟨hr, h⟩ | rfl
    · simp only [State.answer_eq, Host.Outcome.next.injEq] at h
      exact h ▸ .ringClear hr
    · exact .plain _ _ rfl
  case rbFree =>
    rcases rbGuard_cases h with ⟨-, h⟩ | rfl
    · simp only [State.answer_eq, Host.Outcome.next.injEq] at h
      exact h ▸ .plain _ _ rfl
    · exact .plain _ _ rfl
  case rbSize =>
    rcases rbGuard_cases h with ⟨-, h⟩ | rfl
    · simp only [State.answer_eq, Host.Outcome.next.injEq] at h
      exact h ▸ .plain _ _ rfl
    · exact .plain _ _ rfl
  case rbPush data =>
    rcases rbGuard_cases h with ⟨hr, h⟩ | rfl
    · split at h <;> simp only [State.answer_eq, Host.Outcome.next.injEq] at h
      · exact h ▸ .plain _ _ rfl
      · exact h ▸ .ringPush data hr (by omega)
    · exact .plain _ _ rfl
  case rbPop n copy =>
    rcases rbGuard_cases h with ⟨hr, h⟩ | rfl
    · split at h <;> simp only [State.answer_eq, Host.Outcome.next.injEq] at h
      · exact h ▸ .plain _ _ rfl
      · exact h ▸ .ringPop n copy hr (by omega)
    · exact .plain _ _ rfl
  case rbPeek n =>
    rcases rbGuard_cases h with ⟨-, h⟩ | rfl
    · split at h <;> simp only [State.answer_eq, Host.Outcome.next.injEq] at h <;> exact h ▸ .plain _ _ rfl
    · exact .plain _ _ rfl
  case fcEncode type payload =>
    unfold execFcEncode at h
    split at h <;> simp only [State.answer_eq, Host.Outcome.next.injEq] at h <;> exact h ▸ .plain _ _ rfl
  case fcDecode buffer =>
    simp only [execFcDecode, State.answer_eq, Host.Outcome.next.injEq] at h
    exact h ▸ .plain _ _ rfl
  case fcCksum data =>
    simp only [execFcCksum, State.answer_eq, Host.Outcome.next.injEq] at h
    exact h ▸ .plain _ _ rfl
  case fcParse type payload =>
    unfold execFcParse at h
    split at h <;> simp only [State.answer_eq, Host.Outcome.next.injEq] at h <;> exact h ▸ .plain _ _ rfl
  case otaBoot => exact absurd rfl hb

/-- Everything a server's BlockRequest can do (R352). -/
theorem Ran.serverBlockRequest {s t : State} {src : Addr} {idx : U32} (i : Instr)
    (h : serverBlockRequest src idx s = .next t) : Ran s i t := by
  unfold Machine.serverBlockRequest at h
  split at h
  · simp only [State.answer_eq, Host.Outcome.next.injEq] at h
    exact h ▸ .plain _ _ rfl
  · obtain ⟨data, hd, h⟩ := andThen_eq_next h
    obtain ⟨-, rfl⟩ := State.memRead_eq_ok hd
    simp only [Work.finish_eq, Work.sendMsg, Work.did, State.work, Host.Outcome.next.injEq, List.nil_append] at h
    refine h ▸ .quiet _ _ ?_ rfl
    intro e he
    obtain rfl := List.mem_singleton.1 he
    refine .send src _ ?_
    simp only [Msg.payload, List.length_append, le32_length, le16_length, bytesAt_length, blockLen]
    omega

/-- Everything a client's BlockResponse can do (R403). -/
theorem Ran.clientBlockResponse {s t : State} {src : Addr} {p : Bytes} {idx : U32} {n : U16} {data : Bytes} {crc : U32}
    (hb : s.otaBooted = true) (hr : s.ota.role = .client) (hn : data.length = n.toNat)
    (h : clientBlockResponse idx n data crc s = .next t) : Ran s (.otaRxBlockResp src p) t := by
  unfold Machine.clientBlockResponse at h
  split at h
  · rename_i ha
    obtain ⟨w, hw, h⟩ := andThen_eq_next h
    obtain ⟨hf, rfl⟩ := Work.memWrite_eq_ok hw
    have hblocks : (blockWork s (blockAddr s.cfg idx.toNat) data crc).st.ota.totalBlocks = s.ota.totalBlocks := by
      unfold blockWork
      rw [Work.checkpoint_eq]
      split <;> rfl
    change (if (blockWork s (blockAddr s.cfg idx.toNat) data crc).st.ota.currentBlock =
        (blockWork s (blockAddr s.cfg idx.toNat) data crc).st.ota.totalBlocks then
          Machine.verify (blockWork s (blockAddr s.cfg idx.toNat) data crc)
        else (blockWork s (blockAddr s.cfg idx.toNat) data crc).finish .ok) = .next t at h
    rw [hblocks] at h
    split at h
    · rename_i hl
      exact .verify hb (.block src p idx n data crc hr ha hn hf hl) h
    · rename_i hl
      simp only [Work.finish_eq, Host.Outcome.next.injEq] at h
      exact h ▸ .block src p idx n data crc hb hr ha hn hf hl
  · simp only [State.answer_eq, Host.Outcome.next.injEq] at h
    exact h ▸ .plain _ _ rfl

/-- Everything an accepted or ignored Notify can do (R400). -/
theorem Ran.clientNotify {s t : State} {src : Addr} {p : Bytes} {total : U32} {period : U16} (hb : s.otaBooted = true)
    (hr : s.ota.role = .client) (hp : parseMsg s.cfg s.cfg.tNotify p = .message (.notify total period))
    (h : clientNotify src total period s = .next t) : Ran s (.otaRxNotify src p) t := by
  unfold Machine.clientNotify at h
  split at h
  · rename_i hl
    obtain ⟨w, hw, h⟩ := andThen_eq_next h
    simp only [Work.finish_eq, Work.setOta, Work.persist, Work.timerArm, Host.Outcome.next.injEq, List.append_assoc,
      List.cons_append, List.nil_append] at h
    exact h ▸ .notify src p total period w hb hr hp hl (Work.eraseImage_eq_ok hw)
  · simp only [State.answer_eq, Host.Outcome.next.injEq] at h
    exact h ▸ .plain _ _ rfl

/-- `ResetTransfer()` at a client leaves the reset record (R305, R70). -/
theorem resetTransfer_client {s : State} (hr : s.ota.role = .client) :
    ({ OtaRecord.reset with role := s.ota.role } : OtaRecord) = OtaRecord.reset := by
  rw [hr]
  rfl

theorem Ran.ignored {s t : State} (i : Instr) (h : Machine.ignored s = .next t) : Ran s i t :=
  ignored_eq h ▸ .plain _ _ rfl

/-- A one-effect answer that writes nothing. -/
theorem Ran.one {s : State} (i : Instr) {e : Effect} {r : Result} (he : Quiet s.cfg e) (hr : r.effects = [e])
    (hok : r.st = .ok) : Ran s i (s.record r) :=
  .quiet i r (by rw [hr]; intro x hx; exact List.mem_singleton.1 hx ▸ he) hok

/-- A message of no more than ten bytes of payload. -/
theorem Quiet.short {c : Config} (dest : Addr) (m : Msg) (h : m.payload.length ≤ 10) : Quiet c (.send dest (frameOf c m)) :=
  .send dest m (by omega)

/-- Everything the rule of a message can do (R306). -/
theorem dispatchMsg_cases {s t : State} {src : Addr} {p : Bytes} {m : Msg} {i : Instr} (hb : s.otaBooted = true)
    (hi : i = rxInstr s.cfg (s.cfg.tagByte m.tag) src p) (hc : s.cfg.Valid) (hm : messageOk m)
    (hp : parseMsg s.cfg (s.cfg.tagByte m.tag) p = .message m) (h : dispatchMsg src m s = .next t) : Ran s i t := by
  simp only [rxInstr, tagOf_tagByte hc] at hi
  cases m <;> simp only [Msg.tag] at hi hp <;> rcases byRole_cases h with ⟨hr, h⟩ | ⟨hr, h⟩ <;>
    (try exact .ignored i h)
  case notify.inl total period => exact hi ▸ .clientNotify hb hr hp h
  case blockRequest.inr idx => exact .serverBlockRequest i h
  case blockResponse.inl idx n data crc => exact hi ▸ .clientBlockResponse hb hr hm h
  case abortRequest.inl =>
    unfold clientAbortRequest at h
    split at h
    · simp only [Work.finish_eq, Work.sendMsg, Work.did, State.work, Host.Outcome.next.injEq] at h
      exact h ▸ .one _ (.short src .abortResponse (by decide)) rfl rfl
    · rename_i hd
      simp only [Work.finish_eq, Work.sendMsg, Work.did, State.work, Work.resetTransfer, Work.setOta, Work.persist,
        Work.timerDisarm, resetTransfer_client hr, Host.Outcome.next.injEq] at h
      exact h ▸ .aborted i _ hb hr (.inr ⟨src, p, hi⟩) hd (.short src .abortResponse (by decide))
  case abortRequest.inr =>
    simp only [serverAbortRequest, Work.finish_eq, Work.sendMsg, Work.did, State.work, Host.Outcome.next.injEq] at h
    exact h ▸ .one _ (.short src .abortResponse (by decide)) rfl rfl
  case abortResponse.inr =>
    simp only [serverAbortResponse, Work.finish_eq, Work.report, Work.did, State.work, Host.Outcome.next.injEq] at h
    exact h ▸ .one _ (.report _) rfl rfl
  case upgradeRequest.inr =>
    simp only [serverUpgradeRequest, Work.finish_eq, Work.sendMsg, Work.did, State.work, Host.Outcome.next.injEq] at h
    exact h ▸ .one _ (.short src .upgradeResponse (by decide)) rfl rfl
  case upgradeResponse.inl =>
    unfold clientUpgradeResponse at h
    split at h
    · rename_i hd
      simp only [Work.finish_eq, State.work, Work.resetTransfer, Work.setOta, Work.persist, Work.timerDisarm,
        Work.invalidateRunningHeader, Work.softwareReset, Work.did, resetTransfer_client hr,
        Host.Outcome.next.injEq] at h
      exact hi ▸ h ▸ .upgradeResponse src p hb hr hd
    · simp only [State.answer_eq, Host.Outcome.next.injEq] at h
      exact h ▸ .plain _ _ rfl
  case statusRequest.inl =>
    simp only [clientStatusRequest, Work.finish_eq, Work.sendMsg, Work.did, State.work, Host.Outcome.next.injEq] at h
    exact h ▸ .one _ (.short src (.statusResponse _ _ _) (by simp [Msg.payload])) rfl rfl
  case statusResponse.inr =>
    simp only [serverStatusResponse, Work.finish_eq, Work.report, Work.did, State.work, Host.Outcome.next.injEq] at h
    exact h ▸ .one _ (.report _) rfl rfl

/-- Everything an OTA_RX row can do (R307). -/
theorem otaRx_ran {s t : State} (hc : s.cfg.Valid) (k : Tag) {src : Addr} {p : Bytes}
    (h : otaRx (s.cfg.tagByte k) src p s = .next t) : Ran s (rxInstr s.cfg (s.cfg.tagByte k) src p) t := by
  rcases otaRx_tag_cases hc h with ⟨st, -, rfl⟩ | ⟨hb, m, hk, hm, hp, h'⟩
  · exact .plain _ _ rfl
  · subst hk
    exact dispatchMsg_cases hb rfl hc hm hp h'

/-- Everything OTA_TICK can do (R401). -/
theorem Ran.tick {s t : State} (h : execOtaTick s = .next t) : Ran s .otaTick t := by
  rcases otaGuard_cases h with ⟨hb, h⟩ | rfl
  · split at h
    · rename_i ha
      split at h
      · rename_i hr
        simp only [Work.finish_eq, Work.timerDisarm, State.work, Host.Outcome.next.injEq] at h
        exact h ▸ .tickIgnored hb ha (.inl hr)
      · rename_i hr
        have hr : s.ota.role = .client := by
          cases hs : s.ota.role
          · rfl
          · exact absurd hs hr
        split at h
        · rename_i hd
          simp only [Work.finish_eq, Work.timerDisarm, State.work, Host.Outcome.next.injEq] at h
          exact h ▸ .tickIgnored hb ha (.inr hd)
        · rename_i hd
          split at h
          · simp only [Work.finish_eq, Work.timerDisarm, Work.timerArm, Work.sendMsg, Work.did, State.work,
              Host.Outcome.next.injEq] at h
            exact h ▸ .tickSends (.blockRequest s.ota.currentBlock) _ hb ha hr (by simp [hd]) (by simp [Msg.payload])
          · rename_i hk
            exact .verify hb (.tick ha hr hd hk) h
        · rename_i hd
          simp only [Work.finish_eq, Work.timerDisarm, Work.timerArm, Work.sendMsg, Work.did, State.work,
            Host.Outcome.next.injEq] at h
          exact h ▸ .tickSends .upgradeRequest _ hb ha hr (by simp [hd]) (by simp [Msg.payload])
    · simp only [State.answer_eq, Host.Outcome.next.injEq] at h
      exact h ▸ .plain _ _ rfl
  · exact .plain _ _ rfl

/-- Everything OTA_TRIGGER can do (R350). -/
theorem Ran.triggered {s t : State} {peer : Addr} (h : execOtaTrigger peer s = .next t) : Ran s (.otaTrigger peer) t := by
  have one (st : Status) (q : Report) (hq : [Effect.report q] = [.report .busy] ∨ [Effect.report q] = [.report .noImage] ∨
      ∃ len, [Effect.report q] = [.report (.badLength len)]) :
      Ran s (.otaTrigger peer) (s.record { st := st, effects := [.report q] }) :=
    .answered _ _ (fun e he => List.mem_singleton.1 he ▸ .report q) (fun _ => .inr ⟨peer, rfl, hq⟩)
  rcases otaGuard_cases h with ⟨hb, h⟩ | rfl
  · split at h
    · simp only [Work.finish_eq, Work.report, Work.did, State.work, Host.Outcome.next.injEq] at h
      exact h ▸ one .busy .busy (.inl rfl)
    · rename_i hn
      obtain ⟨magic, -, h⟩ := andThen_eq_next h
      split at h
      · obtain ⟨len, -, h⟩ := andThen_eq_next h
        split at h
        · rename_i hl
          obtain ⟨crc, -, h⟩ := andThen_eq_next h
          simp only [startServing, Work.finish_eq, Work.setOta, Work.sendMsg, Work.report, Work.did, State.work,
            Host.Outcome.next.injEq] at h
          exact h ▸ .trigger peer len crc hb hn hl
        · simp only [Work.finish_eq, Work.report, Work.did, State.work, Host.Outcome.next.injEq] at h
          exact h ▸ one .badLen (.badLength len) (.inr (.inr ⟨len, rfl⟩))
      · simp only [Work.finish_eq, Work.report, Work.did, State.work, Host.Outcome.next.injEq] at h
        exact h ▸ one .noImage .noImage (.inr (.inl rfl))
  · exact .plain _ _ rfl

/-- Everything OTA_ABORT can do (R308). -/
theorem Ran.abort {s t : State} (h : execOtaAbort s = .next t) : Ran s .otaAbort t := by
  rcases otaGuard_cases h with ⟨hb, h⟩ | rfl
  · rcases byRole_cases h with ⟨hr, h⟩ | ⟨hr, h⟩
    · unfold clientAbort at h
      split at h
      · simp only [State.answer_eq, Host.Outcome.next.injEq] at h
        exact h ▸ .plain _ _ rfl
      · rename_i hd
        simp only [Work.finish_eq, State.work, Work.resetTransfer, Work.setOta, Work.persist, Work.timerDisarm,
          Work.report, Work.did, resetTransfer_client hr, Host.Outcome.next.injEq] at h
        exact h ▸ .aborted _ _ hb hr (.inl rfl) hd (.report .aborted)
    · simp only [serverAbort, Work.finish_eq, Work.sendMsg, Work.report, Work.did, State.work,
        Host.Outcome.next.injEq] at h
      refine h ▸ .quiet _ _ ?_ rfl
      intro e he
      rcases List.mem_cons.1 he with rfl | he
      · exact .short _ .abortRequest (by decide)
      · exact List.mem_singleton.1 he ▸ .report _
  · exact .plain _ _ rfl

/-- Everything OTA_POLL can do (R309). -/
theorem Ran.poll {s t : State} (h : execOtaPoll s = .next t) : Ran s .otaPoll t := by
  rcases otaGuard_cases h with ⟨-, h⟩ | rfl
  · rcases byRole_cases h with ⟨hr, h⟩ | ⟨hr, h⟩
    · simp only [clientPoll, Work.finish_eq, Work.report, Work.did, State.work, Host.Outcome.next.injEq] at h
      exact h ▸ .one _ (.report _) rfl rfl
    · simp only [serverPoll, Work.finish_eq, Work.sendMsg, Work.did, State.work, Host.Outcome.next.injEq] at h
      exact h ▸ .one _ (.short _ .statusRequest (by decide)) rfl rfl
  · exact .plain _ _ rfl

/-- Everything OTA_BOOT can do (R320). -/
theorem Ran.boot {s t : State} (h : execOtaBoot s = .next t) : Ran s .otaBoot t := by
  unfold execOtaBoot at h
  split at h
  · simp only [State.answer_eq, Host.Outcome.next.injEq] at h
    exact h ▸ .plain _ _ rfl
  · rename_i hb
    have hb : s.otaBooted = false := by simpa using hb
    dsimp only at h
    split at h
    · simp only [Work.finish_eq, State.work, Host.Outcome.next.injEq] at h
      exact h ▸ .booted hb
    · rename_i r hn
      split at h
      · rename_i hr
        simp only [restore, Work.finish_eq, Work.setOta, Work.timerArm, Work.report, Work.did, State.work,
          Host.Outcome.next.injEq] at h
        exact h ▸ .restored r hb hn hr
      · simp only [Work.finish_eq, State.work, Host.Outcome.next.injEq] at h
        exact h ▸ .booted hb

/-- Everything an instruction that answers a next state can have done. -/
theorem exec_cases {s t : State} {i : Instr} (hc : s.cfg.Valid) (hw : i.wellFormed s.cfg = true)
    (h : exec i s = .next t) : Ran s i t := by
  have rx (k : Tag) (src : Addr) (p : Bytes) (h : otaRx (s.cfg.tagByte k) src p s = .next t) := otaRx_ran hc k h
  simp only [rxInstr, tagOf_tagByte hc] at rx
  cases i
  case otaRxNotify src p => exact rx .notify src p h
  case otaRxBlockReq src p => exact rx .blockReq src p h
  case otaRxBlockResp src p => exact rx .blockResp src p h
  case otaRxAbortReq src p => exact rx .abortReq src p h
  case otaRxAbortResp src p => exact rx .abortResp src p h
  case otaRxUpgReq src p => exact rx .upgReq src p h
  case otaRxUpgResp src p => exact rx .upgResp src p h
  case otaRxStatusReq src p => exact rx .statusReq src p h
  case otaRxStatusResp src p => exact rx .statusResp src p h
  case otaRxOther type src p =>
    change otaRx type src p s = _ at h
    rcases otaRx_cases type src p s with ⟨st, -, he⟩ | ⟨hb, m, hm, he⟩
    · rw [he] at h
      injection h with h
      exact h ▸ .plain _ _ rfl
    · have hn : ∀ k, s.cfg.tagByte k ≠ type := by
        simp only [Instr.wellFormed, Bool.and_eq_true, List.all_eq_true, bne_iff_ne] at hw
        exact fun k => hw.1.1 k (tag_mem_all k)
      rw [parseMsg_other hn] at hm
      cases hm
  case otaTick => exact .tick h
  case otaTrigger peer => exact .triggered h
  case otaAbort => exact .abort h
  case otaPoll => exact .poll h
  case otaBoot => exact .boot h
  all_goals exact exec_local_cases rfl (by simp) h

/-- What a block's command in progress has left alone: all but the counted fields, the flash and the saved record. -/
theorem blockWork_frame (s : State) (addr : Nat) (data : Bytes) (crc : U32) :
    (blockWork s addr data crc).st =
      { s with
        ota := (blockWork s addr data crc).st.ota
        flash := (blockWork s addr data crc).st.flash
        nv := (blockWork s addr data crc).st.nv } := by
  unfold blockWork
  rw [Work.checkpoint_eq]
  split <;> rfl

/-- What `Verify()` finds is the state but for the client's fields, the timer, the flash and the saved record. -/
theorem VerifyFrom.frame {s : State} {i : Instr} {w : Work} (h : VerifyFrom s i w) :
    w.st =
      { s with
        ota := w.st.ota, flash := w.st.flash, nv := w.st.nv, tmrArmed := w.st.tmrArmed, tmrDelay := w.st.tmrDelay } := by
  cases h with
  | tick => rfl
  | block src p idx n data crc =>
    have hf := blockWork_frame s (blockAddr s.cfg idx.toNat) data crc
    generalize (blockWork s (blockAddr s.cfg idx.toNat) data crc).st = u at hf ⊢
    rw [hf]

/-- An instruction keeps the parameters, what waits at the port and the units that are ready, unless it ends the run: then
neither unit is ready, and the next run's inputs are left (R550). -/
theorem Ran.units {s t : State} {i : Instr} (h : Ran s i t) :
    (t.cfg = s.cfg ∧ t.pending = s.pending ∧ (s.rbInited = true → t.rbInited = true) ∧
      (s.otaBooted = true → t.otaBooted = true)) ∨
    (t.cfg = s.cfg ∧ t.pending = nextRun s.pending ∧ t.rbInited = false ∧ t.otaBooted = false) := by
  have keep {u : State} (hu : u.cfg = s.cfg ∧ u.pending = s.pending ∧ u.rbInited = s.rbInited ∧ u.otaBooted = s.otaBooted) :
      u.cfg = s.cfg ∧ u.pending = s.pending ∧ (s.rbInited = true → u.rbInited = true) ∧
        (s.otaBooted = true → u.otaBooted = true) :=
    ⟨hu.1, hu.2.1, fun h => hu.2.2.1.trans h, fun h => hu.2.2.2.trans h⟩
  cases h with
  | ringInit => exact .inl ⟨rfl, rfl, fun _ => rfl, id⟩
  | booted => exact .inl ⟨rfl, rfl, id, fun _ => rfl⟩
  | restored => exact .inl ⟨rfl, rfl, id, fun _ => rfl⟩
  | upgradeResponse => exact .inr ⟨rfl, rfl, rfl, rfl⟩
  | notify src p total period w hb hr hp hl hw =>
    have hf := hw.st
    exact .inl (keep (by constructorm* _ ∧ _ <;> (simp only [State.record]; rw [hf]; rfl)))
  | block src p idx n data crc =>
    have hf := blockWork_frame s (blockAddr s.cfg idx.toNat) data crc
    exact .inl (keep (by constructorm* _ ∧ _ <;> (simp only [State.record]; rw [hf])))
  | verifyOk _ w hb hw =>
    have hf := hw.frame
    exact .inl (keep (by constructorm* _ ∧ _ <;> (simp only [State.record]; rw [hf])))
  | verifyFail _ w w' hb hw he =>
    have hf := hw.frame
    have hf' := he.st
    exact .inl (keep (by constructorm* _ ∧ _ <;> (simp only [State.record]; rw [hf']; simp only [Work.setOta]; rw [hf])))
  | answered => exact .inl ⟨rfl, rfl, id, id⟩
  | ringClear => exact .inl ⟨rfl, rfl, id, id⟩
  | ringPush => exact .inl ⟨rfl, rfl, id, id⟩
  | ringPop => exact .inl ⟨rfl, rfl, id, id⟩
  | tickIgnored => exact .inl ⟨rfl, rfl, id, id⟩
  | tickSends => exact .inl ⟨rfl, rfl, id, id⟩
  | trigger => exact .inl ⟨rfl, rfl, id, id⟩
  | aborted => exact .inl ⟨rfl, rfl, id, id⟩

/-- An instruction that is no ring buffer command leaves the ring buffer as it was, unless it resets the node (R46). -/
theorem Ran.ringKept {s t : State} {i : Instr} (h : Ran s i t) (hi : isRing i = false) :
    (t.rbInited = s.rbInited ∧ t.rbCap = s.rbCap ∧ t.rbBegin = s.rbBegin ∧ t.rbEnd = s.rbEnd ∧
      t.rbStorage = s.rbStorage) ∨ t.rbInited = false := by
  cases h with
  | ringInit => cases hi
  | ringClear => cases hi
  | ringPush => cases hi
  | ringPop => cases hi
  | upgradeResponse => exact .inr rfl
  | notify src p total period w hb hr hp hl hw =>
    have hf := hw.st
    exact .inl (by constructorm* _ ∧ _ <;> (simp only [State.record]; rw [hf]; rfl))
  | block src p idx n data crc =>
    have hf := blockWork_frame s (blockAddr s.cfg idx.toNat) data crc
    exact .inl (by constructorm* _ ∧ _ <;> (simp only [State.record]; rw [hf]))
  | verifyOk _ w hb hw =>
    have hf := hw.frame
    exact .inl (by constructorm* _ ∧ _ <;> (simp only [State.record]; rw [hf]))
  | verifyFail _ w w' hb hw he =>
    have hf := hw.frame
    have hf' := he.st
    exact .inl (by constructorm* _ ∧ _ <;> (simp only [State.record]; rw [hf']; simp only [Work.setOta]; rw [hf]))
  | answered => exact .inl ⟨rfl, rfl, rfl, rfl, rfl⟩
  | tickIgnored => exact .inl ⟨rfl, rfl, rfl, rfl, rfl⟩
  | tickSends => exact .inl ⟨rfl, rfl, rfl, rfl, rfl⟩
  | trigger => exact .inl ⟨rfl, rfl, rfl, rfl, rfl⟩
  | aborted => exact .inl ⟨rfl, rfl, rfl, rfl, rfl⟩
  | booted => exact .inl ⟨rfl, rfl, rfl, rfl, rfl⟩
  | restored => exact .inl ⟨rfl, rfl, rfl, rfl, rfl⟩

end Sys2Proof.Machine
end

