-- ==== Sys2Proof/Laws/PerInstr.lean ====
section
/-! SUPPORT. Statements about every instruction as syntax, one lemma a constructor: the encoder presents exactly the
DIN that R121 asks of the word it makes. -/

namespace Sys2Proof.Laws.EncodeBoundary

/-- The command that carries a well-formed instruction passes R121's check of |DIN|. -/
def Statement (i : Instr) : Prop :=
  ∀ c : Config, i.wellFormed c = true → (encode c i).din.length = dinLengthOf (encode c i).cw

theorem plain (o : Opcode) (a : Byte) (len : U16) (h : o.lenKind ≠ .count) :
    (plainCommand o a len).din.length = dinLengthOf (plainCommand o a len).cw := by
  simp [plainCommand, dinLengthOf, opField_commandWord, opcodeOf_op, h]

theorem counted (o : Opcode) (a : Byte) (addr : Addr) (p : Bytes) (h : o.lenKind = .count) (hp : countOk p = true) :
    (countedCommand o a addr p).din.length = dinLengthOf (countedCommand o a addr p).cw := by
  simp [countedCommand, dinLengthOf, opField_commandWord, lenField_commandWord, opcodeOf_op, h, lenOf_toNat hp]

theorem rbInit (cap : U16) : Statement (.rbInit cap) := fun _ _ => plain _ _ _ (by decide)
theorem rbClear : Statement .rbClear := fun _ _ => plain _ _ _ (by decide)
theorem rbFree : Statement .rbFree := fun _ _ => plain _ _ _ (by decide)
theorem rbSize : Statement .rbSize := fun _ _ => plain _ _ _ (by decide)
theorem rbPush (data : Bytes) : Statement (.rbPush data) := fun _ h => counted _ _ _ _ rfl h
theorem rbPop (len : U16) (copy : Bool) : Statement (.rbPop len copy) := fun _ _ => plain _ _ _ (by decide)
theorem rbPeek (len : U16) : Statement (.rbPeek len) := fun _ _ => plain _ _ _ (by decide)
theorem fcEncode (type : Byte) (payload : Bytes) : Statement (.fcEncode type payload) := fun _ h => counted _ _ _ _ rfl h
theorem fcDecode (buffer : Bytes) : Statement (.fcDecode buffer) := fun _ h => counted _ _ _ _ rfl h
theorem fcCksum (data : Bytes) : Statement (.fcCksum data) := fun _ h => counted _ _ _ _ rfl h
theorem fcParse (type : Byte) (payload : Bytes) : Statement (.fcParse type payload) := fun _ h => counted _ _ _ _ rfl h

/-- The count check of an OTA_RX row. -/
theorem rx_count {a b : Bool} (h : (a && b) = true) : b = true := by
  cases a <;> simp_all

theorem otaRxNotify (src : Addr) (payload : Bytes) : Statement (.otaRxNotify src payload) :=
  fun _ h => counted _ _ _ _ rfl (rx_count h)
theorem otaRxBlockReq (src : Addr) (payload : Bytes) : Statement (.otaRxBlockReq src payload) :=
  fun _ h => counted _ _ _ _ rfl (rx_count h)
theorem otaRxBlockResp (src : Addr) (payload : Bytes) : Statement (.otaRxBlockResp src payload) :=
  fun _ h => counted _ _ _ _ rfl (rx_count h)
theorem otaRxAbortReq (src : Addr) (payload : Bytes) : Statement (.otaRxAbortReq src payload) :=
  fun _ h => counted _ _ _ _ rfl (rx_count h)
theorem otaRxAbortResp (src : Addr) (payload : Bytes) : Statement (.otaRxAbortResp src payload) :=
  fun _ h => counted _ _ _ _ rfl (rx_count h)
theorem otaRxUpgReq (src : Addr) (payload : Bytes) : Statement (.otaRxUpgReq src payload) :=
  fun _ h => counted _ _ _ _ rfl (rx_count h)
theorem otaRxUpgResp (src : Addr) (payload : Bytes) : Statement (.otaRxUpgResp src payload) :=
  fun _ h => counted _ _ _ _ rfl (rx_count h)
theorem otaRxStatusReq (src : Addr) (payload : Bytes) : Statement (.otaRxStatusReq src payload) :=
  fun _ h => counted _ _ _ _ rfl (rx_count h)
theorem otaRxStatusResp (src : Addr) (payload : Bytes) : Statement (.otaRxStatusResp src payload) :=
  fun _ h => counted _ _ _ _ rfl (rx_count h)
theorem otaRxOther (type : Byte) (src : Addr) (payload : Bytes) : Statement (.otaRxOther type src payload) :=
  fun _ h => counted _ _ _ _ rfl (rx_count h)
theorem otaTick : Statement .otaTick := fun _ _ => plain _ _ _ (by decide)
theorem otaTrigger (peer : Addr) : Statement (.otaTrigger peer) := fun _ _ => plain .otaTrigger 0 0 (by decide)
theorem otaAbort : Statement .otaAbort := fun _ _ => plain _ _ _ (by decide)
theorem otaPoll : Statement .otaPoll := fun _ _ => plain _ _ _ (by decide)
theorem otaBoot : Statement .otaBoot := fun _ _ => plain _ _ _ (by decide)

end Sys2Proof.Laws.EncodeBoundary
end

