-- ==== Sys2Proof/Laws/Pseudo.lean ====
section
/-! SUPPORT. What the pseudo-instructions read back from a result: the two fields of FC_DECODE's RES, and the span a
decode consumes, which lies inside the buffer; and that RX_STEP command by command, left alone, is `rxStep`. -/

namespace Sys2Proof.Machine

/-- RES of a decoded frame as a number: the fields do not overlap (R252). -/
theorem frameRes_toNat {n : Nat} (h : n < 65536) (t : Byte) : (frameRes n t).toNat = n + 65536 * t.toNat := by
  have ht := t.isLt
  have e : frameRes n t = BitVec.ofNat 32 (n + 65536 * t.toNat) := by
    have h2 : n + 65536 * t.toNat = (65536 * t.toNat) ||| n := by
      rw [Nat.add_comm, show 65536 * t.toNat = t.toNat <<< 16 by rw [Nat.shiftLeft_eq]; ring]
      exact (Nat.shiftLeft_add_eq_or_of_lt (by simpa using h) _)
    apply BitVec.eq_of_toNat_eq
    rw [h2]
    simp only [frameRes, BitVec.toNat_or, BitVec.toNat_ofNat, BitVec.toNat_shiftLeft, BitVec.truncate_eq_setWidth,
      BitVec.toNat_setWidth, Nat.shiftLeft_eq]
    rw [Nat.mod_eq_of_lt (a := n) (by omega), Nat.mod_eq_of_lt (a := t.toNat) (by omega), Nat.or_comm, Nat.mul_comm]
    rw [Nat.mod_eq_of_lt (by omega), Nat.mod_eq_of_lt]
    apply Nat.or_lt_two_pow <;> omega
  rw [e, BitVec.toNat_ofNat]
  exact Nat.mod_eq_of_lt (by omega)

/-- RES[15:0] is `bytes_consumed`. -/
theorem frameRes_consumed {n : Nat} (h : n < 65536) (t : Byte) :
    (frameRes n t).extractLsb' 0 16 = BitVec.ofNat 16 n := by
  apply BitVec.eq_of_toNat_eq
  rw [BitVec.extractLsb'_toNat, frameRes_toNat h, BitVec.toNat_ofNat, Nat.shiftRight_zero]
  omega

/-- RES[23:16] is the frame type. -/
theorem frameRes_type {n : Nat} (h : n < 65536) (t : Byte) : (frameRes n t).extractLsb' 16 8 = t := by
  have ht := t.isLt
  apply BitVec.eq_of_toNat_eq
  rw [BitVec.extractLsb'_toNat, frameRes_toNat h, Nat.shiftRight_eq_div_pow]
  omega

/-- A decode consumes no more than the buffer (R252). -/
theorem decodeFrame_consumed_le (c : Config) (b : Bytes) : (decodeFrame c b).consumed ≤ b.length := by
  unfold decodeFrame
  split
  · simp [Decoded.bare]
  · rename_i p hp
    have hlt : p < b.length := (List.findIdx?_eq_some_iff_getElem.1 hp).1
    unfold decodeAt
    simp only
    split
    · simp only [Decoded.bare]
      omega
    · split
      · simp only [Decoded.bare]
        omega
      · split
        · simp only [Decoded.bare]
          omega
        · split <;> (simp only; omega)

@[simp] theorem State.lastResult_record (s : State) (r : Result) : (s.record r).lastResult = r := by
  simp [State.lastResult, State.record]

theorem thenResult_next (s : State) (f : Result → State → Answer) : thenResult (.next s) f = f s.lastResult s := rfl

/-- With no other command after it, an answer is itself. -/
theorem thenResult_id (a : Answer) : thenResult a (fun _ s => .next s) = a := by cases a <;> rfl

/-- A phase that has a command issues it, and the next phase goes on with the result. -/
theorem rxAlone_succ {p : RxPhase} {s : State} {i : Instr} (h : p.instr s.cfg = some i) (fuel : Nat) :
    rxAlone (fuel + 1) p s = thenResult (exec i s) fun r t => rxAlone fuel (p.after r) t := by
  simp [rxAlone, h]

@[simp] theorem rxAlone_done (fuel : Nat) (s : State) : rxAlone fuel .done s = .next s := by cases fuel <;> rfl

/-- The end of an RX_STEP left alone: the frame handed on, or nothing. -/
theorem rxAlone_afterDiscard (src : Addr) (d : Result) (s : State) (fuel : Nat) :
    rxAlone (fuel + 1) (rxAfterDiscard src d) s = rxHandOver src d s := by
  unfold rxAfterDiscard rxHandOver
  split
  · rw [rxAlone_succ (p := .handOver src d) rfl]
    simp only [RxPhase.after, rxAlone_done, thenResult_id]
  · exact rxAlone_done _ s

/-- RX_STEP command by command, with no other command between, is `rxStep`: at most five commands (R161). -/
theorem rxAlone_eq_rxStep (src : Addr) (s : State) : rxAlone 5 (.size src) s = rxStep src s := by
  rw [rxAlone_succ (p := .size src) rfl]
  unfold rxStep
  congr
  funext size t
  rw [RxPhase.after, rxAlone_succ (p := .peek src _) rfl]
  congr
  funext peeked u
  rw [RxPhase.after, rxAlone_succ (p := .decode src _) rfl]
  congr
  funext decoded v
  rw [RxPhase.after]
  unfold rxDiscard
  split
  · exact rxAlone_afterDiscard src decoded v 1
  · rw [rxAlone_succ (p := .discard src decoded) rfl]
    congr
    funext r w
    exact rxAlone_afterDiscard src decoded w 0

/-- What FC_DECODE answers is the decode of its buffer. -/
theorem fcDecode_isDecodeOf {c : Config} {b : Bytes} (hb : b.length < 65536) :
    IsDecodeOf c { st := (decodeFrame c b).st, res := (decodeFrame c b).res, dout := (decodeFrame c b).payload } b := by
  have hle := decodeFrame_consumed_le c b
  refine ⟨rfl, ?_, ?_, rfl⟩
  · simp only [Result.consumed, Decoded.res, frameRes_consumed (show (decodeFrame c b).consumed < 65536 by omega),
      BitVec.toNat_ofNat]
    omega
  · exact frameRes_type (by omega) _

/-- A command that only adds to the stored bytes leaves what the Consumer holds true (R572). -/
theorem RxCoherent.of_prefix {p : RxPhase} {s t : State} (h : RxCoherent p s) (hc : t.cfg = s.cfg)
    (hs : s.storedBytes <+: t.storedBytes) : RxCoherent p t := by
  unfold RxCoherent at h ⊢
  rw [hc]
  cases p with
  | size src => trivial
  | peek src n =>
    have := hs.length_le
    simp only [State.storedBytes_length] at this
    exact Nat.le_trans h this
  | decode src b => exact h.trans hs
  | discard src d =>
    obtain ⟨b, hb, hd⟩ := h
    exact ⟨b, hb.trans hs, hd⟩
  | handOver src d => exact h
  | done => trivial

end Sys2Proof.Machine
end

