-- ==== Sys2Proof/Laws/System.lean ====
section
/-! SUPPORT. Systems: no event changes an address, a frame reaches only the node it is addressed to, and the command it
arrives as is one the decoder accepts (spec/60_exceptions.md R517). -/

namespace Sys2Proof.Machine

/-! Addresses. -/

@[simp] theorem Node.issueAll_addr (n : Node) (is : List Input) : (n.issueAll is).addr = n.addr := rfl

@[simp] theorem Node.issue_addr (n : Node) (i : Input) : (n.issue i).addr = n.addr := rfl

@[simp] theorem Node.tick_addr (n : Node) : n.tick.addr = n.addr := by
  unfold Node.tick
  split <;> rfl

@[simp] theorem Node.powerOn_addr (order : BootOrder) (cap : U16) (n : Node) : (n.powerOn order cap).addr = n.addr := by
  unfold Node.powerOn
  split <;> rfl

@[simp] theorem Node.boot_addr (order : BootOrder) (cap : U16) (n : Node) : (n.boot order cap).addr = n.addr := by
  unfold Node.boot
  split <;> rfl

@[simp] theorem Node.rxBegin_addr (src : Addr) (n : Node) : (n.rxBegin src).addr = n.addr := by
  unfold Node.rxBegin
  split <;> rfl

@[simp] theorem deliverTo_addr (f : Config → Packet → Option Command) (p : Packet) (n : Node) :
    (deliverTo f p n).addr = n.addr := by
  unfold deliverTo
  split
  · split <;> rfl
  · rfl

/-- Changing one node by a function that keeps its address keeps all addresses. -/
theorem map_addr_modify (nodes : List Node) (k : Nat) {f : Node → Node} (h : ∀ n, (f n).addr = n.addr) :
    (nodes.modify k f).map Node.addr = nodes.map Node.addr := by
  apply List.ext_getElem? fun j => ?_
  simp only [List.getElem?_map, List.getElem?_modify]
  cases nodes[j]? with
  | none => rfl
  | some n =>
    split <;> simp [h]

/-- What a step of node k's block does to the system: nothing, or a next state of the block at node k and its frames in
the air. -/
theorem System.settle_cases (sys : System) (k : Nat) (n : Node) (rx : State → RxPhase) (a : Answer) :
    sys.settle k n rx a = sys ∨
      ∃ s, a = .next s ∧ sys.settle k n rx a =
        { nodes := sys.nodes.set k { n with st := s, rx := if s.ready then rx s else .done }
          air := sys.air ++ (newResults n.st s).flatMap (sentBy n.addr) } := by
  cases a with
  | next s => exact .inr ⟨s, rfl, rfl⟩
  | fault f => exact .inl rfl
  | refused r => exact .inl rfl

/-- A frame's source is the node that sent it. -/
theorem src_of_sentBy {src : Addr} {r : Result} {p : Packet} (h : p ∈ sentBy src r) : p.src = src := by
  simp only [sentBy, List.mem_filterMap] at h
  obtain ⟨e, -, he⟩ := h
  split at he
  · injection he with he
    rw [← he]
  · cases he

/-- Delivery, as one equation. -/
theorem System.deliver_eq {f : Config → Packet → Option Command} {sys : System} {k : Nat} {again : Bool} {p : Packet}
    (h : sys.air[k]? = some p) :
    sys.deliver f k again = { nodes := sys.nodes.map (deliverTo f p), air := airAfter sys.air k again } := by
  simp [System.deliver, h]

/-- A frame changes no node but the addressed one (R517). -/
theorem deliverTo_other {f : Config → Packet → Option Command} {p : Packet} {n : Node} (h : n.addr ≠ p.dest) :
    deliverTo f p n = n := if_neg h

/-- In an identified system at most one node has the address a frame is sent to (R517). -/
theorem System.Identified.one_receiver {sys : System} (h : sys.Identified) {i j : Nat} {m n : Node} {a : Addr}
    (hi : sys.nodes[i]? = some m) (hj : sys.nodes[j]? = some n) (hm : m.addr = a) (hn : n.addr = a) : i = j := by
  have hl : i < (sys.nodes.map Node.addr).length := by
    rw [List.length_map]
    exact (List.getElem?_eq_some_iff.1 hi).1
  refine (List.getElem?_inj hl h.distinct).1 ?_
  simp [hi, hj, hm, hn]

/-- A system stays identified while its nodes keep their addresses and ADDR_BITS, and every frame in the air was there before
or comes from one of them (R517). -/
theorem System.Identified.of_nodes {sys sys' : System} (h : sys.Identified)
    (ha : sys'.nodes.map Node.addr = sys.nodes.map Node.addr)
    (hn : ∀ m ∈ sys'.nodes, ∃ n ∈ sys.nodes, m.addr = n.addr ∧ m.st.cfg.addrBits = n.st.cfg.addrBits)
    (hp : ∀ p ∈ sys'.air, p ∈ sys.air ∨ ∃ n ∈ sys.nodes, p.src = n.addr) : sys'.Identified := by
  have fits {x y : Node} {a : Addr} (e : x.st.cfg.addrBits = y.st.cfg.addrBits) (hy : y.st.cfg.addrOk a = true) :
      x.st.cfg.addrOk a = true := by
    unfold Config.addrOk at hy ⊢
    rw [e]
    exact hy
  refine ⟨fun x hx y hy => ?_, fun x hx => ?_, by rw [ha]; exact h.distinct, fun p hq x hx => ?_⟩
  · obtain ⟨m, hm, -, e⟩ := hn x hx
    obtain ⟨n, hn, -, e'⟩ := hn y hy
    rw [e, e', h.oneWidth m hm n hn]
  · obtain ⟨m, hm, e, e'⟩ := hn x hx
    rw [e]
    exact fits e' (h.width m hm)
  · obtain ⟨m, hm, -, e⟩ := hn x hx
    refine fits e ?_
    rcases hp p hq with hq | ⟨n, hn, e'⟩
    · exact h.sources p hq m hm
    · rw [e']
      exact fits (h.oneWidth m hm n hn) (h.width n hn)

/-- Distinct addresses of ADDR_BITS bits make an identified system (R517). -/
theorem System.start_identified {addrs : List Addr} (hw : ∀ a ∈ addrs, Config.default.addrOk a = true)
    (hd : addrs.Nodup) : (System.start addrs).Identified := by
  have hc : ∀ n ∈ (System.start addrs).nodes, n.st.cfg = Config.default ∧ n.addr ∈ addrs := by
    intro n hn
    obtain ⟨a, ha, rfl⟩ := List.mem_map.1 hn
    exact ⟨rfl, ha⟩
  refine ⟨fun m hm n hn => by rw [(hc m hm).1, (hc n hn).1], fun n hn => ?_, ?_, fun p hp => nomatch hp⟩
  · rw [(hc n hn).1]
    exact hw _ (hc n hn).2
  · simpa [System.start, Function.comp_def] using hd

/-! The command a frame arrives as. -/

/-- The OTA_RX row of a frame type is encoded as OTA_RX with that type (R125). -/
theorem encode_rxInstr (c : Config) (t : Byte) (src : Addr) (p : Bytes) :
    encode c (rxInstr c t src p) = countedCommand .otaRx t src p := by
  unfold rxInstr
  split <;> first
    | rfl
    | (rename_i ht; rw [← tagByte_of_tagOf ht]; rfl)

/-- The payload that a decode reports is one that LEN can count (R252, R6). -/
theorem decodeFrame_payload_countOk {c : Config} (hc : c.Valid) (b : Bytes) :
    countOk (decodeFrame c b).payload = true := by
  have hm := hc.mtu_le
  simp only [countOk, decide_eq_true_eq]
  unfold decodeFrame
  split
  · simp [Decoded.bare]
  · rename_i p hp
    unfold decodeAt
    simp only
    split
    · simp [Decoded.bare]
    · split
      · simp [Decoded.bare]
      · split
        · simp [Decoded.bare]
        · split
          · simp only [slice, List.length_take, List.length_drop]
            omega
          · simp

/-- A delivered frame arrives as a command that the decoder accepts, so no frame stops a node (R517). -/
theorem rxCommand_decodes {c : Config} (hc : c.Valid) {p : Packet} {cmd : Command} (h : rxCommand c p = some cmd) :
    decode c cmd = .ok (rxInstr c (decodeFrame c p.bytes).type p.src (decodeFrame c p.bytes).payload) := by
  unfold rxCommand at h
  simp only at h
  split at h
  · rename_i hd
    injection h with h
    subst h
    rw [encode_rxInstr]
    exact decode_commandWord c .otaRx _ _ _ _ hd.2
      (by simp [Opcode.lenKind, lenOf_toNat (decodeFrame_payload_countOk hc p.bytes)]) rfl rfl
  · cases h

/-- So does one that is pushed into the ring buffer (R522). -/
theorem pushCommand_decodes {c : Config} {p : Packet} {cmd : Command} (h : pushCommand c p = some cmd) :
    decode c cmd = .ok (.rbPush p.bytes) := by
  unfold pushCommand at h
  split at h
  · rename_i hd
    injection h with h
    subst h
    exact decode_commandWord c .rbPush 0 _ 0 _ (addrOk_zero c) (by simp [Opcode.lenKind, lenOf_toNat hd]) rfl rfl
  · cases h

end Sys2Proof.Machine
end

