-- ==== Sys2Proof/Machine/Asm.lean ====
section
/-! DEFINITION. The command syntax of spec/30_encoding.md R160, printed: one line of text per command (log entry 21). The encoding of a line is
`encode` of Decode.lean. -/

namespace Sys2Proof.Machine

/-- One hexadecimal digit. -/
def hexDigit (n : Nat) : Char := if n < 10 then Char.ofNat (48 + n) else Char.ofNat (55 + n)

/-- The low `digits` hexadecimal digits of a number, most significant first. -/
def hexDigits : Nat → Nat → List Char
  | 0, _ => []
  | digits + 1, n => hexDigits digits (n / 16) ++ [hexDigit (n % 16)]

/-- A number in R160's `0x` form. -/
def hexNumber (digits n : Nat) : List Char := ['0', 'x'] ++ hexDigits digits n

/-- `[b0 b1 ...]`, each byte in hex (R160). -/
def asmBytes (b : Bytes) : List Char :=
  ['['] ++ List.intercalate [' '] (b.map fun x => hexDigits 2 x.toNat) ++ [']']

/-- The operands of a line, separated by commas. -/
def asmLine (mnemonic : String) (operands : List (List Char)) : List Char :=
  if operands.isEmpty then mnemonic.toList
  else mnemonic.toList ++ [' '] ++ List.intercalate [',', ' '] operands

/-- A 16-bit operand. -/
def asmCount (n : U16) : List Char := hexNumber 4 n.toNat

/-- An address operand. -/
def asmAddr (c : Config) (a : Addr) : List Char := hexNumber ((c.addrBits + 3) / 4) a

/-- An OTA_RX line: type, source, payload. -/
def asmRx (c : Config) (type : Byte) (src : Addr) (payload : Bytes) : List Char :=
  asmLine "OTA_RX" [hexNumber 2 type.toNat, asmAddr c src, asmBytes payload]

/-- The line of R160 for an instruction. -/
def asm (c : Config) : Instr → List Char
  | .rbInit cap => asmLine "RB_INIT" [asmCount cap]
  | .rbClear => asmLine "RB_CLEAR" []
  | .rbFree => asmLine "RB_FREE" []
  | .rbSize => asmLine "RB_SIZE" []
  | .rbPush data => asmLine "RB_PUSH" [asmBytes data]
  | .rbPop len copy => asmLine "RB_POP" [asmCount len, if copy then ['1'] else ['0']]
  | .rbPeek len => asmLine "RB_PEEK" [asmCount len]
  | .fcEncode type payload => asmLine "FC_ENCODE" [hexNumber 2 type.toNat, asmBytes payload]
  | .fcDecode buffer => asmLine "FC_DECODE" [asmBytes buffer]
  | .fcCksum data => asmLine "FC_CKSUM" [asmBytes data]
  | .fcParse type payload => asmLine "FC_PARSE" [hexNumber 2 type.toNat, asmBytes payload]
  | .otaRxNotify src payload => asmRx c c.tNotify src payload
  | .otaRxBlockReq src payload => asmRx c c.tBlockReq src payload
  | .otaRxBlockResp src payload => asmRx c c.tBlockResp src payload
  | .otaRxAbortReq src payload => asmRx c c.tAbortReq src payload
  | .otaRxAbortResp src payload => asmRx c c.tAbortResp src payload
  | .otaRxUpgReq src payload => asmRx c c.tUpgReq src payload
  | .otaRxUpgResp src payload => asmRx c c.tUpgResp src payload
  | .otaRxStatusReq src payload => asmRx c c.tStatusReq src payload
  | .otaRxStatusResp src payload => asmRx c c.tStatusResp src payload
  | .otaRxOther type src payload => asmRx c type src payload
  | .otaTick => asmLine "OTA_TICK" []
  | .otaTrigger peer => asmLine "OTA_TRIGGER" [asmAddr c peer]
  | .otaAbort => asmLine "OTA_ABORT" []
  | .otaPoll => asmLine "OTA_POLL" []
  | .otaBoot => asmLine "OTA_BOOT" []

end Sys2Proof.Machine
end

