-- ==== Sys2Proof/Tests/Slice0.lean ====
section
/-! SUPPORT. The model's own tests. Every expected value is the spec's: the words of spec/30_encoding.md R125, the vectors
V-… of 95_test_vectors.md (named beside each test), or arithmetic done by hand from the rule a comment names. The last part
holds one witness a statement of Obligations.lean: states and operands that meet its hypotheses, clause by clause. -/

namespace Sys2Proof.Machine.Tests

-- One test after another: each waiting kernel check holds a thread, and a thread's stack is large.
set_option Elab.async false

/-! ### Helpers -/

/-- A command with its sideband operands. -/
def cmd (cw : U32) (addr : Addr := 0) (din : Bytes := []) : Command := { cw := cw, addr := addr, din := din }

/-- What the decoder reads from a command under this hardware's parameters. -/
def read (c : Command) : Option Instr :=
  match decode Config.default c with
  | .ok i => some i
  | .error _ => none

/-- Why the decoder rejects a command. -/
def whyNot (c : Command) : Option Reject :=
  match decode Config.default c with
  | .ok _ => none
  | .error r => some r

/-- A state with one command at its port. -/
def State.at (s : State) (c : Command) : State := { s with pending := [.command c] }

/-- An answer is a next state. -/
def completes : Answer → Bool
  | .next _ => true
  | .fault _ => false
  | .refused _ => false

/-- The next state of an answer, `s` where there is none. -/
def nextOr (s : State) : Answer → State
  | .next t => t
  | .fault _ => s
  | .refused _ => s

theorem eq_nextOr {a : Answer} (s : State) (h : completes a = true) : a = .next (nextOr s a) := by
  cases a with
  | next t => rfl
  | fault e => cases h
  | refused r => cases h

/-- The state after one step that serves `c`. -/
def after (s : State) (c : Command) : State := nextOr s (step (State.at s c))

/-- What one step that serves `c` answers. -/
def answer (s : State) (c : Command) : Result := (after s c).lastResult

/-! The state every test starts from, and its invariant in a form that evaluates. -/

/-- The conditions of `RingInv`, each one decidable. -/
abbrev RingCheck (s : State) : Prop :=
  s.rbStorage.length = s.cfg.rbNmax ∧ (s.rbInited = true → 1 ≤ s.rbCap.toNat) ∧
    (s.rbInited = true → s.rbCap.toNat ≤ s.cfg.rbNmax) ∧ (s.rbInited = true → s.rbBegin < s.rbCap.toNat) ∧
    (s.rbInited = true → s.rbEnd < s.rbCap.toNat)

/-- The conditions of `OtaInv`. -/
abbrev OtaCheck (s : State) : Prop :=
  (s.ota.totalBlocks.toNat = blocks s.cfg s.ota.totalBytes.toNat ∧
      s.ota.currentBlock.toNat ≤ s.ota.totalBlocks.toNat ∧ (s.ota.downloading = .idle → s.ota.currentBlock = 0) ∧
      (s.ota.role = .client → s.ota.downloading = .idle → s.ota = OtaRecord.reset)) ∧
    (s.ota.role = .server → s.ota.downloading = .idle) ∧
    (s.ota.downloading = .upgradeRequesting → s.ota.currentBlock = s.ota.totalBlocks) ∧
    (s.ota.role = .client → s.ota.downloading ≠ .idle → legalLength s.cfg s.ota.totalBytes.toNat = true) ∧
    (s.ota.role = .client → s.ota.downloading ≠ .idle → s.tmrArmed = true) ∧
    (s.otaBooted = false → s.ota = OtaRecord.reset ∧ s.tmrArmed = false)

/-- The conditions of the rest of `Inv`. -/
abbrev StoreCheck (s : State) : Prop :=
  (Memory.Wf s.flashUnlisted s.flash ∧ ∀ cell ∈ s.flash, cell.1 < s.cfg.flashSize) ∧
  (s.cfg.addrOk s.ota.peer = true ∧ (∀ r ∈ s.nv, s.cfg.addrOk r.peer = true) ∧
    (s.ota.role = .server → legalLength s.cfg s.ota.totalBytes.toNat = true)) ∧
  (s.tmrArmed = false → s.tmrDelay = 0)

theorem ring_of_check {s : State} (h : RingCheck s) : RingInv s := by
  obtain ⟨r1, r2, r3, r4, r5⟩ := h
  exact ⟨r1, r2, r3, r4, r5⟩

theorem inv_of_checks {s : State} (hc : s.cfg.Valid) (hr : RingCheck s) (ho : OtaCheck s) (hs : StoreCheck s) : Inv s := by
  obtain ⟨⟨o1, o2, o3, o4⟩, o5, o6, o7, o8, o9⟩ := ho
  obtain ⟨⟨f1, f2⟩, ⟨w1, w2, w3⟩, t1⟩ := hs
  exact ⟨hc, ring_of_check hr, ⟨o1, o2, o3, o4, o5, o6, o7, o8, o9⟩, ⟨f1, f2⟩,
    ⟨w1, fun r hr => w2 r hr, w3⟩, ⟨t1⟩⟩

/-- A 60-byte image: IMAGE_MAGIC, the length 60 at 0x20, then byte k at k. Two blocks, of 50 and of 10 bytes. -/
def image : Bytes :=
  Config.default.imageMagic ++ List.replicate 20 0 ++ [60, 0, 0, 0] ++ (List.range' 0x24 24).map (BitVec.ofNat 8)

/-- `crc32` of the image, by a CRC-32 program outside the model. -/
def imageCrc : U32 := 0xD59526F3

/-- A flash that holds bytes from address 0 on, and FLASH_ERASED elsewhere. -/
def flashOf (b : Bytes) : Memory := Memory.writeBytes 0xFF [] 0 b

/-- A node on which OTA_BOOT has run: an Idle client. -/
def idle : State := { State.reset with otaBooted := true }

/-- A server of the image. -/
def server : State :=
  { idle with
    flash := flashOf image
    ota :=
      { OtaRecord.reset with
        role := .server, totalBytes := 60, totalBlocks := 2, crc := imageCrc, peer := 2, requestPeriodMs := 1000 } }

/-- The record of a client that has `cb` of the image's two blocks. -/
def clientRecord (d : Downloading) (cb : U32) : OtaRecord :=
  { role := .client, downloading := d, totalBytes := 60, totalBlocks := 2, currentBlock := cb, crc := imageCrc,
    peer := 1, requestPeriodMs := 1000 }

/-- A client in a transfer, with what its flash holds. -/
def client (d : Downloading) (cb : U32) (f : Memory) : State :=
  { idle with
    ota := clientRecord d cb
    nv := some { clientRecord .downloading 0 with crc := 0 }
    tmrArmed := true
    flash := f }

/-- A client that has no block yet, one that misses the last, one that has them all, and one that has verified. -/
def first : State := client .downloading 0 []
def last : State := client .downloading 1 (flashOf (image.take 50))
def complete : State := client .downloading 2 (flashOf image)
def verified : State := client .upgradeRequesting 2 (flashOf image)

/-- The ring buffer after V-RB-16: RB[2] = CC, RB[3] = 11, RB[0] = 22, begin 2, end 1. -/
def ring : State :=
  { State.reset with
    rbInited := true, rbCap := 4, rbBegin := 2, rbEnd := 1
    rbStorage := [0x22, 0xBB, 0xCC, 0x11] ++ List.replicate 252 0 }

/-- The BlockResponse payloads of the image's two blocks (R143). -/
def block0 : Bytes := [0, 0, 0, 0, 50, 0] ++ image.take 50 ++ [0xF3, 0x26, 0x95, 0xD5]
def block1 : Bytes := [1, 0, 0, 0, 10, 0] ++ image.drop 50 ++ [0xF3, 0x26, 0x95, 0xD5]

theorem test_inv_reset : Inv State.reset := inv_of_checks Config.default_valid (by decide +kernel) (by decide +kernel) (by decide +kernel)
theorem test_inv_idle : Inv idle := inv_of_checks Config.default_valid (by decide +kernel) (by decide +kernel) (by decide +kernel)
theorem test_inv_server : Inv server := inv_of_checks Config.default_valid (by decide +kernel) (by decide +kernel) (by decide +kernel)
theorem test_inv_first : Inv first := inv_of_checks Config.default_valid (by decide +kernel) (by decide +kernel) (by decide +kernel)
theorem test_inv_last : Inv last := inv_of_checks Config.default_valid (by decide +kernel) (by decide +kernel) (by decide +kernel)
theorem test_inv_complete : Inv complete := inv_of_checks Config.default_valid (by decide +kernel) (by decide +kernel) (by decide +kernel)
theorem test_inv_verified : Inv verified := inv_of_checks Config.default_valid (by decide +kernel) (by decide +kernel) (by decide +kernel)
theorem test_inv_ring : Inv ring := inv_of_checks Config.default_valid (by decide +kernel) (by decide +kernel) (by decide +kernel)

/-! ### WellFormed: each check refuses its ill-formed term -/

theorem test_wellFormed_capacity_zero : Instr.wellFormed Config.default (.rbInit 0) = false := by decide
theorem test_wellFormed_capacity_above : Instr.wellFormed Config.default (.rbInit 257) = false := by decide
theorem test_wellFormed_capacity_max : Instr.wellFormed Config.default (.rbInit 256) = true := by decide
theorem test_wellFormed_din_too_long : Instr.wellFormed Config.default (.rbPush (List.replicate 65536 0)) = false := by
  simp only [Instr.wellFormed, countOk, List.length_replicate]
  decide
theorem test_wellFormed_address : Instr.wellFormed Config.default (.otaTrigger 0x10000) = false := by decide
theorem test_wellFormed_source : Instr.wellFormed Config.default (.otaRxNotify 0x10000 []) = false := by decide
theorem test_wellFormed_other_tag : Instr.wellFormed Config.default (.otaRxOther 0x50 1 []) = false := by decide
theorem test_wellFormed_other : Instr.wellFormed Config.default (.otaRxOther 0x30 0xFFFF []) = true := by decide

/-! ### Decode: a word of R125 for every constructor -/

theorem test_decode_rbInit : read (cmd 0x00080001) = some (.rbInit 8) := by decide
theorem test_decode_rbClear : read (cmd 0x00000002) = some .rbClear := by decide
theorem test_decode_rbFree : read (cmd 0x00000003) = some .rbFree := by decide
theorem test_decode_rbSize : read (cmd 0x00000004) = some .rbSize := by decide
theorem test_decode_rbPush : read (cmd 0x00030005 0 [0xAA, 0xBB, 0xCC]) = some (.rbPush [0xAA, 0xBB, 0xCC]) := by decide
theorem test_decode_rbPop : read (cmd 0x00030106) = some (.rbPop 3 true) := by decide
theorem test_decode_rbPop_discard : read (cmd 0x00020006) = some (.rbPop 2 false) := by decide
theorem test_decode_rbPeek : read (cmd 0x00020007) = some (.rbPeek 2) := by decide
theorem test_decode_fcEncode : read (cmd 0x0001FF10 0 [0xFF]) = some (.fcEncode 0xFF [0xFF]) := by decide
theorem test_decode_fcDecode : read (cmd 0x00030011 0 [0x11, 0x7E, 0x50]) = some (.fcDecode [0x11, 0x7E, 0x50]) := by
  decide
theorem test_decode_fcCksum : read (cmd 0x00020012 0 [0xFF, 1]) = some (.fcCksum [0xFF, 1]) := by decide
theorem test_decode_fcParse : read (cmd 0x00023013 0 [1, 2]) = some (.fcParse 0x30 [1, 2]) := by decide
theorem test_decode_otaRxNotify :
    read (cmd 0x00065020 2 [0xED, 0, 0, 0, 0xE8, 3]) = some (.otaRxNotify 2 [0xED, 0, 0, 0, 0xE8, 3]) := by decide
theorem test_decode_otaRxBlockReq : read (cmd 0x00045120 2 [4, 0, 0, 0]) = some (.otaRxBlockReq 2 [4, 0, 0, 0]) := by
  decide
theorem test_decode_otaRxBlockResp : read (cmd 0x00015220 1 [9]) = some (.otaRxBlockResp 1 [9]) := by decide
theorem test_decode_otaRxAbortReq : read (cmd 0x00005320 7) = some (.otaRxAbortReq 7 []) := by decide
theorem test_decode_otaRxAbortResp : read (cmd 0x00005420 2) = some (.otaRxAbortResp 2 []) := by decide
theorem test_decode_otaRxUpgReq : read (cmd 0x00005520 2) = some (.otaRxUpgReq 2 []) := by decide
theorem test_decode_otaRxUpgResp : read (cmd 0x00005620 1) = some (.otaRxUpgResp 1 []) := by decide
theorem test_decode_otaRxStatusReq : read (cmd 0x00005720 1) = some (.otaRxStatusReq 1 []) := by decide
theorem test_decode_otaRxStatusResp :
    read (cmd 0x00065820 2 [1, 0x3C, 2, 0, 0, 0]) = some (.otaRxStatusResp 2 [1, 0x3C, 2, 0, 0, 0]) := by decide
theorem test_decode_otaRxOther : read (cmd 0x00013020 2 [1]) = some (.otaRxOther 0x30 2 [1]) := by decide
theorem test_decode_otaTick : read (cmd 0x00000021) = some .otaTick := by decide
theorem test_decode_otaTrigger : read (cmd 0x00000022 2) = some (.otaTrigger 2) := by decide
theorem test_decode_otaAbort : read (cmd 0x00000023) = some .otaAbort := by decide
theorem test_decode_otaPoll : read (cmd 0x00000024) = some .otaPoll := by decide
theorem test_decode_otaBoot : read (cmd 0x00000025) = some .otaBoot := by decide

/-- V-ENC-1 .. V-ENC-16, each with the name it is rejected by. -/
theorem test_decode_reserved_op :
    ([0x00000000, 0x00000008, 0x00000014, 0x00000026, 0xFFFFFFFF] : List U32).map (fun w => whyNot (cmd w)) =
      List.replicate 5 (some .reservedOp) := by decide

theorem test_decode_reserved_field :
    ([0x00000104, 0x00080101, 0x00010002, 0x00010206, 0x00000111, 0x00000512, 0x00010021, 0x00000125] : List U32).map
      (fun w => whyNot (cmd w)) = List.replicate 8 (some .reservedField) := by decide

theorem test_decode_capacity :
    ([0x00000001, 0x01010001] : List U32).map (fun w => whyNot (cmd w)) = List.replicate 2 (some .capacityRange) := by
  decide

theorem test_decode_boundary :
    whyNot (cmd 0x00030005 0 [1, 2]) = some .dinLength ∧ whyNot (cmd 0x00000022 0x10000) = some .addrWidth := by decide

/-- The words are laid out as R160 computes them: `LEN << 16 | A << 8 | OP`. -/
theorem test_encode_words :
    (encode Config.default (.rbInit 8)).cw = 0x00080001 ∧ (encode Config.default (.rbPop 3 true)).cw = 0x00030106 ∧
    (encode Config.default (.otaRxBlockReq 2 [4, 0, 0, 0])).cw = 0x00045120 ∧
    (encode Config.default .otaBoot).cw = 0x00000025 := by decide

/-- R160's own spelling of a command, as V-RB-14, V-FC-1 and V-SRV-7 write it (the numbers in hex). -/
theorem test_asm :
    String.ofList (asm Config.default (.rbPop 2 false)) = "RB_POP 0x0002, 0" ∧
    String.ofList (asm Config.default (.otaRxBlockReq 2 [4, 0, 0, 0])) = "OTA_RX 0x51, 0x0002, [04 00 00 00]" ∧
    String.ofList (asm Config.default .otaBoot) = "OTA_BOOT" := by decide +kernel

/-- The host's entry reads a table word: RB_CLEAR, and RB_PUSH with no bytes. -/
theorem test_decodeTableWord :
    decodeTableWord 32 0x00000002 = some .rbClear ∧ decodeTableWord 32 0x00000005 = some (.rbPush []) ∧
      decodeTableWord 32 0x00000001 = none := by decide

/-! ### One step -/

/-- V-RB-9, V-ENC-8. -/
theorem test_rbInit : answer State.reset (cmd 0x00040001) = { st := .ok } ∧ (after State.reset (cmd 0x00040001)).rbCap = 4 ∧
    answer State.reset (cmd 0x00000001) = { st := .illegal } := by decide +kernel

/-- V-RB-19. -/
theorem test_rbClear : (after ring (cmd 0x00000002)).rbBegin = 0 ∧ (after ring (cmd 0x00000002)).rbEnd = 0 := by
  decide +kernel

/-- V-RB-17: (1 - 2) mod 4 = 3, so nothing is free. -/
theorem test_rbFree : answer ring (cmd 0x00000003) = { st := .ok, res := 0 } := by decide +kernel
theorem test_rbSize : answer ring (cmd 0x00000004) = { st := .ok, res := 3 } := by decide +kernel

/-- V-RB-16: the push straddles the wrap; V-RB-15 drops one byte more. -/
theorem test_rbPush :
    let s : State := { ring with rbEnd := 3, rbStorage := [0xAA, 0xBB, 0xCC] ++ List.replicate 253 0 }
    (after s (cmd 0x00020005 0 [0x11, 0x22])).rbStorage.take 4 = [0x22, 0xBB, 0xCC, 0x11] ∧
    (after s (cmd 0x00020005 0 [0x11, 0x22])).rbEnd = 1 ∧
    answer s (cmd 0x00030005 0 [0x11, 0x22, 0x33]) = { st := .dropped } := by decide +kernel

/-- V-RB-18 as a pop: the bytes in order across the wrap, and the begin at the end. -/
theorem test_rbPop : answer ring (cmd 0x00030106) = { st := .ok, dout := [0xCC, 0x11, 0x22] } ∧
    (after ring (cmd 0x00030106)).rbBegin = 1 := by decide +kernel

/-- V-RB-18, and V-RB-12's dropped peek. -/
theorem test_rbPeek : answer ring (cmd 0x00030007) = { st := .ok, dout := [0xCC, 0x11, 0x22] } ∧
    answer ring (cmd 0x00040007) = { st := .dropped } := by decide +kernel

/-- V-FC-5. -/
theorem test_fcEncode : answer State.reset (cmd 0x00027E10 0 [0x7E, 0x7E]) =
    { st := .ok, res := 7, dout := [0x7E, 0x7E, 2, 0, 0x7E, 0x7E, 0x7C] } := by decide +kernel

/-- V-FC-8: one byte above MTU. -/
theorem test_fcEncode_too_long : answer State.reset (cmd 0x00815110 0 (List.replicate 129 0)) = { st := .tooLong } := by
  decide +kernel

/-- V-FD-10: noise before, a byte after. -/
theorem test_fcDecode : answer State.reset (cmd 0x00080011 0 [0x11, 0x22, 0x7E, 0x55, 0, 0, 0x55, 0x7E]) =
    { st := .ok, res := 0x550007 } := by decide +kernel

/-- V-FD-6, V-FD-8, V-FD-9. -/
theorem test_fcDecode_failures :
    answer State.reset (cmd 0x00090011 0 [0x7E, 0x51, 4, 0, 4, 0, 0, 0, 0x5A]) = { st := .cksumBad, res := 0x510009 } ∧
    answer State.reset (cmd 0x00060011 0 [0, 0x7E, 0x51, 0x81, 0, 0x99]) = { st := .invalid, res := 2 } ∧
    answer State.reset (cmd 0x00040011 0 [0x7E, 1, 0x80, 0]) = { st := .incomplete } := by decide +kernel

/-- V-FC-11, V-FC-13. -/
theorem test_fcCksum : answer State.reset (cmd 0x00070012 0 [0x51, 4, 0, 4, 0, 0, 0]) = { st := .ok, res := 0x59 } ∧
    answer State.reset (cmd 0x00020012 0 [0xFF, 1]) = { st := .ok } := by decide +kernel

/-- V-FP-5. -/
theorem test_fcParse : answer State.reset (cmd 0x000B5213 0 [0, 0, 0, 0, 1, 0, 0xAA, 0x78, 0x56, 0x34, 0x12]) =
    { st := .ok, msg := some (.blockResponse 0 1 [0xAA] 0x12345678) } := by decide +kernel

/-- V-FP-15, V-FP-17. -/
theorem test_fcParse_failures : answer State.reset (cmd 0x00065813 0 [2, 0x28, 2, 0, 0, 0]) = { st := .malformed } ∧
    answer State.reset (cmd 0x00023013 0 [1, 2]) = { st := .other } := by decide +kernel

/-- V-CLI-14. -/
theorem test_otaRxNotify :
    let o : OtaRecord :=
      { role := .client, downloading := .downloading, totalBytes := 237, totalBlocks := 5, currentBlock := 0, crc := 0,
        peer := 1, requestPeriodMs := 1000 }
    answer first (cmd 0x00065020 1 [0xED, 0, 0, 0, 0xE8, 3]) =
      { st := .ok, effects := [.flashErase 0, .nvSave o, .timerArm 0] } ∧
    (after first (cmd 0x00065020 1 [0xED, 0, 0, 0, 0xE8, 3])).ota = o := by decide +kernel

/-- V-CLI-9 and V-SRV-16. -/
theorem test_otaRxNotify_ignored :
    answer first (cmd 0x00065020 1 [1, 0, 8, 0, 0xE8, 3]) = { st := .ignored } ∧
    answer server (cmd 0x00065020 2 [0xED, 0, 0, 0, 0xE8, 3]) = { st := .ignored } := by decide +kernel

/-- As V-SRV-7, for the last block of this image: 10 bytes, payload length 20; the checksum byte is by hand. -/
theorem test_otaRxBlockReq :
    (answer server (cmd 0x00045120 3 [1, 0, 0, 0])).st = .ok ∧
    (answer server (cmd 0x00045120 3 [1, 0, 0, 0])).effects =
      [.send 3 ([0x7E, 0x52, 20, 0] ++ block1 ++ [0x15])] := by decide +kernel

/-- V-SRV-5 and V-SRV-8. -/
theorem test_otaRxBlockReq_failures : answer server (cmd 0x00045120 2 [2, 0, 0, 0]) = { st := .ignored } ∧
    answer server (cmd 0x00055120 2 [4, 0, 0, 0, 0]) = { st := .malformed } := by decide +kernel

/-- As V-CLI-18. -/
theorem test_otaRxBlockResp : answer first (cmd 0x003C5220 1 block0) =
      { st := .ok, effects := [.flashWrite 0 (image.take 50)] } ∧
    (after first (cmd 0x003C5220 1 block0)).ota.currentBlock = 1 := by decide +kernel

/-- P3's last block: Verify succeeds at once (R403, R405). -/
theorem test_otaRxBlockResp_last : answer last (cmd 0x00145220 1 block1) =
      { st := .ok, effects := [.flashWrite 50 (image.drop 50), .timerArm 1000, .report .verifyOk] } ∧
    (after last (cmd 0x00145220 1 block1)).ota.downloading = .upgradeRequesting := by decide +kernel

/-- V-CLI-22. -/
theorem test_otaRxAbortReq : answer last (cmd 0x00005320 7) =
    { st := .ok
      effects := [.nvSave OtaRecord.reset, .timerDisarm, .send 7 [0x7E, 0x54, 0, 0, 0x54]] } := by decide +kernel

/-- V-SRV-12. -/
theorem test_otaRxAbortResp : answer server (cmd 0x00005420 2) = { st := .ok, effects := [.report (.abortAcked 2)] } := by
  decide +kernel

/-- V-SRV-13. -/
theorem test_otaRxUpgReq : answer server (cmd 0x00005520 2) =
    { st := .ok, effects := [.send 2 [0x7E, 0x56, 0, 0, 0x56]] } := by decide +kernel

/-- R406, as in P3; V-CLI-17. -/
theorem test_otaRxUpgResp : answer verified (cmd 0x00005620 1) =
      { st := .ok, effects := [.nvSave OtaRecord.reset, .timerDisarm, .invalidateRunningHeader, .softwareReset] } ∧
    (after verified (cmd 0x00005620 1)).otaBooted = false ∧
    answer last (cmd 0x00005620 1) = { st := .ignored } := by decide +kernel

/-- V-CLI-4. -/
theorem test_otaRxStatusReq : answer idle (cmd 0x00005720 1) =
    { st := .ok, effects := [.send 1 [0x7E, 0x58, 6, 0, 0, 0, 0, 0, 0, 0, 0x5E]] } := by decide +kernel

/-- V-SRV-14. -/
theorem test_otaRxStatusResp : answer server (cmd 0x00065820 2 [1, 0x3C, 2, 0, 0, 0]) =
    { st := .ok, effects := [.report (.remoteStatus 2 1 60 2)] } := by decide +kernel

/-- V-SRV-9. -/
theorem test_otaRxOther : answer server (cmd 0x00013020 2 [1]) = { st := .other } := by decide +kernel

/-- V-CLI-24, with the peer and period of this client. -/
theorem test_otaTick : answer first (cmd 0x00000021) =
    { st := .ok
      effects := [.timerDisarm, .send 1 [0x7E, 0x51, 4, 0, 0, 0, 0, 0, 0x55], .timerArm 1000] } := by decide +kernel

/-- V-BOOT-12. -/
theorem test_otaTick_verifies : answer complete (cmd 0x00000021) =
    { st := .ok, effects := [.timerDisarm, .timerArm 1000, .report .verifyOk] } := by decide +kernel

/-- As V-SRV-4: Notify(60, 1000), whose checksum is 0x50 + 6 + 0x3C + 0xE8 + 3 = 0x17D. -/
theorem test_otaTrigger : answer { idle with flash := flashOf image } (cmd 0x00000022 2) =
    { st := .ok
      res := 2
      effects := [.send 2 [0x7E, 0x50, 6, 0, 60, 0, 0, 0, 0xE8, 3, 0x7D], .report (.notified 60 2 imageCrc)] } := by
  decide +kernel

/-- V-CLI-13, V-SRV-1. -/
theorem test_otaTrigger_failures : answer first (cmd 0x00000022 1) = { st := .busy, effects := [.report .busy] } ∧
    answer idle (cmd 0x00000022 2) = { st := .noImage, effects := [.report .noImage] } := by decide +kernel

/-- V-CLI-25. -/
theorem test_otaAbort : answer first (cmd 0x00000023) =
    { st := .ok, effects := [.nvSave OtaRecord.reset, .timerDisarm, .report .aborted] } := by decide +kernel

/-- V-SRV-18. -/
theorem test_otaAbort_server : answer server (cmd 0x00000023) =
    { st := .ok, effects := [.send 2 [0x7E, 0x53, 0, 0, 0x53], .report .abortSent] } := by decide +kernel

/-- As V-CLI-21: 1 of 2 blocks is 50 percent, 0x132. -/
theorem test_otaPoll : answer last (cmd 0x00000024) =
    { st := .ok, res := 0x132, effects := [.report (.localStatus 1 50 0)] } := by decide +kernel

/-- V-SRV-19. -/
theorem test_otaPoll_server : answer server (cmd 0x00000024) =
    { st := .ok, effects := [.send 2 [0x7E, 0x57, 0, 0, 0x57]] } := by decide +kernel

/-- As V-BOOT-2. -/
theorem test_otaBoot : answer { State.reset with nv := some (clientRecord .downloading 1) } (cmd 0x00000025) =
    { st := .ok, effects := [.timerArm 0, .report (.resumed 1 2)] } := by decide +kernel

/-- V-BOOT-5 and V-BOOT-10. -/
theorem test_otaBoot_no_resume :
    answer { State.reset with nv := some (clientRecord .upgradeRequesting 1) } (cmd 0x00000025) = { st := .ok } ∧
    answer idle (cmd 0x00000025) = { st := .ignored } := by decide +kernel

/-- R551: powered on with the smallest capacity it allows, in either order, a node has both units ready three steps later,
with room for MTU + 5 bytes; with one byte less the Platform does not power it on. -/
theorem test_powerOn :
    (∀ order ∈ [BootOrder.ringFirst, .otaFirst],
      (({ nodes := [{ addr := 1, st := State.reset }], air := [] } : System).run
          [.powerOn 0 order 134, .run 0, .run 0, .run 0]).nodes.map
        (fun n => (n.st.rbInited, n.st.otaBooted, n.st.freeSpace)) = [(true, true, 133)]) ∧
    (({ nodes := [{ addr := 1, st := State.reset }], air := [] } : System).step (.powerOn 0 .ringFirst 133)).nodes =
      [{ addr := 1, st := State.reset }] := by decide +kernel

/-- R551: after the software reset of R406 the Platform boots the node. -/
theorem test_boot_after_softwareReset :
    (({ nodes := [{ addr := 2, st := verified }], air := [] } : System).run
        [.issue 0 (.command (cmd 0x00005620 1)), .run 0, .boot 0 .ringFirst 256, .run 0, .run 0]).nodes.map
      (fun n => (n.st.rbInited, n.st.otaBooted, n.st.pending)) = [(true, true, [])] := by decide +kernel

/-- Log entry 25: a frame that RB_PUSH can count is pushed; a longer one is not. -/
theorem test_pushCommand :
    pushCommand Config.default { src := 1, dest := 2, bytes := [0x7E] } = some (cmd 0x00010005 0 [0x7E]) ∧
    pushCommand Config.default { src := 1, dest := 2, bytes := List.replicate 65536 0 } = none := by
  refine ⟨by decide, ?_⟩
  simp only [pushCommand, countOk, List.length_replicate]
  decide

/-- V-CRC-1 and V-CRC-3. -/
theorem test_crc32 : crc32 Config.default [0x31, 0x32, 0x33, 0x34, 0x35, 0x36, 0x37, 0x38, 0x39] = 0xCBF43926 ∧
    crc32 Config.default [0] = 0xD202EF8D := by decide +kernel

/-- `crc_flash` of the image in flash, chunk by chunk, is the value an outside CRC-32 gives. -/
theorem test_crcFlash : crc32 Config.default image = imageCrc := by decide +kernel

/-! ### Witnesses: states and operands that meet the hypotheses of each obligation that has any, one clause a line where it has
several -/

/-- A client 99 blocks into a transfer of 5500 bytes (V-SRC-2: 110 blocks), saved at block 0: the next block is the
checkpoint, and a restart here loses the most it can. -/
def nearCheckpoint : State :=
  { first with
    ota := { clientRecord .downloading 99 with totalBytes := 5500, totalBlocks := 110 }
    nv := some { clientRecord .downloading 0 with totalBytes := 5500, totalBlocks := 110 } }

/-- Block 99 of that transfer, 50 zero bytes (R143). -/
def block99 : Bytes := [99, 0, 0, 0, 50, 0] ++ List.replicate 50 0 ++ [0, 0, 0, 0]

/-- A client that has counted every block over an erased flash. -/
def corrupt : State := client .downloading 2 []

theorem test_inv_nearCheckpoint : Inv nearCheckpoint :=
  inv_of_checks Config.default_valid (by decide +kernel) (by decide +kernel) (by decide +kernel)
theorem test_inv_corrupt : Inv corrupt :=
  inv_of_checks Config.default_valid (by decide +kernel) (by decide +kernel) (by decide +kernel)

theorem test_checkpoint_first : CheckpointInv first := fun _ _ =>
  ⟨_, rfl, by decide +kernel, rfl, rfl, by decide +kernel, by decide +kernel⟩
theorem test_checkpoint_nearCheckpoint : CheckpointInv nearCheckpoint := fun _ _ =>
  ⟨_, rfl, by decide +kernel, rfl, rfl, by decide +kernel, by decide +kernel⟩

theorem test_image_verifies : Verifies Config.default server.flashByte 60 imageCrc :=
  ⟨⟨by decide +kernel, by decide +kernel⟩, by decide +kernel⟩

theorem test_corrupt_does_not_verify : ¬ Verifies Config.default corrupt.flashByte 60 imageCrc :=
  fun h => absurd h.1.1 (by decide +kernel)

/-- An instruction completes on a state. -/
def runs (s : State) (i : Instr) : Bool := i.wellFormed s.cfg && completes (exec i s)

/-- The state an instruction leaves. -/
def ran (s : State) (i : Instr) : State := nextOr s (exec i s)

theorem exec_ran {s : State} {i : Instr} (h : runs s i = true) : i.wellFormed s.cfg = true ∧ exec i s = .next (ran s i) := by
  simp only [runs, Bool.and_eq_true] at h
  exact ⟨h.1, eq_nextOr s h.2⟩

theorem test_witness_DecodeOfEncodeIsTheInstruction :
    Config.default.Valid ∧
    ∀ i ∈ ([.rbInit 1, .rbInit 256, .rbPush [], .rbPop 65535 true, .fcEncode 255 [0], .otaRxNotify 0xFFFF [1],
      .otaRxOther 0x4F 0 [], .otaRxOther 0x59 0 [], .otaTrigger 0xFFFF] : List Instr),
      i.wellFormed Config.default = true := ⟨Config.default_valid, by decide⟩

theorem test_witness_EncodeOfDecodeIsTheCommand : decode Config.default (cmd 0x00010106 0xFFFF) = .ok (.rbPop 1 true) := rfl

theorem test_witness_IllegalEncodingsAnswerIllegal :
    idle.cfg.Valid ∧ (∀ w : U32, (State.at idle (cmd w)).pending = [.command (cmd w)]) ∧ idle.cfg.addrOk 0 = true ∧
    (∀ w ∈ ([0x00, 0x08, 0x0F, 0x14, 0x1F, 0x26, 0xFF, 0x104, 0x10002, 0x206, 0x01, 0x01010001] : List Nat),
      countedLength (BitVec.ofNat 32 w) = 0 ∧ IllegalWord idle.cfg (BitVec.ofNat 32 w)) ∧
    ∀ w ∈ ([0x10001, 0x01000001, 0x07, 0x106, 0x10, 0xFF13, 0x20, 0x25] : List Nat),
      countedLength (BitVec.ofNat 32 w) = 0 ∧ ¬ IllegalWord idle.cfg (BitVec.ofNat 32 w) := by
  refine ⟨Config.default_valid, fun _ => rfl, rfl, ?_, ?_⟩ <;> unfold IllegalWord <;> decide +kernel

theorem test_witness_PortWaitsAndRefuses :
    ¬ Config.Valid { Config.default with crcChunk := 0 } ∧ Config.default.Valid ∧ idle.pending = [] ∧
    Config.default.addrOk 0x10000 = false ∧ Config.default.addrOk 0xFFFF = true ∧
    (cmd 0x00010005).din.length ≠ countedLength 0x00010005 ∧ (cmd 0x00000002 0 [0]).din.length ≠ countedLength 0x00000002 := by
  decide +kernel

theorem test_witness_StepRunsTheDecodedInstruction :
    first.cfg.Valid ∧ (State.at first (cmd 0x003C5220 1 block0)).pending = .command (cmd 0x003C5220 1 block0) :: [] ∧
      decode first.cfg (cmd 0x003C5220 1 block0) = .ok (.otaRxBlockResp 1 block0) := ⟨Config.default_valid, rfl, rfl⟩

theorem test_witness_ResetKeepsTheStores :
    last.cfg.Valid ∧ ({ last with pending := [.reset] } : State).pending = .reset :: [] := ⟨Config.default_valid, rfl⟩

theorem test_witness_StepKeepsInv :
    Inv (State.at first (cmd 0x003C5220 1 block0)) ∧
      step (State.at first (cmd 0x003C5220 1 block0)) = .next (after first (cmd 0x003C5220 1 block0)) :=
  ⟨inv_of_checks Config.default_valid (by decide +kernel) (by decide +kernel) (by decide +kernel),
    eq_nextOr _ (by decide +kernel)⟩

theorem test_witness_InvRulesOutFaults :
    Inv last ∧ Instr.wellFormed last.cfg (.otaRxBlockResp 1 block1) = true := ⟨test_inv_last, by decide +kernel⟩

theorem test_witness_FlashEffectsStayInTheImageArea :
    Inv first ∧
    (exec (.otaRxBlockResp 1 block0) first = .next (ran first (.otaRxBlockResp 1 block0)) ∧
      Effect.flashWrite 0 (image.take 50) ∈ newEffects first (ran first (.otaRxBlockResp 1 block0))) ∧
    (exec (.otaRxNotify 1 [0, 0, 8, 0, 1, 0]) first = .next (ran first (.otaRxNotify 1 [0, 0, 8, 0, 1, 0])) ∧
      Effect.flashErase 7 ∈ newEffects first (ran first (.otaRxNotify 1 [0, 0, 8, 0, 1, 0]))) :=
  ⟨test_inv_first, ⟨(exec_ran (by decide +kernel)).2, by decide +kernel⟩, (exec_ran (by decide +kernel)).2, by decide +kernel⟩

theorem test_witness_StepKeepsParameters :
    step (State.at idle (cmd 0x00000021)) = .next (after idle (cmd 0x00000021)) := eq_nextOr _ (by decide +kernel)

theorem test_witness_ResultsAreOutputsNotState : exec .otaTick first = .next (ran first .otaTick) :=
  eq_nextOr _ (by decide +kernel)

theorem test_witness_EffectsAccountForTheStores :
    first.cfg.Valid ∧ Instr.wellFormed first.cfg (.otaRxBlockResp 1 block0) = true ∧
      exec (.otaRxBlockResp 1 block0) first = .next (ran first (.otaRxBlockResp 1 block0)) :=
  ⟨Config.default_valid, exec_ran (by decide +kernel)⟩

theorem test_witness_FailingStatusRecordsNothing :
    first.cfg.Valid ∧ Instr.wellFormed first.cfg (.otaTrigger 1) = true ∧ Instr.otaTrigger 1 ≠ .otaTick ∧
      exec (.otaTrigger 1) first = .next (first.record { st := .busy, effects := [.report .busy] }) ∧
      Status.busy ≠ .ok := ⟨Config.default_valid, by decide, by decide, rfl, by decide⟩

theorem test_witness_OnlyTheNamedCommandsWrite :
    (Inv { idle with flash := flashOf image } ∧ Inv State.reset ∧ Inv last ∧ Inv ring ∧ Inv (State.at verified (cmd 2))) ∧
    (runs { idle with flash := flashOf image } (.otaTrigger 2) = true ∧
      (ran { idle with flash := flashOf image } (.otaTrigger 2)).ota.role ≠ Role.client) ∧
    (runs State.reset .otaBoot = true ∧ (ran State.reset .otaBoot).otaBooted ≠ State.reset.otaBooted) ∧
    (runs last .otaAbort = true ∧ (ran last .otaAbort).tmrArmed ≠ last.tmrArmed) ∧
    (runs ring (.rbPop 1 true) = true ∧ (ran ring (.rbPop 1 true)).rbBegin ≠ ring.rbBegin) ∧
    (runs (State.at verified (cmd 2)) (.otaRxUpgResp 1 []) = true ∧
      (ran (State.at verified (cmd 2)) (.otaRxUpgResp 1 [])).pending ≠ [.command (cmd 2)]) :=
  ⟨⟨inv_of_checks Config.default_valid (by decide +kernel) (by decide +kernel) (by decide +kernel), test_inv_reset,
      test_inv_last, test_inv_ring,
      inv_of_checks Config.default_valid (by decide +kernel) (by decide +kernel) (by decide +kernel)⟩,
    by decide +kernel⟩

theorem test_witness_EverySendIsOneFrame :
    Inv server ∧ exec (.otaRxBlockReq 2 [1, 0, 0, 0]) server = .next (ran server (.otaRxBlockReq 2 [1, 0, 0, 0])) ∧
      Effect.send 2 (frameOf Config.default (.blockResponse 1 10 (image.drop 50) imageCrc)) ∈
        newEffects server (ran server (.otaRxBlockReq 2 [1, 0, 0, 0])) :=
  ⟨test_inv_server, (exec_ran (by decide +kernel)).2, by decide +kernel⟩

theorem test_witness_RbInitSetsCapacity :
    (1 ≤ (1 : U16).toNat ∧ (1 : U16).toNat ≤ State.reset.cfg.rbNmax) ∧
    (1 ≤ (256 : U16).toNat ∧ (256 : U16).toNat ≤ State.reset.cfg.rbNmax) ∧
    ¬ (1 ≤ (0 : U16).toNat ∧ (0 : U16).toNat ≤ State.reset.cfg.rbNmax) ∧
    ¬ (1 ≤ (257 : U16).toNat ∧ (257 : U16).toNat ≤ State.reset.cfg.rbNmax) := by decide

theorem test_witness_RbClearFreeSizeResults : ring.rbInited = true := rfl

/-- A full buffer, an empty one, and one of capacity 1, which is both. -/
theorem test_witness_RingCountsConserve :
    (RingInv ring ∧ ring.rbInited = true ∧ ring.freeSpace = 0) ∧
    (RingInv (ran ring .rbClear) ∧ (ran ring .rbClear).rbInited = true ∧ (ran ring .rbClear).storedBytes = []) ∧
    RingInv (ran ring (.rbInit 1)) ∧ (ran ring (.rbInit 1)).freeSpace = 0 ∧ (ran ring (.rbInit 1)).storedBytes = [] :=
  ⟨⟨test_inv_ring.ring, rfl, by decide +kernel⟩,
    ⟨ring_of_check (by decide +kernel), by decide +kernel, by decide +kernel⟩, ring_of_check (by decide +kernel),
    by decide +kernel⟩

theorem test_witness_RbPushStoresAtTheEnd :
    RingInv ring ∧ ring.rbInited = true ∧ ([] : Bytes).length ≤ ring.freeSpace ∧ ring.freeSpace < ([1] : Bytes).length :=
  ⟨test_inv_ring.ring, rfl, by decide +kernel, by decide +kernel⟩

theorem test_witness_RbPopPeekReadTheFront :
    RingInv ring ∧ ring.rbInited = true ∧ (3 : U16).toNat ≤ ring.dataSize ∧ ring.dataSize < (4 : U16).toNat :=
  ⟨test_inv_ring.ring, rfl, by decide +kernel, by decide +kernel⟩

theorem test_witness_RingRefinesReferenceQueue :
    RingInv ring ∧ ring.rbInited = true ∧
    ∀ i ∈ ([.rbInit 1, .rbClear, .rbFree, .rbSize, .rbPush [1], .rbPop 3 true, .rbPeek 4] : List Instr),
      isRing i = true ∧ i.wellFormed ring.cfg = true := ⟨test_inv_ring.ring, rfl, by decide⟩

/-- A run with a pop of COPY = 0, and one of copying pops alone. -/
theorem test_witness_PoppedBytesFollowPushedBytes :
    let mixed : List Instr := [.rbPop 2 true, .rbPush [1, 2], .rbPop 1 false, .rbPop 2 true]
    let copying : List Instr := [.rbPop 2 true, .rbPush [1, 2], .rbPop 3 true]
    let t := nextOr ring (runInstrs mixed ring)
    let u := nextOr ring (runInstrs copying ring)
    RingInv ring ∧ ring.rbInited = true ∧
      (∀ i ∈ mixed ++ copying, (∃ data, i = .rbPush data) ∨ ∃ n copy, i = .rbPop n copy) ∧
      (runInstrs mixed ring = .next t ∧ ∀ r ∈ newResults ring t, r.st = .ok) ∧
      (runInstrs copying ring = .next u ∧ ∀ r ∈ newResults ring u, r.st = .ok) ∧ ∀ n, Instr.rbPop n false ∉ copying :=
  ⟨test_inv_ring.ring, rfl, by simp, ⟨eq_nextOr _ (by decide +kernel), by decide +kernel⟩,
    ⟨eq_nextOr _ (by decide +kernel), by decide +kernel⟩, by simp⟩

/-- The same bytes at other indices; and, before RB_INIT, two capacities. -/
theorem test_witness_RingIndicesAreUnobservable :
    RingEquiv ring { ring with rbBegin := 0, rbEnd := 3, rbStorage := [0xCC, 0x11, 0x22] ++ List.replicate 253 7 } ∧
    RingEquiv State.reset { State.reset with rbCap := 9, rbBegin := 5, rbEnd := 6 } ∧
    exec (.rbPeek 3) ring = .next (ran ring (.rbPeek 3)) := by
  refine ⟨⟨test_inv_ring.ring, ⟨?_, ?_, ?_, ?_, ?_⟩, rfl, fun _ => rfl, fun _ => ?_⟩,
    ⟨test_inv_reset.ring, ⟨?_, ?_, ?_, ?_, ?_⟩, rfl, fun h => ?_, fun h => ?_⟩, eq_nextOr _ ?_⟩
  all_goals first | decide +kernel | exact absurd h (by decide)

theorem test_witness_FcEncodeLaysOutTheFrame :
    State.reset.cfg.Valid ∧ (List.replicate 128 (0 : Byte)).length ≤ State.reset.cfg.mtu ∧
      State.reset.cfg.mtu < (List.replicate 129 (0 : Byte)).length :=
  ⟨Config.default_valid, by decide +kernel, by decide +kernel⟩

/-- V-FD-2, V-FD-3, V-FD-8, V-FD-9, V-FD-10 and V-FD-6, one a line of R252; 128 is the longest length, 129 is not. -/
theorem test_witness_FcDecodeFollowsItsLines :
    let m := State.reset.cfg.startMarker
    (∀ x ∈ ([0x11, 0x22, 0x33] : Bytes), x ≠ m) ∧
    ((∀ x ∈ ([0x11] : Bytes), x ≠ m) ∧ ([0x11, 0x7E, 0x50] : Bytes) = [0x11] ++ m :: [0x50] ∧ ([0x50] : Bytes).length < 3) ∧
    (([0, 0x7E, 0x51, 0x81, 0, 0x99] : Bytes) = [0] ++ m :: 0x51 :: 0x81 :: 0 :: [0x99] ∧
      State.reset.cfg.mtu < (0x81 : Byte).toNat + 256 * (0 : Byte).toNat) ∧
    (([0x7E, 1, 0x80, 0] : Bytes) = [] ++ m :: 1 :: 0x80 :: 0 :: [] ∧
      (0x80 : Byte).toNat + 256 * (0 : Byte).toNat ≤ State.reset.cfg.mtu ∧
      ([] : Bytes).length < (0x80 : Byte).toNat + 256 * (0 : Byte).toNat + 1) ∧
    (([0x55, 0x7E] : Bytes) = [] ++ 0x55 :: [0x7E] ∧
      (0x55 : Byte) = BitVec.ofNat 8 ((0x55 : Byte).toNat + 0 + 0 + (([] : Bytes).map BitVec.toNat).sum)) ∧
    (([4, 0, 0, 0, 0x5A] : Bytes) = [4, 0, 0, 0] ++ 0x5A :: [] ∧
      ([4, 0, 0, 0] : Bytes).length = (4 : Byte).toNat + 256 * (0 : Byte).toNat ∧
      (0x5A : Byte) ≠ BitVec.ofNat 8 ((0x51 : Byte).toNat + 4 + 0 + (([4, 0, 0, 0] : Bytes).map BitVec.toNat).sum)) := by
  decide +kernel

theorem test_witness_DecodeOfEncodedFrame :
    State.reset.cfg.Valid ∧ ([] : Bytes).length ≤ State.reset.cfg.mtu ∧
      (List.replicate 128 (0x7E : Byte)).length ≤ State.reset.cfg.mtu :=
  ⟨Config.default_valid, by decide, by decide +kernel⟩

theorem test_witness_SingleBitFlipsAreCaught :
    State.reset.cfg.Valid ∧ ([5] : Bytes).length ≤ State.reset.cfg.mtu ∧ 0 < 8 ∧ 7 < 8 ∧
      ∀ j ∈ [1, 4, 5], j = 1 ∨ (4 ≤ j ∧ j ≤ ([5] : Bytes).length + 4) := ⟨Config.default_valid, by decide⟩

/-- An OK decode; an INCOMPLETE one of noise alone; one that keeps a marker. -/
theorem test_witness_DecodeMakesProgress :
    (decodeFrame Config.default [0x7E, 0x55, 0, 0, 0x55]).st ≠ .incomplete ∧
    ((decodeFrame Config.default [0x11]).st = .incomplete ∧ (decodeFrame Config.default [0x11]).consumed = 1) ∧
    (decodeFrame Config.default [0x11, 0x7E]).st = .incomplete ∧
      (decodeFrame Config.default [0x11, 0x7E]).consumed < ([0x11, 0x7E] : Bytes).length := by decide +kernel

theorem test_witness_FcParseReadsMessages :
    State.reset.cfg.Valid ∧ messageOk (.blockResponse 0 1 [0xAA] 0) ∧ messageOk (.statusResponse 1 200 2) ∧
      ([0, 0, 0, 0, 0] : Bytes).length ≠ 6 ∧ ([0, 0, 0, 0, 0] : Bytes).length ≠ 4 ∧
      (List.replicate 9 (0 : Byte)).length < 10 ∧
      (List.replicate 11 (0 : Byte)).length ≠ 10 + (rd16 (List.replicate 11 0) 4).toNat ∧
      ([0] : Bytes) ≠ [] ∧ 1 < (byteAt [2, 0, 0, 0, 0, 0] 0).toNat ∧
      (∀ k, State.reset.cfg.tagByte k ≠ 0x4F) ∧ ∀ k, State.reset.cfg.tagByte k ≠ 0x59 :=
  ⟨Config.default_valid, rfl, Nat.le_refl 1, by decide, by decide, by decide, by decide, by decide, by decide,
    fun k => by cases k <;> decide, fun k => by cases k <;> decide⟩

theorem test_witness_UninitialisedUnitsAnswerUninit :
    State.reset.rbInited = false ∧ (∀ i ∈ ([.rbClear, .rbFree, .rbSize, .rbPush [], .rbPop 0 true, .rbPeek 0] : List Instr),
      isRing i = true ∧ ∀ cap, i ≠ .rbInit cap) ∧
    State.reset.otaBooted = false ∧
    ∀ i ∈ ([.otaTick, .otaTrigger 1, .otaAbort, .otaPoll, .otaRxOther 0 0 []] : List Instr), needsBoot i = true :=
  ⟨rfl, by
    intro i hi
    simp only [List.mem_cons, List.not_mem_nil, or_false] at hi
    rcases hi with rfl | rfl | rfl | rfl | rfl | rfl <;> exact ⟨rfl, fun cap h => nomatch h⟩, rfl, by decide⟩

theorem test_witness_MessagesForTheOtherRoleAreIgnored :
    (server.cfg.Valid ∧ server.otaBooted = true ∧ messageOk (.notify 60 1000) ∧ server.ota.role ≠ .client ∧
      (server.ota.role = .server → (Msg.notify 60 1000).tag ∈ [Tag.notify, .blockResp, .upgResp, .statusReq])) ∧
    (first.cfg.Valid ∧ first.otaBooted = true ∧ messageOk (.blockRequest 0) ∧ first.ota.role ≠ .server ∧
      (first.ota.role = .client → (Msg.blockRequest 0).tag ∈ [Tag.blockReq, .abortResp, .upgReq, .statusResp])) :=
  ⟨⟨Config.default_valid, rfl, trivial, by decide, by decide⟩, Config.default_valid, rfl, trivial, by decide, by decide⟩

theorem test_witness_MalformedAndOtherFramesChangeNothing :
    first.cfg.Valid ∧ first.otaBooted = true ∧ (∀ k, first.cfg.tagByte k ≠ 0x30) ∧
      exec (.fcParse 0x51 [4, 0, 0, 0, 0]) first = .next (first.record { st := .malformed }) :=
  ⟨Config.default_valid, rfl, fun k => by cases k <;> decide, rfl⟩

/-- V-BOOT-2 with every block counted, V-BOOT-4, V-BOOT-5, V-BOOT-1 and V-BOOT-10. -/
theorem test_witness_OtaBootRestoresADownload :
    idle.otaBooted = true ∧ State.reset.otaBooted = false ∧ State.reset.nv = none ∧
    (∀ r ∈ ([clientRecord .downloading 0, clientRecord .downloading 2, clientRecord .upgradeRequesting 2] : List OtaRecord),
      r.role = .client ∧ r.downloading ≠ .idle ∧ Config.default.headerMin ≤ r.totalBytes.toNat ∧
      r.totalBytes.toNat ≤ Config.default.maxImageSize ∧ r.totalBlocks.toNat = blocks Config.default r.totalBytes.toNat ∧
      r.currentBlock.toNat ≤ r.totalBlocks.toNat ∧
      (r.downloading ≠ .upgradeRequesting ∨ r.currentBlock = r.totalBlocks)) ∧
    ∀ r ∈ ([server.ota, OtaRecord.reset, clientRecord .upgradeRequesting 1, clientRecord .downloading 3,
        { clientRecord .downloading 0 with totalBytes := 35, totalBlocks := 1 }] : List OtaRecord),
      ¬ (r.role = .client ∧ r.downloading ≠ .idle ∧ Config.default.headerMin ≤ r.totalBytes.toNat ∧
        r.totalBytes.toNat ≤ Config.default.maxImageSize ∧ r.totalBlocks.toNat = blocks Config.default r.totalBytes.toNat ∧
        r.currentBlock.toNat ≤ r.totalBlocks.toNat ∧
        (r.downloading ≠ .upgradeRequesting ∨ r.currentBlock = r.totalBlocks)) := by decide +kernel

/-- A node whose flash holds a header with the magic and a length field. -/
def imageOf (len : Nat) : State :=
  { idle with flash := flashOf (Config.default.imageMagic ++ List.replicate 20 0 ++ le32 (BitVec.ofNat 32 len)) }

/-- Lengths 36 and 524288 are served, 35 and 524289 are not (V-SRV-2, V-SRV-3); V-SRV-1; V-CLI-13. -/
theorem test_witness_OtaTriggerServesOrReports :
    idle.cfg.Valid ∧ idle.otaBooted = true ∧ ¬ (idle.ota.role = .client ∧ idle.ota.downloading ≠ .idle) ∧
    (first.ota.role = .client ∧ first.ota.downloading ≠ .idle) ∧
    bytesAt idle.flashByte 0 12 ≠ Config.default.imageMagic ∧
    (∀ len ∈ ([35, 36, 524288, 524289] : List Nat),
      bytesAt (imageOf len).flashByte 0 12 = Config.default.imageMagic ∧
        (rd32 (bytesAt (imageOf len).flashByte 0x20 4) 0).toNat = len) ∧
    (35 < Config.default.headerMin ∧ Config.default.headerMin ≤ 36 ∧ 524288 ≤ Config.default.maxImageSize ∧
      Config.default.maxImageSize < 524289) :=
  ⟨Config.default_valid, rfl, by decide, by decide, by decide +kernel, by decide +kernel, by decide⟩

theorem test_witness_ServerServesBlocks :
    Inv server ∧ server.otaBooted = true ∧ server.ota.role = .server ∧ (1 : U32).toNat < server.ota.totalBlocks.toNat ∧
      server.ota.totalBlocks.toNat ≤ (2 : U32).toNat := ⟨test_inv_server, rfl, rfl, by decide, by decide⟩

theorem test_witness_ServerAnswersAndReports :
    server.cfg.Valid ∧ server.otaBooted = true ∧ server.ota.role = .server ∧ (1 : Byte).toNat ≤ 1 :=
  ⟨Config.default_valid, rfl, rfl, by decide⟩

theorem test_witness_ServerStaysServing :
    Inv (State.at server (cmd 0x00000022 3)) ∧
      step (State.at server (cmd 0x00000022 3)) = .next (after server (cmd 0x00000022 3)) ∧
      ∀ rest, (State.at server (cmd 0x00000022 3)).pending ≠ .reset :: rest :=
  ⟨inv_of_checks Config.default_valid (by decide +kernel) (by decide +kernel) (by decide +kernel),
    eq_nextOr _ (by decide +kernel), by intro rest h; cases h⟩

theorem test_witness_ClientNotifyStartsADownload :
    idle.cfg.Valid ∧ idle.otaBooted = true ∧ idle.ota.role = .client ∧
    (∀ t ∈ ([36, 524288] : List Nat), Config.default.headerMin ≤ (BitVec.ofNat 32 t).toNat ∧
      (BitVec.ofNat 32 t).toNat ≤ Config.default.maxImageSize) ∧
    ∀ t ∈ ([35, 524289] : List Nat), Config.default.maxImageSize < (BitVec.ofNat 32 t).toNat ∨
      (BitVec.ofNat 32 t).toNat < Config.default.headerMin :=
  ⟨Config.default_valid, rfl, rfl, by decide, by decide⟩

theorem test_witness_OtaTickSendsTheNextRequest :
    (idle.otaBooted = true ∧ idle.tmrArmed = false) ∧
    (({ server with tmrArmed := true } : State).tmrArmed = true ∧ server.ota.role = .server) ∧
    (last.otaBooted = true ∧ last.tmrArmed = true ∧ last.ota.role = .client ∧ last.ota.downloading = .downloading ∧
      last.ota.currentBlock.toNat < last.ota.totalBlocks.toNat) ∧
    (verified.otaBooted = true ∧ verified.tmrArmed = true ∧ verified.ota.role = .client ∧
      verified.ota.downloading = .upgradeRequesting) := by decide

theorem test_witness_OtaTickVerifiesACompleteImage :
    (Inv complete ∧ complete.otaBooted = true ∧ complete.tmrArmed = true ∧ complete.ota.role = .client ∧
      complete.ota.downloading = .downloading ∧ complete.ota.currentBlock = complete.ota.totalBlocks ∧
      Verifies complete.cfg complete.flashByte complete.ota.totalBytes complete.ota.crc) ∧
    (Inv corrupt ∧ corrupt.ota.currentBlock = corrupt.ota.totalBlocks ∧
      ¬ Verifies corrupt.cfg corrupt.flashByte corrupt.ota.totalBytes corrupt.ota.crc) :=
  ⟨⟨test_inv_complete, rfl, rfl, rfl, rfl, rfl, test_image_verifies⟩, test_inv_corrupt, rfl, test_corrupt_does_not_verify⟩

/-- Away from a checkpoint, and at one. -/
theorem test_witness_ClientStoresTheExpectedBlock :
    (Inv first ∧ first.ota.downloading = .downloading ∧ (0 : U32) = first.ota.currentBlock ∧
      first.ota.currentBlock.toNat + 1 < first.ota.totalBlocks.toNat ∧ (image.take 50).length = (50 : U16).toNat ∧
      (50 : U16).toNat = min first.cfg.blockSize (first.ota.totalBytes.toNat - 0 * first.cfg.blockSize) ∧
      (0 + 1) % first.cfg.checkpointInterval ≠ 0) ∧
    (Inv nearCheckpoint ∧ (99 : U32) = nearCheckpoint.ota.currentBlock ∧
      nearCheckpoint.ota.currentBlock.toNat + 1 < nearCheckpoint.ota.totalBlocks.toNat ∧
      (50 : U16).toNat =
        min nearCheckpoint.cfg.blockSize (nearCheckpoint.ota.totalBytes.toNat - 99 * nearCheckpoint.cfg.blockSize) ∧
      (99 + 1) % nearCheckpoint.cfg.checkpointInterval = 0) :=
  ⟨⟨test_inv_first, by decide⟩, test_inv_nearCheckpoint, by decide⟩

/-- The right last block, and one that leaves the wrong bytes. -/
theorem test_witness_ClientVerifiesAtTheLastBlock :
    Inv last ∧ last.otaBooted = true ∧ last.ota.role = .client ∧ last.ota.downloading = .downloading ∧
    (1 : U32) = last.ota.currentBlock ∧ last.ota.currentBlock.toNat + 1 = last.ota.totalBlocks.toNat ∧
    (image.drop 50).length = (10 : U16).toNat ∧
    (10 : U16).toNat = min last.cfg.blockSize (last.ota.totalBytes.toNat - 1 * last.cfg.blockSize) ∧
    Verifies last.cfg (storedAt last.flashByte 50 (image.drop 50)) last.ota.totalBytes imageCrc ∧
    ¬ Verifies last.cfg (storedAt last.flashByte 50 (image.drop 50)) last.ota.totalBytes 0 :=
  ⟨test_inv_last, rfl, rfl, rfl, rfl, rfl, rfl, rfl, ⟨⟨by decide +kernel, by decide +kernel⟩, by decide +kernel⟩,
    fun h => absurd h.2 (by decide +kernel)⟩

theorem test_witness_ClientIgnoresOtherBlocks :
    (∀ s ∈ [idle, complete, first], s.otaBooted = true ∧ s.ota.role = .client) ∧ idle.cfg.Valid ∧
    idle.ota.downloading ≠ .downloading ∧ complete.ota.totalBlocks.toNat ≤ complete.ota.currentBlock.toNat ∧
    (1 : U32) ≠ first.ota.currentBlock ∧
    (49 : U16).toNat ≠ min first.cfg.blockSize (first.ota.totalBytes.toNat - (0 : U32).toNat * first.cfg.blockSize) :=
  ⟨by decide, Config.default_valid, by decide⟩

theorem test_witness_DuplicateBlocksAreIgnored :
    Inv first ∧ first.otaBooted = true ∧ first.ota.role = .client ∧
      exec (.otaRxBlockResp 1 block0) first = .next (ran first (.otaRxBlockResp 1 block0)) ∧
      (ran first (.otaRxBlockResp 1 block0)).ota.currentBlock.toNat = first.ota.currentBlock.toNat + 1 :=
  ⟨test_inv_first, rfl, rfl, eq_nextOr _ (by decide +kernel), by decide +kernel⟩

theorem test_witness_UpgradeResponseResetsTheNode :
    verified.cfg.Valid ∧ verified.otaBooted = true ∧ verified.ota.role = .client ∧
      verified.ota.downloading = .upgradeRequesting ∧ last.ota.downloading ≠ .upgradeRequesting :=
  ⟨Config.default_valid, rfl, rfl, rfl, by decide⟩

theorem test_witness_ClientAbortRequest :
    idle.cfg.Valid ∧ idle.otaBooted = true ∧ idle.ota.role = .client ∧ idle.ota.downloading = .idle ∧
      last.otaBooted = true ∧ last.ota.role = .client ∧ last.ota.downloading ≠ .idle :=
  ⟨Config.default_valid, by decide⟩

theorem test_witness_ClientOperatorAbort :
    (idle.otaBooted = true ∧ idle.ota.role = .client ∧ idle.ota.downloading = .idle) ∧
      verified.otaBooted = true ∧ verified.ota.role = .client ∧ verified.ota.downloading ≠ .idle := by decide

theorem test_witness_ClientReportsItsStatus :
    (Inv idle ∧ idle.otaBooted = true ∧ idle.ota.role = .client ∧ idle.ota.totalBlocks = 0) ∧
      Inv complete ∧ complete.otaBooted = true ∧ complete.ota.role = .client ∧ complete.ota.totalBlocks ≠ 0 ∧
      2 ≤ complete.cfg.blockSize :=
  ⟨⟨test_inv_idle, rfl, rfl, rfl⟩, test_inv_complete, rfl, rfl, by decide, by decide⟩

/-- The six persist points, each one reached. -/
theorem test_witness_NvSaveOnlyAtPersistPoints :
    (Inv idle ∧ Inv nearCheckpoint ∧ Inv last ∧ Inv corrupt ∧ Inv verified) ∧
    (runs idle (.otaRxNotify 1 [60, 0, 0, 0, 1, 0]) = true ∧
      (newEffects idle (ran idle (.otaRxNotify 1 [60, 0, 0, 0, 1, 0]))).any (fun e => e matches .nvSave _) = true) ∧
    (runs nearCheckpoint (.otaRxBlockResp 1 block99) = true ∧
      (newEffects nearCheckpoint (ran nearCheckpoint (.otaRxBlockResp 1 block99))).any (fun e => e matches .nvSave _) = true) ∧
    (runs corrupt .otaTick = true ∧ (newEffects corrupt (ran corrupt .otaTick)).any (fun e => e matches .nvSave _) = true) ∧
    (runs verified (.otaRxUpgResp 1 []) = true ∧ Effect.nvSave OtaRecord.reset ∈ newEffects verified (ran verified (.otaRxUpgResp 1 []))) ∧
    (runs last (.otaRxAbortReq 7 []) = true ∧ Effect.nvSave OtaRecord.reset ∈ newEffects last (ran last (.otaRxAbortReq 7 []))) ∧
    (runs last .otaAbort = true ∧ Effect.nvSave OtaRecord.reset ∈ newEffects last (ran last .otaAbort)) :=
  ⟨⟨test_inv_idle, test_inv_nearCheckpoint, test_inv_last, test_inv_corrupt, test_inv_verified⟩, by decide +kernel⟩

theorem test_witness_StepKeepsCheckpoint :
    let s := State.at nearCheckpoint (cmd 0x003C5220 1 block99)
    Inv s ∧ CheckpointInv s ∧ step s = .next (nextOr s (step s)) ∧ (nextOr s (step s)).ota.currentBlock = 100 :=
  ⟨inv_of_checks Config.default_valid (by decide +kernel) (by decide +kernel) (by decide +kernel),
    fun _ _ => ⟨_, rfl, by decide +kernel, rfl, rfl, by decide +kernel, by decide +kernel⟩,
    eq_nextOr _ (by decide +kernel), by decide +kernel⟩

/-- 99 blocks past the saved record: the most that R413 lets a restart lose. -/
theorem test_witness_ResumeLosesLessThanACheckpoint :
    let s : State := { nearCheckpoint with pending := [.reset] }
    Inv s ∧ CheckpointInv s ∧ s.ota.role = .client ∧ s.ota.downloading ≠ .idle ∧ s.pending = .reset :: [] :=
  ⟨inv_of_checks Config.default_valid (by decide +kernel) (by decide +kernel) (by decide +kernel),
    fun _ _ => ⟨_, rfl, by decide +kernel, rfl, rfl, by decide +kernel, by decide +kernel⟩, rfl, by decide, rfl⟩

/-- A booted node whose ring buffer holds, across the wrap, a frame of type 0x55 and one byte after it. -/
def framed : State :=
  { idle with
    rbInited := true, rbCap := 8, rbBegin := 6, rbEnd := 4
    rbStorage := [0, 0, 0x55, 0x11, 0, 0, 0x7E, 0x55] ++ List.replicate 248 0 }

theorem test_inv_framed : Inv framed :=
  inv_of_checks Config.default_valid (by decide +kernel) (by decide +kernel) (by decide +kernel)

/-- What FC_DECODE answers to the frame: 5 bytes consumed, type 0x55. -/
def framedDecode : Result := { st := .ok, res := 0x550005 }

theorem test_framedDecode : IsDecodeOf framed.cfg framedDecode framed.storedBytes := by
  unfold IsDecodeOf
  decide +kernel

/-- The stored bytes hold a frame and a byte; the phases of RX_STEP over them, and commands that may come between. -/
theorem test_witness_RxStepDiscardsTheConsumedSpan :
    (RingInv framed ∧ framed.rbInited = true ∧ framed.storedBytes = [0x7E, 0x55, 0, 0, 0x55, 0x11] ∧
      (decodeFrame framed.cfg framed.storedBytes).st = .ok ∧ (decodeFrame framed.cfg framed.storedBytes).consumed = 5) ∧
    (Inv framed ∧
      RxCoherent (.size 1) framed ∧ RxCoherent (.peek 1 6) framed ∧ RxCoherent (.decode 1 framed.storedBytes) framed ∧
      RxCoherent (.discard 1 framedDecode) framed ∧ RxCoherent (.handOver 1 framedDecode) framed ∧
      ∀ i ∈ ([.rbSize, .rbPeek 6, .fcDecode framed.storedBytes, .rbPop 5 false, .otaRxUpgReq 1 [], .rbPush [0x22],
          .otaTick] : List Instr), runs framed i = true ∧ (ran framed i).rbInited = true) ∧
    framed.storedBytes <+: framed.storedBytes ∧ IsDecodeOf framed.cfg framedDecode framed.storedBytes :=
  ⟨⟨test_inv_framed.ring, by decide +kernel⟩,
    ⟨test_inv_framed, trivial, (by decide +kernel : (6 : U16).toNat ≤ framed.dataSize), List.prefix_rfl,
      ⟨_, List.prefix_rfl, test_framedDecode⟩, ⟨rfl, _, test_framedDecode⟩, by decide +kernel⟩,
    List.prefix_rfl, test_framedDecode⟩

/-- R572: a push between the peek and the pop only appends; the pop removes the frame, which the client role ignores. -/
theorem test_rx_interleaved :
    (({ nodes := [{ addr := 2, st := framed }], air := [] } : System).run
        [.rxBegin 0 1, .rx 0, .rx 0, .issue 0 (.command (cmd 0x00010005 0 [0x22])), .run 0, .rx 0, .rx 0, .rx 0]).nodes.map
      (fun n => (n.rx, n.st.storedBytes, n.st.lastResult)) = [(.done, [0x11, 0x22], { st := .ignored })] := by
  decide +kernel

/-- A reset in the middle of an RX_STEP ends it (R550); the Consumer gives no source wider than ADDR_BITS (R121). -/
theorem test_rx_ends :
    (({ nodes := [{ addr := 2, st := framed }], air := [] } : System).run
        [.rxBegin 0 1, .rx 0, .issue 0 .reset, .run 0, .rx 0]).nodes.map (fun n => (n.rx, n.st.outputs.length)) =
      [(.done, 1)] ∧
    (({ addr := 2, st := framed } : Node).rxBegin 0x10000).rx = .done := by decide +kernel

/-- R517: no frame from a source wider than ADDR_BITS arrives. -/
theorem test_rxCommand :
    rxCommand Config.default { src := 1, dest := 2, bytes := [0x7E, 0x55, 0, 0, 0x55] } = some (cmd 0x00005520 1) ∧
    rxCommand Config.default { src := 0x10000, dest := 2, bytes := [0x7E, 0x55, 0, 0, 0x55] } = none := by decide +kernel

/-! Two nodes: the client at address 2, the server at address 1. -/

def clientNode (s : State) : Node := { addr := 2, st := s }
def serverNode : Node := { addr := 1, st := server }

theorem test_pair_first : PullPair (clientNode first) serverNode :=
  ⟨test_inv_first, test_inv_server, rfl, rfl, rfl, rfl, rfl, rfl, rfl, rfl, by decide, by decide, rfl, rfl⟩
theorem test_pair_last : PullPair (clientNode last) serverNode :=
  ⟨test_inv_last, test_inv_server, rfl, rfl, rfl, rfl, rfl, rfl, rfl, rfl, by decide, by decide, rfl, rfl⟩

/-- R517: the least and the greatest address of 16 bits identify two nodes; two equal ones, or a wider one, do not. -/
theorem test_identified :
    (System.start [0, 0xFFFF]).Identified ∧ ¬ (System.start [1, 1]).Identified ∧ ¬ (System.start [0x10000]).Identified :=
  ⟨System.start_identified (by decide) (by decide), fun h => absurd h.distinct (by decide),
    fun h => absurd (h.width _ (List.mem_singleton.2 rfl)) (by decide)⟩

/-- Two nodes that are identified by their addresses, and a frame that is for one of them. -/
theorem test_witness_SystemEventsKeepEveryNode :
    let p : Packet := { src := 2, dest := 1, bytes := [] }
    let sys : System := { nodes := [clientNode first, serverNode], air := [p] }
    (∀ n ∈ sys.nodes, Inv n.st) ∧ sys.Identified ∧ (Event.run 0 = .run 0 ∧ Event.rx 0 = .rx 0 ∧ 1 ≠ 0) ∧
      (sys.air[0]? = some p ∧ sys.nodes[0]? = some (clientNode first) ∧ (clientNode first).addr ≠ p.dest) ∧
      ∀ n ∈ sys.nodes, n.st.BootsFirst := by
  refine ⟨?_, ⟨by decide, by decide, by decide, by decide⟩, ⟨rfl, rfl, by decide⟩, ⟨rfl, rfl, by decide⟩, ?_⟩ <;>
    intro n hn <;> simp only [List.mem_cons, List.not_mem_nil, or_false] at hn <;> rcases hn with rfl | rfl
  · exact test_inv_first
  · exact test_inv_server
  · exact (rfl : bootsFirst _ _ _ [] = true)
  · exact (rfl : bootsFirst _ _ _ [] = true)

theorem test_witness_OneRoundMovesTheNextBlock :
    PullPair (clientNode first) serverNode ∧ first.ota.currentBlock.toNat + 1 < first.ota.totalBlocks.toNat :=
  ⟨test_pair_first, by decide⟩

/-- A client that has the server's first block and misses its last. -/
theorem test_witness_TransferCompletes :
    PullPair (clientNode last) serverNode ∧ last.ota.currentBlock.toNat < last.ota.totalBlocks.toNat ∧
      Verifies server.cfg server.flashByte server.ota.totalBytes server.ota.crc ∧
      ∀ a, server.cfg.imageBase ≤ a → a < blockAddr server.cfg last.ota.currentBlock.toNat →
        last.flashByte a = server.flashByte a := by
  refine ⟨test_pair_last, by decide, test_image_verifies, fun a _ h => ?_⟩
  have hall : ∀ a < 50, last.flashByte a = server.flashByte a := by decide +kernel
  exact hall a h

/-- A queue in order, its software reset included; each clause's next command, at both bounds of the capacity; and queues
out of order: another command first, capacities 133 and 257 (MTU + 6 = 134, RB_NMAX = 256), RB_INIT twice. -/
theorem test_witness_StepKeepsBootDiscipline :
    let ask : Input := .command (cmd 0x00000024)
    let boot (n : U16) : List Input := bootInputs Config.default .ringFirst n
    let late : State := { State.reset with pending := bootInputs Config.default .otaFirst 134 ++ [ask, .reset] ++ boot 256 }
    late.BootsFirst ∧ (step late = .next (nextOr late (step late)) ∧ (nextOr late (step late)).BootsFirst) ∧
    State.BootsFirst { State.reset with pending := boot 256 } ∧
    ¬ State.BootsFirst { State.reset with pending := ask :: boot 256 } ∧
    ¬ State.BootsFirst { State.reset with pending := boot 133 } ∧
    ¬ State.BootsFirst { State.reset with pending := boot 257 } ∧
    ¬ State.BootsFirst { State.reset with rbInited := true, pending := boot 256 } := by
  unfold State.BootsFirst
  exact ⟨by decide +kernel, ⟨eq_nextOr _ (by decide +kernel), by decide +kernel⟩, by decide +kernel, by decide +kernel,
    by decide +kernel, by decide +kernel, by decide +kernel⟩

/-- The two rounds of this transfer, from no block at all: what the client's flash and state then are. -/
theorem test_transfer :
    let sys := ({ nodes := [clientNode first, serverNode], air := [] } : System).run (pullRound 0 1 ++ pullRound 0 1)
    sys.air = [] ∧ sys.nodes.map (fun n => n.st.ota.downloading) = [.upgradeRequesting, .idle] ∧
      sys.nodes.map (fun n => bytesAt n.st.flashByte 0 60) = [image, image] := by decide +kernel

end Sys2Proof.Machine.Tests
end

section
/-! Every step keeps `Inv` (spec/10_state.md R30, R47-R52). A client's transfer is the hard half: a record of a transfer is
one OTA_BOOT would restore (`restorable`, R320), so the rules of the transfer keep `TransferInv`, the invariant of a client
in the middle of a command, and an armed timer makes `Inv` of it. -/

namespace Sys2Proof.Machine

variable {s t : State} {c : Config} {o : OtaRecord}

/-! The record of a transfer. -/

/-- What OTA_BOOT's test of a saved record asks (R320), conjunct by conjunct. -/
theorem restorable_iff : restorable c o = true ↔
    o.role = .client ∧ o.downloading ≠ .idle ∧ legalLength c o.totalBytes.toNat = true ∧
      o.totalBlocks.toNat = blocks c o.totalBytes.toNat ∧ o.currentBlock.toNat ≤ o.totalBlocks.toNat ∧
      (o.downloading = .upgradeRequesting → o.currentBlock = o.totalBlocks) := by
  simp [restorable, and_assoc, imp_iff_not_or]

/-- An image has no more blocks than bytes (R302). -/
theorem blocks_le (hc : c.Valid) (n : Nat) : blocks c n ≤ n := by
  have hpos := hc.blockSize_pos
  rcases Nat.eq_zero_or_pos n with rfl | hn
  · simp only [blocks, ceilDiv, Nat.zero_add]
    exact (Nat.div_eq_of_lt (by omega)).le
  · have hmul := Nat.le_mul_of_pos_right n hpos
    refine Nat.lt_succ_iff.1 ((Nat.div_lt_iff_lt_mul (by omega)).2 ?_)
    rw [Nat.succ_mul]
    omega

/-- The block count of an image fits the field that holds it (R45, R302). -/
theorem toNat_blocks (hc : c.Valid) (len : U32) : (BitVec.ofNat 32 (blocks c len.toNat)).toNat = blocks c len.toNat := by
  have := blocks_le hc len.toNat
  have := len.isLt
  simp only [BitVec.toNat_ofNat]
  omega

/-- A new download holds a restorable record (R400). -/
theorem restorable_notified (hc : c.Valid) {total : U32} (hl : legalLength c total.toNat = true) (src : Addr)
    (period : U16) (hr : o.role = .client) :
    restorable c { notifiedOta c o src total period with downloading := .downloading, currentBlock := 0 } = true :=
  restorable_iff.2 ⟨hr, by simp, hl, toNat_blocks hc total, by simp, by simp⟩

/-- Counting a block that was due keeps the record restorable (R403). -/
theorem restorable_countedOta (h : restorable c o = true) (hd : o.downloading = .downloading)
    (hk : o.currentBlock.toNat < o.totalBlocks.toNat) (crc : U32) : restorable c (countedOta o crc) = true := by
  obtain ⟨hr, hi, hl, hb, -, -⟩ := restorable_iff.1 h
  refine restorable_iff.2 ⟨hr, hi, hl, hb, ?_, by simp [countedOta, hd]⟩
  simp only [countedOta, BitVec.toNat_ofNat]
  omega

/-- A complete download goes on to ask for the upgrade (R405). -/
theorem restorable_upgradeRequesting (h : restorable c o = true) (hk : o.currentBlock = o.totalBlocks) :
    restorable c { o with downloading := .upgradeRequesting } = true := by
  obtain ⟨hr, -, hl, hb, hle, -⟩ := restorable_iff.1 h
  exact restorable_iff.2 ⟨hr, by simp, hl, hb, hle, fun _ => hk⟩

/-- A download starts over from its first block (R405). -/
theorem restorable_restarted (h : restorable c o = true) (hd : o.downloading = .downloading) :
    restorable c { o with currentBlock := 0 } = true := by
  obtain ⟨hr, hi, hl, hb, -, -⟩ := restorable_iff.1 h
  exact restorable_iff.2 ⟨hr, hi, hl, hb, by simp, by simp [hd]⟩

/-! `OtaInv` in its three kinds of state: reset, a client's transfer, a server. -/

/-- The reset record satisfies I1-I6 (R70). -/
theorem OtaInv.of_reset (hc : t.cfg.Valid) (ho : t.ota = OtaRecord.reset) (ha : t.tmrArmed = false) : OtaInv t := by
  have hb : blocks t.cfg 0 = 0 := Nat.le_zero.1 (blocks_le hc 0)
  constructor <;> simp [ho, ha, OtaRecord.reset, hb]

/-- A booted client whose record is restorable and whose timer is armed satisfies I1-I6. -/
theorem OtaInv.of_restorable (ho : restorable t.cfg t.ota = true) (ha : t.tmrArmed = true) (hb : t.otaBooted = true) :
    OtaInv t := by
  obtain ⟨hr, hi, hl, htotal, hle, hup⟩ := restorable_iff.1 ho
  exact ⟨htotal, hle, fun h => absurd h hi, fun _ h => absurd h hi, fun h => by simp [hr] at h, hup, fun _ _ => hl,
    fun _ _ => ha, fun h => by simp [hb] at h⟩

/-- A client's record is restorable throughout a transfer. -/
theorem OtaInv.restorable (h : OtaInv s) (hr : s.ota.role = .client) (hd : s.ota.downloading ≠ .idle) :
    restorable s.cfg s.ota = true :=
  restorable_iff.2 ⟨hr, hd, h.activeLength hr hd, h.blocksOfBytes, h.currentLe, h.upgradeComplete⟩

/-- The record OTA_TRIGGER writes satisfies I1-I6 (R350). -/
theorem OtaInv.triggered (hc : s.cfg.Valid) (hb : s.otaBooted = true) (peer : Addr) (len crc : U32) :
    OtaInv { s with ota := triggeredOta s.cfg peer len crc } := by
  refine ⟨toNat_blocks hc len, ?_, ?_, ?_, ?_, ?_, ?_, ?_, ?_⟩ <;> simp [triggeredOta, hb]

/-! A client in the middle of a command. -/

/-- What a client in a transfer keeps while a command runs: `Inv` but for the timer, which the command may have disarmed. -/
structure TransferInv (s : State) : Prop where
  cfg : s.cfg.Valid
  ring : RingInv s
  flash : FlashInv s
  record : restorable s.cfg s.ota = true
  booted : s.otaBooted = true
  peer : s.cfg.addrOk s.ota.peer = true
  nvPeer : ∀ r, s.nv = some r → s.cfg.addrOk r.peer = true

/-- Once the timer is armed, a client in a transfer meets the invariant. -/
theorem TransferInv.inv (h : TransferInv s) (ha : s.tmrArmed = true) : Inv s where
  cfg := h.cfg
  ring := h.ring
  ota := .of_restorable h.record ha h.booted
  flash := h.flash
  width := ⟨h.peer, h.nvPeer, fun hr => by simp [(restorable_iff.1 h.record).1] at hr⟩
  timer := ⟨fun hd => by simp [ha] at hd⟩

/-- The invariant of a client in a transfer. -/
theorem Inv.transfer (h : Inv s) (hb : s.otaBooted = true) (hr : s.ota.role = .client)
    (hd : s.ota.downloading ≠ .idle) : TransferInv s :=
  ⟨h.cfg, h.ring, h.flash, h.ota.restorable hr hd, hb, h.width.peer, h.width.nvPeer⟩

/-- The timer is no part of `TransferInv`. -/
theorem TransferInv.setTimer (h : TransferInv s) (a : Bool) (d : U32) :
    TransferInv { s with tmrArmed := a, tmrDelay := d } :=
  ⟨h.cfg, h.ring.of_eq rfl rfl rfl rfl rfl rfl, h.flash.of_eq rfl rfl, h.record, h.booted, h.peer, h.nvPeer⟩

/-- What a counted block leaves of the client's fields (R403). -/
@[simp] theorem blockWork_ota (s : State) (addr : Nat) (data : Bytes) (crc : U32) :
    (blockWork s addr data crc).st.ota = countedOta s.ota crc := by
  unfold blockWork
  rw [Work.checkpoint_eq]
  split <;> rfl

/-- Writing, counting and saving a block keeps `TransferInv` (R403, R404). -/
theorem TransferInv.blockWork (h : TransferInv s) {idx : U32} {n : U16} (ha : blockAccepted s.cfg s.ota idx n = true)
    {addr : Nat} {data : Bytes} (hf : addr + data.length ≤ s.cfg.flashSize) (crc : U32) :
    TransferInv (blockWork s addr data crc).st := by
  obtain ⟨hd, hk, -, -⟩ := blockAccepted_iff.1 ha
  have hflash := h.flash.flashWithBytes hf
  have hrec := restorable_countedOta h.record hd hk crc
  have hring : RingInv { s.flashWithBytes addr data with ota := countedOta s.ota crc } :=
    h.ring.of_eq rfl rfl rfl rfl rfl rfl
  unfold Machine.blockWork
  rw [Work.checkpoint_eq]
  split
  · refine ⟨h.cfg, hring.of_eq rfl rfl rfl rfl rfl rfl, hflash.of_eq rfl rfl, hrec, h.booted, h.peer, ?_⟩
    intro r hr
    obtain rfl := Option.some.inj hr
    exact h.peer
  · exact ⟨h.cfg, hring, hflash.of_eq rfl rfl, hrec, h.booted, h.peer, h.nvPeer⟩

/-- `Verify()` is called in the middle of a transfer (R405). -/
theorem VerifyFrom.transfer {i : Instr} {w : Work} (h : VerifyFrom s i w) (hs : Inv s) (hb : s.otaBooted = true) :
    TransferInv w.st := by
  cases h with
  | tick ha hr hd hk => exact (hs.transfer hb hr (by simp [hd])).setTimer false 0
  | block src p idx n data crc hr ha hn hf hl =>
    exact (hs.transfer hb hr (by simp [(blockAccepted_iff.1 ha).1])).blockWork ha hf crc

/-- `Verify()` is called when every block of a download is there (R405). -/
theorem VerifyFrom.complete {i : Instr} {w : Work} (h : VerifyFrom s i w) (hs : Inv s) :
    w.st.ota.downloading = .downloading ∧ w.st.ota.currentBlock = w.st.ota.totalBlocks := by
  cases h with
  | tick ha hr hd hk => exact ⟨hd, BitVec.eq_of_toNat_eq (le_antisymm hs.ota.currentLe (not_lt.1 hk))⟩
  | block src p idx n data crc hr ha hn hf hl =>
    rw [blockWork_ota] at hl ⊢
    exact ⟨(blockAccepted_iff.1 ha).1, hl⟩

/-- Erasing sectors writes the flash and nothing else, and keeps it canonical (R304). -/
theorem Work.ErasedBy.exists_flash {w w' : Work} {sectors : List Nat} (he : w.ErasedBy sectors w') :
    ∃ f, w'.st = { w.st with flash := f } ∧ (FlashInv w.st → FlashInv { w.st with flash := f }) :=
  ⟨w'.st.flash, he.st, fun h => he.st ▸ he.flashInv h⟩

theorem Work.ErasedBy.transfer {w w' : Work} {sectors : List Nat} (he : w.ErasedBy sectors w') (h : TransferInv w.st) :
    TransferInv w'.st := by
  obtain ⟨f, hst, hflash⟩ := he.exists_flash
  rw [hst]
  exact ⟨h.cfg, h.ring.of_eq rfl rfl rfl rfl rfl rfl, hflash h.flash, h.record, h.booted, h.peer, h.nvPeer⟩

/-- A client's record may be replaced by a restorable one with a peer of the right width. -/
theorem TransferInv.setOta (h : TransferInv s) (ho : restorable s.cfg o = true) (hp : o.peer = s.ota.peer) :
    TransferInv { s with ota := o } :=
  ⟨h.cfg, h.ring.of_eq rfl rfl rfl rfl rfl rfl, h.flash.of_eq rfl rfl, ho, h.booted, hp ▸ h.peer, h.nvPeer⟩

/-- Saving the record (R305). -/
theorem TransferInv.persist (h : TransferInv s) : TransferInv { s with nv := some s.ota } :=
  ⟨h.cfg, h.ring.of_eq rfl rfl rfl rfl rfl rfl, h.flash.of_eq rfl rfl, h.record, h.booted, h.peer,
    fun _ hr => Option.some.inj hr ▸ h.peer⟩

/-! The rules, each keeping `Inv`. -/

theorem OtaInv.of_eq (h : OtaInv s) (hc : t.cfg = s.cfg) (ho : t.ota = s.ota) (ha : t.tmrArmed = s.tmrArmed)
    (hb : t.otaBooted = s.otaBooted) : OtaInv t := by
  obtain ⟨h1, h2, h3, h4, h5, h6, h7, h8, h9⟩ := h
  constructor <;> simpa only [hc, ho, ha, hb]

theorem WidthInv.of_eq (h : WidthInv s) (hc : t.cfg = s.cfg) (ho : t.ota = s.ota) (hn : t.nv = s.nv) : WidthInv t := by
  obtain ⟨h1, h2, h3⟩ := h
  constructor <;> simpa only [hc, ho, hn]

/-- The ring buffer's fields, the queue and the results may change: the rest of the invariant does not read them. -/
theorem Inv.of_ring (h : Inv s) (hr : RingInv t)
    (ht : t = { s with
      rbInited := t.rbInited, rbCap := t.rbCap, rbBegin := t.rbBegin, rbEnd := t.rbEnd, rbStorage := t.rbStorage
      pending := t.pending, outputs := t.outputs }) : Inv t := by
  rw [ht] at hr ⊢
  exact ⟨h.cfg, hr, h.ota.of_eq rfl rfl rfl rfl, h.flash.of_eq rfl rfl, h.width.of_eq rfl rfl rfl, ⟨h.timer.1⟩⟩

theorem Inv.record (h : Inv s) (r : Result) : Inv (s.record r) :=
  h.of_ring (h.ring.of_eq rfl rfl rfl rfl rfl rfl) rfl

theorem Inv.withPending (h : Inv s) (l : List Input) : Inv (s.withPending l) :=
  h.of_ring (h.ring.of_eq rfl rfl rfl rfl rfl rfl) rfl

/-- The reset record with a disarmed timer meets the invariant, whatever the stores hold (R70). -/
theorem Inv.of_reset (hc : t.cfg.Valid) (hr : RingInv t) (hf : FlashInv t)
    (hn : ∀ r, t.nv = some r → t.cfg.addrOk r.peer = true) (ho : t.ota = OtaRecord.reset) (ha : t.tmrArmed = false)
    (hd : t.tmrDelay = 0) : Inv t where
  cfg := hc
  ring := hr
  ota := .of_reset hc ho ha
  flash := hf
  width := ⟨by simp [ho, OtaRecord.reset], hn, by simp [ho, OtaRecord.reset]⟩
  timer := ⟨fun _ => hd⟩

/-- R550: a reset gives the registers their reset values and keeps the stores. -/
theorem Inv.resetRegisters (h : Inv s) : Inv s.resetRegisters :=
  .of_reset h.cfg (.resetRegisters s) (h.flash.of_eq rfl rfl) h.width.nvPeer rfl rfl rfl

/-- Saving the reset record, which `ResetTransfer()` and `Persist()` do at a client (R305). -/
theorem Inv.saveReset (h : Inv s) : Inv { s with nv := some OtaRecord.reset } :=
  ⟨h.cfg, h.ring.of_eq rfl rfl rfl rfl rfl rfl, h.ota.of_eq rfl rfl rfl rfl, h.flash.of_eq rfl rfl,
    ⟨h.width.peer, by simp [OtaRecord.reset], h.width.serverLength⟩, ⟨h.timer.disarmedDelay⟩⟩

/-- An aborted transfer (R407, R409). -/
theorem Inv.aborted (h : Inv s) :
    Inv { s with ota := OtaRecord.reset, nv := some OtaRecord.reset, tmrArmed := false, tmrDelay := 0 } :=
  .of_reset h.cfg (h.ring.of_eq rfl rfl rfl rfl rfl rfl) (h.flash.of_eq rfl rfl) h.saveReset.width.nvPeer rfl rfl rfl

/-- A timer may be disarmed outside a client's transfer (R401, I6 of R52). -/
theorem Inv.disarm (h : Inv s) (hn : s.ota.role = .server ∨ s.ota.downloading = .idle) :
    Inv { s with tmrArmed := false, tmrDelay := 0 } := by
  obtain ⟨h1, h2, h3, h4, h5, h6, h7, -, h9⟩ := h.ota
  refine ⟨h.cfg, h.ring.of_eq rfl rfl rfl rfl rfl rfl, ⟨h1, h2, h3, h4, h5, h6, h7, fun hr hd => ?_, fun hb => ⟨(h9 hb).1, rfl⟩⟩,
    h.flash.of_eq rfl rfl, h.width.of_eq rfl rfl rfl, ⟨fun _ => rfl⟩⟩
  rcases hn with hs | hi
  · exact absurd (hr.symm.trans hs) (by decide)
  · exact absurd hi hd

/-- OTA_BOOT with nothing to restore (R320). -/
theorem Inv.booted (h : Inv s) : Inv { s with otaBooted := true } := by
  obtain ⟨h1, h2, h3, h4, h5, h6, h7, h8, -⟩ := h.ota
  exact ⟨h.cfg, h.ring.of_eq rfl rfl rfl rfl rfl rfl, ⟨h1, h2, h3, h4, h5, h6, h7, h8, fun hb => by simp at hb⟩,
    h.flash.of_eq rfl rfl, h.width.of_eq rfl rfl rfl, ⟨h.timer.disarmedDelay⟩⟩

/-- OTA_BOOT that restores a saved transfer (R320). -/
theorem Inv.restored (h : Inv s) {r : OtaRecord} (hn : s.nv = some r) (hr : restorable s.cfg r = true) :
    Inv { s with otaBooted := true, ota := r, tmrArmed := true, tmrDelay := 0 } :=
  TransferInv.inv ⟨h.cfg, h.ring.of_eq rfl rfl rfl rfl rfl rfl, h.flash.of_eq rfl rfl, hr, rfl, h.width.nvPeer r hn,
    h.width.nvPeer⟩ rfl

/-- OTA_TRIGGER that serves an image (R350). -/
theorem Inv.triggered (h : Inv s) (hb : s.otaBooted = true) {peer : Addr} (hp : s.cfg.addrOk peer = true) {len : U32}
    (hl : legalLength s.cfg len.toNat = true) (crc : U32) : Inv { s with ota := triggeredOta s.cfg peer len crc } :=
  ⟨h.cfg, h.ring.of_eq rfl rfl rfl rfl rfl rfl, .triggered h.cfg hb peer len crc, h.flash.of_eq rfl rfl,
    ⟨hp, h.width.nvPeer, fun _ => hl⟩, ⟨h.timer.disarmedDelay⟩⟩

/-- An accepted Notify starts a transfer (R400). -/
theorem Inv.notified (h : Inv s) (hb : s.otaBooted = true) (hr : s.ota.role = .client) {src : Addr}
    (hp : s.cfg.addrOk src = true) {total : U32} (hl : legalLength s.cfg total.toNat = true) {period : U16} {w : Work}
    (hw : (s.work.setOta (notifiedOta s.cfg s.ota src total period)).ErasedBy (eraseSet s.cfg total.toNat) w) :
    Inv { w.st with
      ota := { w.st.ota with downloading := .downloading, currentBlock := 0 }
      nv := some { w.st.ota with downloading := .downloading, currentBlock := 0 }
      tmrArmed := true
      tmrDelay := 0 } := by
  obtain ⟨f, hst, hflash⟩ := hw.exists_flash
  rw [hst]
  refine TransferInv.inv ⟨h.cfg, h.ring.of_eq rfl rfl rfl rfl rfl rfl, (hflash (h.flash.of_eq rfl rfl)).of_eq rfl rfl,
    restorable_notified h.cfg hl src period hr, hb, hp, ?_⟩ rfl
  intro r hn
  exact Option.some.inj hn ▸ hp

/-- `Verify()` on a good image (R405). -/
theorem Inv.verifyOk (h : Inv s) (hb : s.otaBooted = true) {i : Instr} {w : Work} (hw : VerifyFrom s i w) (d : U32) :
    Inv { w.st with ota := { w.st.ota with downloading := .upgradeRequesting }, tmrArmed := true, tmrDelay := d } :=
  have ht := hw.transfer h hb
  ((ht.setOta (restorable_upgradeRequesting ht.record (hw.complete h).2) rfl).setTimer true d).inv rfl

/-- `Verify()` on a bad image (R405). -/
theorem Inv.verifyFail (h : Inv s) (hb : s.otaBooted = true) {i : Instr} {w w' : Work} (hw : VerifyFrom s i w)
    {sectors : List Nat} (he : (w.setOta { w.st.ota with currentBlock := 0 }).ErasedBy sectors w') (d : U32) :
    Inv { w'.st with nv := some w'.st.ota, tmrArmed := true, tmrDelay := d } :=
  have ht := hw.transfer h hb
  have hr := ht.setOta (restorable_restarted ht.record (hw.complete h).1) rfl
  ((he.transfer hr).persist.setTimer true d).inv rfl

/-- A counted block that is not the last (R403). -/
theorem Inv.block (h : Inv s) (hb : s.otaBooted = true) (hr : s.ota.role = .client) {idx : U32} {n : U16}
    (ha : blockAccepted s.cfg s.ota idx n = true) {addr : Nat} {data : Bytes}
    (hf : addr + data.length ≤ s.cfg.flashSize) (crc : U32) : Inv (blockWork s addr data crc).st := by
  have hd : s.ota.downloading ≠ .idle := by simp [(blockAccepted_iff.1 ha).1]
  refine ((h.transfer hb hr hd).blockWork ha hf crc).inv ?_
  rw [blockWork_frame]
  exact h.ota.activeArmed hr hd

/-- An instruction keeps the invariant. -/
theorem Ran.inv {i : Instr} (h : Ran s i t) (hs : Inv s) (hw : i.wellFormed s.cfg = true) : Inv t := by
  cases h with
  | answered i r => exact hs.record r
  | ringInit cap hc => exact (hs.of_ring (hs.ring.initRing hc) rfl).record _
  | ringClear => exact (hs.of_ring hs.ring.setIndices_zero rfl).record _
  | ringPush data => exact (hs.of_ring (hs.ring.pushBytes data) rfl).record _
  | ringPop n => exact (hs.of_ring (hs.ring.popBytes n.toNat) rfl).record _
  | notify src p total period w hb hr hp hl he =>
    have hsrc : s.cfg.addrOk src = true := (Bool.and_eq_true_iff.1 hw).1
    exact (hs.notified hb hr hsrc hl he).record _
  | block src p idx n data crc hb hr ha hn hf hl => exact (hs.block hb hr ha hf crc).record _
  | verifyOk i w hb hv => exact (hs.verifyOk hb hv _).record _
  | verifyFail i w w' hb hv he => exact (hs.verifyFail hb hv he _).record _
  | tickIgnored hb ha hn => exact (hs.disarm hn).record _
  | tickSends m d hb ha hr hd => exact (((hs.transfer hb hr hd).setTimer true d).inv rfl).record _
  | trigger peer len crc hb hn hl => exact (hs.triggered hb hw hl crc).record _
  | upgradeResponse => exact (hs.saveReset.resetRegisters.withPending _).record _
  | aborted => exact hs.aborted.record _
  | booted => exact hs.booted.record _
  | restored r hb hn hr => exact (hs.restored hn hr).record _

/-- The first power-on leaves nothing in the flash and NV_INIT in the NV store (R70, R83, R87). -/
theorem Inv.reset : Inv State.reset :=
  .of_reset Config.default_valid (by constructor <;> simp [State.reset]) ⟨Memory.wf_nil, by simp [State.reset]⟩
    Config.default_valid.nvInit_peer rfl rfl rfl

end Sys2Proof.Machine

open Sys2Proof Sys2Proof.Machine

/-- Settles O10: a step waits, resets, answers ILLEGAL, or runs an instruction, and each keeps the invariant. -/
theorem stepKeepsInv : Obligations.StepKeepsInv := by
  intro s t hs h
  obtain ⟨-, ⟨-, rfl⟩ | ⟨rest, -, rfl⟩ | ⟨cmd, rest, r, -, -, -, rfl⟩ | ⟨cmd, rest, i, -, hd, hi⟩⟩ := step_cases h
  · exact hs
  · exact (hs.withPending rest).resetRegisters
  · exact (hs.withPending rest).record _
  · have hw := decode_wellFormed hd
    exact (exec_cases (s := s.withPending rest) hs.cfg hw hi).inv (hs.withPending rest) hw

/-- Settles O9: the invariant by `Inv.reset`; no download is in progress, and no input waits. -/
theorem resetSatisfiesInv : Obligations.ResetSatisfiesInv :=
  ⟨.reset, fun _ hd => absurd rfl hd, rfl⟩

/-- Settles O7: each field of `State.reset` is the value that R70 and R87 give. -/
theorem resetHoldsTheStatedValues : Obligations.ResetHoldsTheStatedValues :=
  ⟨rfl, rfl, rfl, rfl, rfl, rfl, rfl, rfl, rfl, rfl, rfl, rfl, rfl⟩
end

section
/-! Which instruction writes which field (spec/10_state.md R46): every instruction leaves the ring buffer and the queue
alone, or is a ring-buffer command and writes nothing else, or ends the run (`Writes`). -/

namespace Sys2Proof.Machine

variable {s t : State} {i : Instr}

/-- The one result that an instruction adds carries its effects. -/
theorem mem_newEffects {r : Result} (h : t.outputs = s.outputs ++ [r]) {e : Effect} (he : e ∈ r.effects) :
    e ∈ newEffects s t := by
  simpa [newEffects, newResults, h] using he

/-- The three ways an instruction can write: at the sequencer and the stores, with only OTA_BOOT setting the boot bit; at
the ring buffer; or by a software reset. -/
inductive Writes (s : State) (i : Instr) (t : State) : Prop where
  | ota (hb : t.otaBooted = s.otaBooted ∨ i = .otaBoot)
      (h : t = { s with
        ota := t.ota, otaBooted := t.otaBooted, tmrArmed := t.tmrArmed, tmrDelay := t.tmrDelay, flash := t.flash
        nv := t.nv, outputs := t.outputs })
  | ring (hi : isRing i = true)
      (h : t = { s with
        rbInited := t.rbInited, rbCap := t.rbCap, rbBegin := t.rbBegin, rbEnd := t.rbEnd, rbStorage := t.rbStorage
        outputs := t.outputs })
  | reset (he : Effect.softwareReset ∈ newEffects s t)

/-- Every instruction writes in one of the three ways. -/
theorem Ran.writes (h : Ran s i t) : Writes s i t := by
  cases h with
  | answered => exact .ota (.inl rfl) rfl
  | ringInit => exact .ring rfl rfl
  | ringClear => exact .ring rfl rfl
  | ringPush => exact .ring rfl rfl
  | ringPop => exact .ring rfl rfl
  | notify src p total period w hb hr hp hl hw =>
    obtain ⟨f, hst, -⟩ := hw.exists_flash
    rw [hst]
    exact .ota (.inl rfl) rfl
  | block src p idx n data crc =>
    rw [blockWork_frame]
    exact .ota (.inl rfl) rfl
  | verifyOk i w hb hw =>
    rw [hw.frame]
    exact .ota (.inl rfl) rfl
  | verifyFail i w w' hb hw he =>
    obtain ⟨f, hst, -⟩ := he.exists_flash
    rw [hst, Work.setOta_st, hw.frame]
    exact .ota (.inl rfl) rfl
  | tickIgnored => exact .ota (.inl rfl) rfl
  | tickSends => exact .ota (.inl rfl) rfl
  | trigger => exact .ota (.inl rfl) rfl
  | upgradeResponse => exact .reset (mem_newEffects rfl (by simp))
  | aborted => exact .ota (.inl rfl) rfl
  | booted => exact .ota (.inr rfl) rfl
  | restored => exact .ota (.inr rfl) rfl

/-- `Verify()` is called with the role unchanged. -/
theorem VerifyFrom.role {w : Work} (h : VerifyFrom s i w) : w.st.ota.role = s.ota.role := by
  cases h with
  | tick => rfl
  | block => rw [blockWork_ota, countedOta]

/-- Only OTA_TRIGGER changes the role (R46): a transfer's reset is a client's, and what OTA_BOOT restores is a client's
record, at a node that still has the reset record (R320). -/
theorem Ran.role (h : Ran s i t) (hs : Inv s) : t.ota.role = s.ota.role ∨ ∃ peer, i = .otaTrigger peer := by
  cases h with
  | trigger peer => exact .inr ⟨peer, rfl⟩
  | answered => exact .inl rfl
  | ringInit => exact .inl rfl
  | ringClear => exact .inl rfl
  | ringPush => exact .inl rfl
  | ringPop => exact .inl rfl
  | notify src p total period w hb hr hp hl hw =>
    obtain ⟨f, hst, -⟩ := hw.exists_flash
    rw [hst]
    exact .inl rfl
  | block src p idx n data crc =>
    rw [State.record_ota, blockWork_ota]
    exact .inl rfl
  | verifyOk i w hb hw => exact .inl hw.role
  | verifyFail i w w' hb hw he =>
    obtain ⟨f, hst, -⟩ := he.exists_flash
    rw [hst]
    exact .inl hw.role
  | tickIgnored => exact .inl rfl
  | tickSends => exact .inl rfl
  | upgradeResponse src p hb hr => exact .inl hr.symm
  | aborted i e hb hr => exact .inl hr.symm
  | booted => exact .inl rfl
  | restored r hb hn hr =>
    have hclient : r.role = .client := (restorable_iff.1 hr).1
    have hreset : s.ota.role = .client := congrArg OtaRecord.role (hs.ota.unbooted hb).1
    exact .inl (hclient.trans hreset.symm)

/-- A timer that changes is armed or disarmed by an effect (R9). -/
theorem Ran.timer (h : Ran s i t) :
    (t.tmrArmed = s.tmrArmed ∧ t.tmrDelay = s.tmrDelay) ∨ (∃ d, Effect.timerArm d ∈ newEffects s t) ∨
      Effect.timerDisarm ∈ newEffects s t := by
  cases h with
  | answered => exact .inl ⟨rfl, rfl⟩
  | ringInit => exact .inl ⟨rfl, rfl⟩
  | ringClear => exact .inl ⟨rfl, rfl⟩
  | ringPush => exact .inl ⟨rfl, rfl⟩
  | ringPop => exact .inl ⟨rfl, rfl⟩
  | trigger => exact .inl ⟨rfl, rfl⟩
  | booted => exact .inl ⟨rfl, rfl⟩
  | block src p idx n data crc =>
    rw [blockWork_frame]
    exact .inl ⟨rfl, rfl⟩
  | notify src p total period w hb hr hp hl hw =>
    have ho : w.st.outputs = s.outputs := by rw [hw.st]; rfl
    exact .inr (.inl ⟨0, mem_newEffects (congrArg (· ++ [_]) ho) (by simp)⟩)
  | verifyOk i w hb hw =>
    have ho : w.st.outputs = s.outputs := by rw [hw.frame]
    exact .inr (.inl ⟨w.st.cfg.upgradeRetryMs, mem_newEffects (congrArg (· ++ [_]) ho) (by simp)⟩)
  | verifyFail i w w' hb hw he =>
    have ho : w'.st.outputs = s.outputs := by rw [he.st, Work.setOta_st, hw.frame]
    exact .inr (.inl ⟨w'.st.ota.requestPeriodMs.zeroExtend 32, mem_newEffects (congrArg (· ++ [_]) ho) (by simp)⟩)
  | tickSends m d => exact .inr (.inl ⟨d, mem_newEffects rfl (by simp)⟩)
  | restored => exact .inr (.inl ⟨0, mem_newEffects rfl (by simp)⟩)
  | tickIgnored => exact .inr (.inr (mem_newEffects rfl (by simp)))
  | upgradeResponse => exact .inr (.inr (mem_newEffects rfl (by simp)))
  | aborted => exact .inr (.inr (mem_newEffects rfl (by simp)))

/-- The boot bit is OTA_BOOT's and the reset's (R46). -/
theorem Writes.otaBooted (h : Writes s i t) :
    t.otaBooted = s.otaBooted ∨ i = .otaBoot ∨ Effect.softwareReset ∈ newEffects s t := by
  cases h with
  | ota hb => exact hb.imp_right .inl
  | ring _ h => exact .inl (by rw [h])
  | reset he => exact .inr (.inr he)

/-- The ring buffer is the ring-buffer commands' and the reset's (R80). -/
theorem Writes.ring_kept (h : Writes s i t) :
    (t.rbInited = s.rbInited ∧ t.rbCap = s.rbCap ∧ t.rbBegin = s.rbBegin ∧ t.rbEnd = s.rbEnd ∧
      t.rbStorage = s.rbStorage) ∨ isRing i = true ∨ Effect.softwareReset ∈ newEffects s t := by
  cases h with
  | ota _ h => exact .inl ⟨by rw [h], by rw [h], by rw [h], by rw [h], by rw [h]⟩
  | ring hi => exact .inr (.inl hi)
  | reset he => exact .inr (.inr he)

/-- Only a reset drops what waits at the port (log entry 12). -/
theorem Writes.pending (h : Writes s i t) : t.pending = s.pending ∨ Effect.softwareReset ∈ newEffects s t := by
  cases h with
  | ota _ h => exact .inl (by rw [h])
  | ring _ h => exact .inl (by rw [h])
  | reset he => exact .inr he

end Sys2Proof.Machine

open Sys2Proof Sys2Proof.Machine

/-- Settles O17: each clause is the contrapositive of what an instruction keeps. -/
theorem onlyTheNamedCommandsWrite : Obligations.OnlyTheNamedCommandsWrite := by
  intro s t i hs hw h
  have hran := exec_cases hs.cfg hw h
  refine ⟨(hran.role hs).resolve_left, hran.writes.otaBooted.resolve_left, ?_, ?_, hran.writes.pending.resolve_left⟩
  · intro hne
    exact hran.timer.resolve_left fun ⟨ha, hd⟩ => hne.elim (· ha) (· hd)
  · intro hne
    refine hran.writes.ring_kept.resolve_left fun ⟨h1, h2, h3, h4, h5⟩ => ?_
    simp [h1, h2, h3, h4, h5] at hne
end

section
/-! The counts of an initialised ring buffer (spec/10_state.md R31, R33, R34). -/

namespace Sys2Proof.Machine

variable {s : State}

/-- R31: an initialised buffer in range stores nothing exactly where its indices meet. -/
theorem RingInv.storedBytes_eq_nil_iff (h : RingInv s) (hi : s.rbInited = true) :
    s.storedBytes = [] ↔ s.rbBegin = s.rbEnd := by
  refine ⟨fun hs => ?_, State.storedBytes_of_empty⟩
  have hsize : s.dataSize = 0 := by rw [← State.storedBytes_length, hs, List.length_nil]
  have hend := State.begin_add_dataSize (h.beginLt hi) (h.endLt hi)
  rwa [hsize, Nat.add_zero, Nat.mod_eq_of_lt (h.beginLt hi)] at hend

/-- R34: the buffer is full exactly where the slot after the end is the begin. -/
theorem RingInv.freeSpace_eq_zero_iff (h : RingInv s) (hi : s.rbInited = true) :
    s.freeSpace = 0 ↔ (s.rbEnd + 1) % s.rbCap.toNat = s.rbBegin := by
  have hb := h.beginLt hi
  have he := h.endLt hi
  have hsize := State.dataSize_eq hb he
  have hcons := h.conservation hi
  rcases Nat.lt_or_ge (s.rbEnd + 1) s.rbCap.toNat with hlt | hge
  · rw [Nat.mod_eq_of_lt hlt]
    split at hsize <;> omega
  · rw [show s.rbEnd + 1 = s.rbCap.toNat by omega, Nat.mod_self]
    split at hsize <;> omega

end Sys2Proof.Machine

open Sys2Proof Sys2Proof.Machine

/-- Settles O21: the counts are conserved, and the two extreme counts are the two positions of the indices. -/
theorem ringCountsConserve : Obligations.RingCountsConserve := by
  intro s h hi
  have hlt := State.dataSize_lt (h.beginLt hi) (h.endLt hi)
  exact ⟨s.storedBytes_length, Nat.le_sub_one_of_lt hlt, h.conservation hi, h.storedBytes_eq_nil_iff hi,
    h.freeSpace_eq_zero_iff hi⟩
end

section
/-! The ring buffer's indices are unobservable (spec/10_state.md R35, R61). `RingEquiv` is a congruence: every primitive
takes related states to related states and, since what it reads is no index, with the same effects; so every rule answers
related states alike (`Alike`). -/

namespace Sys2Proof.Machine

variable {s t : State}

/-! What related states share. -/

section Shared

variable (h : RingEquiv s t)
include h

theorem RingEquiv.cfg : t.cfg = s.cfg := by rw [h.rest]
theorem RingEquiv.rbInited : t.rbInited = s.rbInited := by rw [h.rest]
theorem RingEquiv.ota : t.ota = s.ota := by rw [h.rest]
theorem RingEquiv.otaBooted : t.otaBooted = s.otaBooted := by rw [h.rest]
theorem RingEquiv.tmrArmed : t.tmrArmed = s.tmrArmed := by rw [h.rest]
theorem RingEquiv.nv : t.nv = s.nv := by rw [h.rest]
theorem RingEquiv.memRead : t.memRead = s.memRead := by rw [h.rest]; rfl

theorem RingEquiv.magicOk : t.magicOk = s.magicOk := by rw [h.rest]; rfl
theorem RingEquiv.imageLen : t.imageLen = s.imageLen := by rw [h.rest]; rfl
theorem RingEquiv.hdrOk : t.hdrOk = s.hdrOk := by rw [h.rest]; rfl

theorem RingEquiv.crcChunks (len : Nat) : ∀ fuel k v, t.crcChunks len fuel k v = s.crcChunks len fuel k v
  | 0, _, _ => rfl
  | fuel + 1, k, v => by simp only [State.crcChunks, h.cfg, h.memRead, RingEquiv.crcChunks len fuel]

theorem RingEquiv.crcFlash (len : Nat) : t.crcFlash len = s.crcFlash len := by
  simp only [State.crcFlash, h.cfg, h.crcChunks]

/-! The counts and the bytes of an initialised buffer. -/

theorem RingEquiv.dataSize (hi : s.rbInited = true) : t.dataSize = s.dataSize := by
  rw [← State.storedBytes_length, ← h.stored hi, State.storedBytes_length]

theorem RingEquiv.freeSpace (hi : s.rbInited = true) : t.freeSpace = s.freeSpace := by
  rw [State.freeSpace, State.freeSpace, h.dataSize hi, h.cap hi]

theorem RingEquiv.frontBytes (hi : s.rbInited = true) {n : Nat} (hn : n ≤ s.dataSize) :
    t.frontBytes n = s.frontBytes n := by
  rw [State.frontBytes_eq_take hn, h.stored hi, State.frontBytes_eq_take (hn.trans_eq (h.dataSize hi).symm)]

/-! The updates that touch no ring field. -/

/-- The same update of both states, at fields that are not the ring buffer's. -/
theorem RingEquiv.of_kept {s' t' : State} (hs : s' = { s with
      ota := s'.ota, otaBooted := s'.otaBooted, tmrArmed := s'.tmrArmed, tmrDelay := s'.tmrDelay, flash := s'.flash
      nv := s'.nv, outputs := s'.outputs })
    (ht : t' = { s' with rbCap := t.rbCap, rbBegin := t.rbBegin, rbEnd := t.rbEnd, rbStorage := t.rbStorage }) :
    RingEquiv s' t' := by
  rw [ht, hs]
  exact ⟨h.left.of_eq rfl rfl rfl rfl rfl rfl, h.right.of_eq h.cfg.symm h.rbInited.symm rfl rfl rfl rfl, rfl, h.cap, h.stored⟩

theorem RingEquiv.record (r : Result) : RingEquiv (s.record r) (t.record r) :=
  h.of_kept rfl (by rw [h.rest]; rfl)

theorem RingEquiv.setOta (o : OtaRecord) : RingEquiv { s with ota := o } { t with ota := o } :=
  h.of_kept rfl (by rw [h.rest])

theorem RingEquiv.setTimer (a : Bool) (d : U32) :
    RingEquiv { s with tmrArmed := a, tmrDelay := d } { t with tmrArmed := a, tmrDelay := d } :=
  h.of_kept rfl (by rw [h.rest])

theorem RingEquiv.setNv (n : Option OtaRecord) : RingEquiv { s with nv := n } { t with nv := n } :=
  h.of_kept rfl (by rw [h.rest])

theorem RingEquiv.flashWithBytes (addr : Nat) (v : Bytes) :
    RingEquiv (s.flashWithBytes addr v) (t.flashWithBytes addr v) :=
  h.of_kept rfl (by rw [h.rest]; rfl)

theorem RingEquiv.flashWithErased (sector : Nat) : RingEquiv (s.flashWithErased sector) (t.flashWithErased sector) :=
  h.of_kept rfl (by rw [h.rest]; rfl)

theorem RingEquiv.setBooted : RingEquiv { s with otaBooted := true } { t with otaBooted := true } :=
  h.of_kept rfl (by rw [h.rest])

/-- A reset makes related states equal (R70). -/
theorem RingEquiv.endRun : RingEquiv s.endRun t.endRun := by
  have heq : t.endRun = s.endRun := by rw [h.rest]; rfl
  have hinv : RingInv s.endRun := (RingInv.resetRegisters s).of_eq rfl rfl rfl rfl rfl rfl
  rw [heq]
  exact ⟨hinv, hinv, rfl, fun _ => rfl, fun _ => rfl⟩

/-! The ring-buffer updates. -/

/-- Two buffers of one capacity, emptied. -/
theorem RingEquiv.initRing {cap : U16} (hc : capacityLegal s.cfg cap = true) :
    RingEquiv (s.initRing cap) (t.initRing cap) :=
  ⟨h.left.initRing hc, h.right.initRing (h.cfg ▸ hc), by rw [h.rest]; rfl, fun _ => rfl,
    fun _ => (State.storedBytes_of_empty rfl).trans (State.storedBytes_of_empty rfl).symm⟩

theorem RingEquiv.setIndices_zero : RingEquiv (s.setIndices 0 0) (t.setIndices 0 0) :=
  ⟨h.left.setIndices_zero, h.right.setIndices_zero, by rw [h.rest]; rfl, h.cap,
    fun _ => (State.storedBytes_of_empty rfl).trans (State.storedBytes_of_empty rfl).symm⟩

/-- A push that fits appends the same bytes to both (R211). -/
theorem RingEquiv.pushBytes (hi : s.rbInited = true) {data : Bytes} (hd : data.length ≤ s.freeSpace) :
    RingEquiv (s.pushBytes data) (t.pushBytes data) := by
  refine ⟨h.left.pushBytes data, h.right.pushBytes data, by rw [h.rest]; rfl, h.cap, fun _ => ?_⟩
  rw [State.pushBytes_storedBytes h.left hi hd, h.stored hi,
    State.pushBytes_storedBytes h.right (h.rbInited.trans hi) (hd.trans_eq (h.freeSpace hi).symm)]

/-- A pop removes the same bytes from both (R211). -/
theorem RingEquiv.popBytes (hi : s.rbInited = true) {n : Nat} (hn : n ≤ s.dataSize) :
    RingEquiv (s.popBytes n) (t.popBytes n) := by
  refine ⟨h.left.popBytes n, h.right.popBytes n, by rw [h.rest]; rfl, h.cap, fun _ => ?_⟩
  rw [State.popBytes_storedBytes h.left hi hn, h.stored hi,
    State.popBytes_storedBytes h.right (h.rbInited.trans hi) (hn.trans_eq (h.dataSize hi).symm)]

end Shared

/-! Commands in progress. -/

/-- Related states, with the same effects so far. -/
structure WorkEquiv (w v : Work) : Prop where
  st : RingEquiv w.st v.st
  effects : v.effects = w.effects

theorem RingEquiv.work (h : RingEquiv s t) : WorkEquiv s.work t.work := ⟨h, rfl⟩

section Primitives

variable {w v : Work} (h : WorkEquiv w v)
include h

theorem WorkEquiv.did (e : Effect) : WorkEquiv (w.did e) (v.did e) := ⟨h.st, congrArg (· ++ [e]) h.effects⟩

theorem WorkEquiv.report (r : Report) : WorkEquiv (w.report r) (v.report r) := h.did _

theorem WorkEquiv.invalidateRunningHeader : WorkEquiv w.invalidateRunningHeader v.invalidateRunningHeader := h.did _

theorem WorkEquiv.sendMsg (dest : Addr) (m : Msg) : WorkEquiv (w.sendMsg dest m) (v.sendMsg dest m) := by
  unfold Work.sendMsg
  rw [h.st.cfg]
  exact h.did _

theorem WorkEquiv.setOta (o : OtaRecord) : WorkEquiv (w.setOta o) (v.setOta o) := ⟨h.st.setOta o, h.effects⟩

theorem WorkEquiv.resetTransfer : WorkEquiv w.resetTransfer v.resetTransfer := by
  unfold Work.resetTransfer
  rw [h.st.ota]
  exact h.setOta _

theorem WorkEquiv.timerArm (d : U32) : WorkEquiv (w.timerArm d) (v.timerArm d) :=
  ⟨h.st.setTimer true d, (h.did (.timerArm d)).effects⟩

theorem WorkEquiv.timerDisarm : WorkEquiv w.timerDisarm v.timerDisarm :=
  ⟨h.st.setTimer false 0, (h.did .timerDisarm).effects⟩

theorem WorkEquiv.persist : WorkEquiv w.persist v.persist := by
  unfold Work.persist
  rw [h.st.ota]
  exact ⟨h.st.setNv _, (h.did _).effects⟩

theorem WorkEquiv.checkpoint : WorkEquiv w.checkpoint v.checkpoint := by
  unfold Work.checkpoint
  rw [h.st.ota, h.st.cfg]
  split
  · exact h.persist
  · exact h

theorem WorkEquiv.softwareReset : WorkEquiv w.softwareReset v.softwareReset :=
  ⟨h.st.endRun, (h.did .softwareReset).effects⟩

end Primitives

/-- Two flash accesses on related commands in progress: where the first completes, the second does, and they stay related. -/
def FlashAlike (x y : Except Fault Work) : Prop := ∀ w, x = .ok w → ∃ v, y = .ok v ∧ WorkEquiv w v

theorem WorkEquiv.memWrite {w v : Work} (h : WorkEquiv w v) (addr : Nat) (b : Bytes) :
    FlashAlike (w.memWrite addr b) (v.memWrite addr b) := by
  intro w' hw
  obtain ⟨hle, rfl⟩ := Work.memWrite_eq_ok hw
  exact ⟨_, Work.memWrite_ok (h.st.cfg ▸ hle), h.st.flashWithBytes addr b, (h.did _).effects⟩

theorem WorkEquiv.flashErase {w v : Work} (h : WorkEquiv w v) (sector : Nat) :
    FlashAlike (w.flashErase sector) (v.flashErase sector) := by
  intro w' hw
  obtain ⟨hlt, rfl⟩ := Work.flashErase_eq_ok hw
  exact ⟨_, Work.flashErase_ok (h.st.cfg ▸ hlt), h.st.flashWithErased sector, (h.did _).effects⟩

theorem WorkEquiv.eraseSectors {w v : Work} (h : WorkEquiv w v) (sectors : List Nat) :
    FlashAlike (w.eraseSectors sectors) (v.eraseSectors sectors) := by
  induction sectors generalizing w v with
  | nil =>
    rintro _ ⟨⟩
    exact ⟨v, rfl, h⟩
  | cons x xs ih =>
    intro w' hw
    simp only [Work.eraseSectors] at hw ⊢
    split at hw
    · rename_i w1 h1
      obtain ⟨v1, hv1, h'⟩ := h.flashErase x w1 h1
      rw [hv1]
      exact ih h' w' hw
    · cases hw

theorem WorkEquiv.eraseImage {w v : Work} (h : WorkEquiv w v) (n : Nat) :
    FlashAlike (w.eraseImage n) (v.eraseImage n) := by
  unfold Work.eraseImage
  rw [h.st.cfg]
  exact h.eraseSectors _

/-! Answers. -/

/-- Where the first answer is a next state, the second is a related one. -/
def Alike (a b : Answer) : Prop := ∀ s', a = .next s' → ∃ t', b = .next t' ∧ RingEquiv s' t'

theorem Alike.answer (h : RingEquiv s t) (r : Result) : Alike (s.answer r) (t.answer r) := by
  rintro _ ⟨⟩
  exact ⟨_, rfl, h.record r⟩

theorem WorkEquiv.finish {w v : Work} (h : WorkEquiv w v) (st : Status) (res : U32 := 0) :
    Alike (w.finish st res) (v.finish st res) := by
  unfold Work.finish
  rw [h.effects]
  exact .answer h.st _

/-- A value read alike from both states is handed on to alike continuations. -/
theorem Alike.andThen {α : Type} (x : Except Fault α) {f g : α → Answer} (h : ∀ v, Alike (f v) (g v)) :
    Alike (Machine.andThen x f) (Machine.andThen x g) := by
  intro s' hs
  obtain ⟨v, rfl, hf⟩ := andThen_eq_next hs
  exact h v s' hf

theorem Alike.andThen_flash {x y : Except Fault Work} (hx : FlashAlike x y) {f g : Work → Answer}
    (h : ∀ w v, WorkEquiv w v → Alike (f w) (g v)) : Alike (Machine.andThen x f) (Machine.andThen y g) := by
  intro s' hs
  obtain ⟨w, hw, hf⟩ := andThen_eq_next hs
  obtain ⟨v, rfl, hv⟩ := hx w hw
  exact h w v hv s' hf

section Rules

variable (h : RingEquiv s t)
include h

theorem Alike.rbGuard {a b : Answer} (hab : s.rbInited = true → Alike a b) :
    Alike (rbGuard s a) (rbGuard t b) := by
  unfold Machine.rbGuard
  rw [h.rbInited]
  split
  · exact hab ‹_›
  · exact .answer h _

theorem Alike.otaGuard {a b : Answer} (hab : Alike a b) : Alike (otaGuard s a) (otaGuard t b) := by
  unfold Machine.otaGuard
  rw [h.otaBooted]
  split
  · exact hab
  · exact .answer h _

theorem Alike.byRole {a b c d : Answer} (hac : Alike a c) (hbd : Alike b d) : Alike (byRole s a b) (byRole t c d) := by
  unfold Machine.byRole
  rw [h.ota]
  split
  · exact hac
  · exact hbd

theorem Alike.ignored : Alike (ignored s) (ignored t) := .answer h _

end Rules

/-! The client. -/

theorem Alike.verify {w v : Work} (h : WorkEquiv w v) : Alike (verify w) (verify v) := by
  unfold Machine.verify
  rw [h.st.hdrOk, h.st.crcFlash, h.st.ota]
  refine .andThen _ fun hdr => .andThen _ fun crc => ?_
  split
  · unfold verifySucceeds
    rw [h.st.ota, h.st.cfg]
    exact (((h.setOta _).timerArm _).report _).finish _
  · unfold verifyFails
    rw [h.st.ota]
    refine .andThen_flash ((h.setOta _).eraseImage _) fun w' v' h' => ?_
    rw [h'.st.ota]
    exact ((h'.persist.timerArm _).report _).finish _

theorem Alike.blockWritten {w v : Work} (h : WorkEquiv w v) (crc : U32) :
    Alike (blockWritten crc w) (blockWritten crc v) := by
  unfold Machine.blockWritten
  rw [h.st.ota]
  have hw := (h.setOta
    { w.st.ota with currentBlock := BitVec.ofNat 32 (w.st.ota.currentBlock.toNat + 1), crc := crc }).checkpoint
  dsimp only
  rw [hw.st.ota]
  split
  · exact .verify hw
  · exact hw.finish _

section Client

variable (h : RingEquiv s t)
include h

theorem Alike.clientNotify (src : Addr) (total : U32) (period : U16) :
    Alike (clientNotify src total period s) (clientNotify src total period t) := by
  unfold Machine.clientNotify
  rw [h.cfg, h.ota]
  split
  · refine .andThen_flash ((h.work.setOta _).eraseImage _) fun w v hw => ?_
    rw [hw.st.ota]
    exact ((hw.setOta _).persist.timerArm 0).finish _
  · exact .answer h _

theorem Alike.clientBlockResponse (idx : U32) (n : U16) (data : Bytes) (crc : U32) :
    Alike (clientBlockResponse idx n data crc s) (clientBlockResponse idx n data crc t) := by
  unfold Machine.clientBlockResponse
  rw [h.cfg, h.ota]
  split
  · exact .andThen_flash (h.work.memWrite _ _) fun w v hw => .blockWritten hw crc
  · exact .answer h _

theorem Alike.clientUpgradeResponse : Alike (clientUpgradeResponse s) (clientUpgradeResponse t) := by
  unfold Machine.clientUpgradeResponse
  rw [h.ota]
  split
  · exact h.work.resetTransfer.persist.timerDisarm.invalidateRunningHeader.softwareReset.finish _
  · exact .answer h _

theorem Alike.clientAbortRequest (src : Addr) : Alike (clientAbortRequest src s) (clientAbortRequest src t) := by
  unfold Machine.clientAbortRequest
  rw [h.ota]
  split
  · exact (h.work.sendMsg _ _).finish _
  · exact (h.work.resetTransfer.persist.timerDisarm.sendMsg _ _).finish _

theorem Alike.clientStatusRequest (src : Addr) : Alike (clientStatusRequest src s) (clientStatusRequest src t) := by
  unfold Machine.clientStatusRequest
  rw [h.ota]
  exact (h.work.sendMsg _ _).finish _

theorem Alike.clientAbort : Alike (clientAbort s) (clientAbort t) := by
  unfold Machine.clientAbort
  rw [h.ota]
  split
  · exact .answer h _
  · exact (h.work.resetTransfer.persist.timerDisarm.report _).finish _

theorem Alike.clientPoll : Alike (clientPoll s) (clientPoll t) := by
  unfold Machine.clientPoll
  rw [h.ota]
  exact (h.work.report _).finish _ _

theorem Alike.otaTick : Alike (execOtaTick s) (execOtaTick t) := by
  refine .otaGuard h ?_
  rw [h.tmrArmed, h.ota, h.cfg]
  have hw := h.work.timerDisarm
  split
  · split
    · exact hw.finish _
    · split
      · exact hw.finish _
      · split
        · exact ((hw.sendMsg _ _).timerArm _).finish _
        · exact .verify hw
      · exact ((hw.sendMsg _ _).timerArm _).finish _
  · exact .answer h _

end Client

/-! The server. -/

section Server

variable (h : RingEquiv s t)
include h

theorem Alike.startServing (peer : Addr) (len crc : U32) :
    Alike (startServing peer len crc s) (startServing peer len crc t) := by
  unfold Machine.startServing
  rw [h.cfg]
  exact (((h.work.setOta _).sendMsg _ _).report _).finish _ _

theorem Alike.otaTrigger (peer : Addr) : Alike (execOtaTrigger peer s) (execOtaTrigger peer t) := by
  refine .otaGuard h ?_
  rw [h.ota, h.magicOk, h.imageLen, h.cfg]
  split
  · exact (h.work.report _).finish _
  · refine .andThen _ fun magic => ?_
    split
    · refine .andThen _ fun len => ?_
      split
      · rw [h.crcFlash]
        exact .andThen _ fun crc => .startServing h peer len crc
      · exact (h.work.report _).finish _
    · exact (h.work.report _).finish _

theorem Alike.serverBlockRequest (src : Addr) (idx : U32) :
    Alike (serverBlockRequest src idx s) (serverBlockRequest src idx t) := by
  unfold Machine.serverBlockRequest
  rw [h.ota, h.cfg, h.memRead]
  split
  · exact .answer h _
  · exact .andThen _ fun data => (h.work.sendMsg _ _).finish _

theorem Alike.serverAbort : Alike (serverAbort s) (serverAbort t) := by
  unfold Machine.serverAbort
  rw [h.ota]
  exact ((h.work.sendMsg _ _).report _).finish _

theorem Alike.serverPoll : Alike (serverPoll s) (serverPoll t) := by
  unfold Machine.serverPoll
  rw [h.ota]
  exact (h.work.sendMsg _ _).finish _

/-! The commands of both halves. -/

/-- Each rule of R306's table answers related states alike. -/
theorem Alike.dispatchMsg (src : Addr) (m : Msg) : Alike (dispatchMsg src m s) (dispatchMsg src m t) := by
  cases m with
  | notify total period => exact .byRole h (.clientNotify h src total period) (.ignored h)
  | blockRequest idx => exact .byRole h (.ignored h) (.serverBlockRequest h src idx)
  | blockResponse idx n data crc => exact .byRole h (.clientBlockResponse h idx n data crc) (.ignored h)
  | abortRequest => exact .byRole h (.clientAbortRequest h src) ((h.work.sendMsg _ _).finish _)
  | abortResponse => exact .byRole h (.ignored h) ((h.work.report _).finish _)
  | upgradeRequest => exact .byRole h (.ignored h) ((h.work.sendMsg _ _).finish _)
  | upgradeResponse => exact .byRole h (.clientUpgradeResponse h) (.ignored h)
  | statusRequest => exact .byRole h (.clientStatusRequest h src) (.ignored h)
  | statusResponse ip pct rem => exact .byRole h (.ignored h) ((h.work.report _).finish _)

theorem Alike.otaRx (type : Byte) (src : Addr) (payload : Bytes) :
    Alike (otaRx type src payload s) (otaRx type src payload t) := by
  refine .otaGuard h ?_
  rw [h.cfg]
  split
  · exact .answer h _
  · exact .answer h _
  · exact .dispatchMsg h src _

/-- The nine OTA_RX rows of a tag: the tag is a parameter, which related states share. -/
theorem Alike.otaRx_tag (k : Tag) (src : Addr) (payload : Bytes) :
    Alike (Machine.otaRx (s.cfg.tagByte k) src payload s) (Machine.otaRx (t.cfg.tagByte k) src payload t) := by
  rw [h.cfg]
  exact .otaRx h _ src payload

theorem Alike.otaBoot : Alike (execOtaBoot s) (execOtaBoot t) := by
  unfold execOtaBoot
  rw [h.otaBooted]
  split
  · exact .answer h _
  · extract_lets u v
    have hb : RingEquiv u v := h.setBooted
    rw [hb.nv, hb.cfg]
    split
    · exact hb.work.finish _
    · split
      · exact (((hb.work.setOta _).timerArm 0).report _).finish _
      · exact hb.work.finish _

end Server

/-! The ring buffer and the frame codec. -/

section Local

variable (h : RingEquiv s t)
include h

theorem Alike.rbInit (cap : U16) : Alike (execRbInit cap s) (execRbInit cap t) := by
  unfold execRbInit
  rw [h.cfg]
  split
  · exact .answer (h.initRing ‹_›) _
  · exact .answer h _

theorem Alike.rbFree : Alike (execRbFree s) (execRbFree t) := by
  refine .rbGuard h fun hi => ?_
  rw [h.freeSpace hi]
  exact .answer h _

theorem Alike.rbSize : Alike (execRbSize s) (execRbSize t) := by
  refine .rbGuard h fun hi => ?_
  rw [h.dataSize hi]
  exact .answer h _

theorem Alike.rbPush (data : Bytes) : Alike (execRbPush data s) (execRbPush data t) := by
  refine .rbGuard h fun hi => ?_
  rw [h.freeSpace hi]
  split
  · exact .answer h _
  · exact .answer (h.pushBytes hi (by omega)) _

theorem Alike.rbPop (n : U16) (copy : Bool) : Alike (execRbPop n copy s) (execRbPop n copy t) := by
  refine .rbGuard h fun hi => ?_
  rw [h.dataSize hi]
  split
  · exact .answer h _
  · have hn : n.toNat ≤ s.dataSize := by omega
    rw [h.frontBytes hi hn]
    exact .answer (h.popBytes hi hn) _

theorem Alike.rbPeek (n : U16) : Alike (execRbPeek n s) (execRbPeek n t) := by
  refine .rbGuard h fun hi => ?_
  rw [h.dataSize hi]
  split
  · exact .answer h _
  · rw [h.frontBytes hi (by omega)]
    exact .answer h _

theorem Alike.fcEncode (type : Byte) (payload : Bytes) :
    Alike (execFcEncode type payload s) (execFcEncode type payload t) := by
  unfold execFcEncode
  rw [h.cfg]
  split
  · exact .answer h _
  · exact .answer h _

theorem Alike.fcDecode (buffer : Bytes) : Alike (execFcDecode buffer s) (execFcDecode buffer t) := by
  unfold execFcDecode
  rw [h.cfg]
  exact .answer h _

theorem Alike.fcParse (type : Byte) (payload : Bytes) :
    Alike (execFcParse type payload s) (execFcParse type payload t) := by
  unfold execFcParse
  rw [h.cfg]
  split
  · exact .answer h _
  · exact .answer h _
  · exact .answer h _

end Local

/-- Every instruction answers related states alike. -/
theorem Alike.exec (h : RingEquiv s t) (i : Instr) : Alike (exec i s) (exec i t) := by
  cases i with
  | rbInit cap => exact .rbInit h cap
  | rbClear => exact .rbGuard h fun _ => .answer h.setIndices_zero _
  | rbFree => exact .rbFree h
  | rbSize => exact .rbSize h
  | rbPush data => exact .rbPush h data
  | rbPop n copy => exact .rbPop h n copy
  | rbPeek n => exact .rbPeek h n
  | fcEncode type payload => exact .fcEncode h type payload
  | fcDecode buffer => exact .fcDecode h buffer
  | fcCksum data => exact .answer h _
  | fcParse type payload => exact .fcParse h type payload
  | otaRxNotify src payload => exact .otaRx_tag h .notify src payload
  | otaRxBlockReq src payload => exact .otaRx_tag h .blockReq src payload
  | otaRxBlockResp src payload => exact .otaRx_tag h .blockResp src payload
  | otaRxAbortReq src payload => exact .otaRx_tag h .abortReq src payload
  | otaRxAbortResp src payload => exact .otaRx_tag h .abortResp src payload
  | otaRxUpgReq src payload => exact .otaRx_tag h .upgReq src payload
  | otaRxUpgResp src payload => exact .otaRx_tag h .upgResp src payload
  | otaRxStatusReq src payload => exact .otaRx_tag h .statusReq src payload
  | otaRxStatusResp src payload => exact .otaRx_tag h .statusResp src payload
  | otaRxOther type src payload => exact .otaRx h type src payload
  | otaTick => exact .otaTick h
  | otaTrigger peer => exact .otaTrigger h peer
  | otaAbort => exact .otaGuard h (.byRole h (.clientAbort h) (.serverAbort h))
  | otaPoll => exact .otaGuard h (.byRole h (.clientPoll h) (.serverPoll h))
  | otaBoot => exact .otaBoot h

end Sys2Proof.Machine

open Sys2Proof Sys2Proof.Machine

/-- Settles O26: `RingEquiv` is a congruence for every instruction. -/
theorem ringIndicesAreUnobservable : Obligations.RingIndicesAreUnobservable :=
  fun _ _ s' i h _ he => Alike.exec h i s' he
end

section
/-! A step runs the command it takes (spec/20_memory.md R100, spec/30_encoding.md R127). -/

namespace Sys2Proof.Machine

/-- The port runs the instruction that a command decodes to. -/
theorem serveCommand_of_decode {s : State} {cmd : Command} {i : Instr} (h : decode s.cfg cmd = .ok i) :
    serveCommand cmd s = exec i s := by
  unfold serveCommand
  rw [h]

end Sys2Proof.Machine

open Sys2Proof Sys2Proof.Machine

/-- Settles O6: the step serves the input at the head of the queue, and the port decodes it. -/
theorem stepRunsTheDecodedInstruction : Obligations.StepRunsTheDecodedInstruction := by
  intro s cmd rest i hc hp hd
  calc step s = serveCommand cmd (s.withPending rest) := step_input hc hp
    _ = exec i (s.withPending rest) := serveCommand_of_decode hd
end

section
/-! Where the flash effects of an instruction lie (spec/20_memory.md R84, R85): the sequencer writes blocks of an image of
legal length, and erases the sectors of one. -/

namespace Sys2Proof.Machine

variable {s t : State} {i : Instr} {c : Config}

/-- A block of a legal image lies in the image area (R85, R302). -/
theorem block_in_imageArea (hc : c.Valid) {n idx : Nat} (hl : legalLength c n = true) (hidx : idx < blocks c n) :
    blockAddr c idx + blockLen c n idx ≤ c.imageBase + c.maxImageSize := by
  have hblock := (block_in_image hidx hc.blockSize_pos).1
  simp only [legalLength, decide_eq_true_eq] at hl
  unfold blockAddr
  omega

/-- A sector of a legal image starts in the image area: the image area starts with a sector (R6, R84). -/
theorem eraseSet_in_imageArea (hc : c.Valid) {n k : Nat} (hl : legalLength c n = true) (hk : k ∈ eraseSet c n) :
    c.imageBase ≤ k * c.sectorSize ∧ k * c.sectorSize < c.imageBase + c.maxImageSize := by
  obtain ⟨hfirst, hlast⟩ := mem_eraseSet.1 hk
  have hpos := hc.sectorSize_pos
  have hmin : 4 ≤ c.headerMin := Config.Valid.headerMin_ge
  simp only [legalLength, decide_eq_true_eq] at hl
  constructor
  · rw [← Nat.div_mul_cancel (Nat.dvd_of_mod_eq_zero hc.base_aligned)]
    exact Nat.mul_le_mul_right _ hfirst
  · have := (Nat.le_div_iff_mul_le (by omega)).1 hlast
    omega

/-- What `FlashEffectsStayInTheImageArea` asks of one effect. -/
def Effect.InImageArea (c : Config) : Effect → Prop
  | .flashWrite addr v => c.imageBase ≤ addr ∧ addr + v.length ≤ c.imageBase + c.maxImageSize
  | .flashErase k => c.imageBase ≤ k * c.sectorSize ∧ k * c.sectorSize < c.imageBase + c.maxImageSize
  | .nvSave _ => True
  | .send _ _ => True
  | .report _ => True
  | .timerArm _ => True
  | .timerDisarm => True
  | .invalidateRunningHeader => True
  | .softwareReset => True

theorem Quiet.inImageArea {e : Effect} (h : Quiet c e) : e.InImageArea c := by
  cases h with
  | report => trivial
  | send => trivial

/-- The effects of a command's one result are the new effects. -/
theorem newEffects_record {u : State} (h : u.outputs = s.outputs) (r : Result) :
    newEffects s (u.record r) = r.effects := by
  simp [newEffects, newResults, h]

/-- A command whose effects lie in the image area, once it has answered. -/
theorem inImageArea_record {u : State} (ho : u.outputs = s.outputs) {r : Result}
    (h : ∀ e ∈ r.effects, e.InImageArea c) : ∀ e ∈ newEffects s (u.record r), e.InImageArea c := by
  rwa [newEffects_record ho]

/-- Erasing a legal image performs effects in the image area. -/
theorem Work.ErasedBy.inImageArea {w w' : Work} {n : Nat} (he : w.ErasedBy (eraseSet c n) w') (hc : c.Valid)
    (hl : legalLength c n = true) (hw : ∀ e ∈ w.effects, e.InImageArea c) : ∀ e ∈ w'.effects, e.InImageArea c := by
  rw [he.effects, List.forall_mem_append]
  refine ⟨hw, fun e h => ?_⟩
  obtain ⟨k, hk, rfl⟩ := List.mem_map.1 h
  exact eraseSet_in_imageArea hc hl hk

/-- An accepted block of a client lies in the image area (R403). -/
theorem Inv.accepted_in_imageArea (h : Inv s) (hr : s.ota.role = .client) {idx : U32} {n : U16}
    (ha : blockAccepted s.cfg s.ota idx n = true) :
    blockAddr s.cfg idx.toNat + n.toNat ≤ s.cfg.imageBase + s.cfg.maxImageSize := by
  obtain ⟨hd, hk, rfl, hn⟩ := blockAccepted_iff.1 ha
  rw [hn]
  exact block_in_imageArea h.cfg (h.ota.activeLength hr (by simp [hd])) (h.ota.blocksOfBytes ▸ hk)

/-- The effects of a block's command before its `Verify()` (R403). -/
theorem blockWork_inImageArea (hs : Inv s) (hr : s.ota.role = .client) {idx : U32} {n : U16} {data : Bytes}
    (ha : blockAccepted s.cfg s.ota idx n = true) (hn : data.length = n.toNat) (crc : U32) :
    ∀ e ∈ (blockWork s (blockAddr s.cfg idx.toNat) data crc).effects, e.InImageArea s.cfg := by
  have hwrite : (Effect.flashWrite (blockAddr s.cfg idx.toNat) data).InImageArea s.cfg :=
    ⟨Nat.le_add_right _ _, hn ▸ hs.accepted_in_imageArea hr ha⟩
  unfold blockWork
  rw [Work.checkpoint_eq]
  split
  · exact List.forall_mem_cons.2 ⟨hwrite, by simp [Effect.InImageArea]⟩
  · exact List.forall_mem_singleton.2 hwrite

theorem VerifyFrom.inImageArea {w : Work} (h : VerifyFrom s i w) (hs : Inv s) :
    ∀ e ∈ w.effects, e.InImageArea s.cfg := by
  cases h with
  | tick => simp [Effect.InImageArea]
  | block src p idx n data crc hr ha hn => exact blockWork_inImageArea hs hr ha hn crc

/-- Every flash effect of an instruction lies in the image area. -/
theorem Ran.inImageArea (h : Ran s i t) (hs : Inv s) : ∀ e ∈ newEffects s t, e.InImageArea s.cfg := by
  cases h with
  | answered i r hq => exact inImageArea_record rfl fun e he => (hq e he).inImageArea
  | notify src p total period w hb hr hp hl hw =>
    have herase := hw.inImageArea hs.cfg hl (by simp)
    exact inImageArea_record (by rw [hw.st]; rfl)
      (List.forall_mem_append.2 ⟨herase, by simp [Effect.InImageArea]⟩)
  | block src p idx n data crc hb hr ha hn =>
    exact inImageArea_record (by rw [blockWork_frame]) (blockWork_inImageArea hs hr ha hn crc)
  | verifyOk i w hb hw =>
    exact inImageArea_record (by rw [hw.frame])
      (List.forall_mem_append.2 ⟨hw.inImageArea hs, by simp [Effect.InImageArea]⟩)
  | verifyFail i w w' hb hw he =>
    have hcfg : w.st.cfg = s.cfg := by rw [hw.frame]
    obtain ⟨-, -, hl, -⟩ := restorable_iff.1 (hw.transfer hs hb).record
    rw [hcfg] at he hl
    have herase := he.inImageArea hs.cfg hl (hw.inImageArea hs)
    exact inImageArea_record (by rw [he.st, Work.setOta_st, hw.frame])
      (List.forall_mem_append.2 ⟨herase, by simp [Effect.InImageArea]⟩)
  | aborted i e hb hr hi hd he =>
    exact inImageArea_record rfl
      (List.forall_mem_cons.2 ⟨trivial, List.forall_mem_cons.2 ⟨trivial, List.forall_mem_singleton.2 he.inImageArea⟩⟩)
  | ringInit => exact inImageArea_record rfl (by simp)
  | ringClear => exact inImageArea_record rfl (by simp)
  | ringPush => exact inImageArea_record rfl (by simp)
  | ringPop => exact inImageArea_record rfl (by simp)
  | booted => exact inImageArea_record rfl (by simp)
  | tickIgnored => exact inImageArea_record rfl (by simp [Effect.InImageArea])
  | tickSends => exact inImageArea_record rfl (by simp [Effect.InImageArea])
  | trigger => exact inImageArea_record rfl (by simp [Effect.InImageArea])
  | upgradeResponse => exact inImageArea_record rfl (by simp [Effect.InImageArea])
  | restored => exact inImageArea_record rfl (by simp [Effect.InImageArea])

end Sys2Proof.Machine

open Sys2Proof Sys2Proof.Machine

/-- Settles O12: `Ran.inImageArea`, for a write and for an erase. -/
theorem flashEffectsStayInTheImageArea : Obligations.FlashEffectsStayInTheImageArea := by
  intro s t i hs hw h
  have harea := (exec_cases hs.cfg hw h).inImageArea hs
  exact ⟨fun addr v he => harea _ he, fun k he => harea _ he⟩
end

section
/-! Every instruction completes under the invariant (spec/20_memory.md R85): each flash access is of the header, of a legal
image or of one of its blocks, and these lie in the flash (R6). -/

namespace Sys2Proof.Machine

variable {s : State}

/-- An answer that is a next state. -/
def Completes (a : Answer) : Prop := ∃ t, a = .next t

theorem Completes.answer (s : State) (r : Result) : Completes (s.answer r) := ⟨_, rfl⟩

theorem Completes.finish (w : Work) (st : Status) (res : U32 := 0) : Completes (w.finish st res) := ⟨_, rfl⟩

theorem Completes.andThen {α : Type} {x : Except Fault α} {v : α} {f : α → Answer} (hx : x = .ok v)
    (h : Completes (f v)) : Completes (andThen x f) := hx ▸ h

theorem Completes.rbGuard {a : Answer} (h : Completes a) : Completes (rbGuard s a) := by
  unfold Machine.rbGuard
  split
  · exact h
  · exact .answer s _

theorem Completes.otaGuard {a : Answer} (h : Completes a) : Completes (otaGuard s a) := by
  unfold Machine.otaGuard
  split
  · exact h
  · exact .answer s _

theorem Completes.byRole {a b : Answer} (ha : s.ota.role = .client → Completes a)
    (hb : s.ota.role = .server → Completes b) : Completes (byRole s a b) := by
  unfold Machine.byRole
  split
  · exact ha ‹_›
  · exact hb ‹_›

theorem Completes.ignored (s : State) : Completes (ignored s) := .answer s _

/-! The client. -/

/-- `Verify()` of a legal image (R405). -/
theorem Completes.verify {w : Work} (hc : w.st.cfg.Valid)
    (hl : legalLength w.st.cfg w.st.ota.totalBytes.toNat = true) : Completes (verify w) := by
  by_cases hv : Verifies w.st.cfg w.st.flashByte w.st.ota.totalBytes w.st.ota.crc
  · exact ⟨_, verify_succeeds hc hl hv⟩
  · obtain ⟨f, hf, -⟩ := verify_fails hc hl hv
    exact ⟨_, hf⟩

/-- A checkpoint saves the record and changes nothing else (R404). -/
theorem Work.checkpoint_frame (w : Work) : w.checkpoint.st = { w.st with nv := w.checkpoint.st.nv } := by
  rw [Work.checkpoint_eq]
  split <;> rfl

theorem Completes.blockWritten {w : Work} (hc : w.st.cfg.Valid)
    (hl : legalLength w.st.cfg w.st.ota.totalBytes.toNat = true) (crc : U32) : Completes (blockWritten crc w) := by
  unfold Machine.blockWritten
  extract_lets _ counted saved
  have hst : saved.st = { counted.st with nv := saved.st.nv } := counted.checkpoint_frame
  split
  · refine .verify ?_ ?_
    · rw [hst]
      exact hc
    · rw [hst]
      exact hl
  · exact .finish saved .ok

theorem Completes.clientNotify (h : Inv s) (src : Addr) (total : U32) (period : U16) :
    Completes (clientNotify src total period s) := by
  by_cases hl : legalLength s.cfg total.toNat = true
  · obtain ⟨f, hf, -⟩ := clientNotify_eq h.cfg hl src period
    exact ⟨_, hf⟩
  · unfold Machine.clientNotify
    rw [if_neg hl]
    exact .answer s _

theorem Completes.clientBlockResponse (h : Inv s) (hr : s.ota.role = .client) {n : U16} {data : Bytes}
    (hn : data.length = n.toNat) (idx crc : U32) : Completes (clientBlockResponse idx n data crc s) := by
  unfold Machine.clientBlockResponse
  split
  · rename_i ha
    have hd : s.ota.downloading ≠ .idle := by simp [(blockAccepted_iff.1 ha).1]
    have hfits : blockAddr s.cfg idx.toNat + data.length ≤ s.cfg.flashSize := by
      rw [hn]
      exact (h.accepted_in_imageArea hr ha).trans h.cfg.image_in_flash
    exact .andThen (Work.memWrite_ok hfits) (.blockWritten h.cfg (h.ota.activeLength hr hd) crc)
  · exact .answer s _

theorem Completes.clientUpgradeResponse (s : State) : Completes (clientUpgradeResponse s) := by
  unfold Machine.clientUpgradeResponse
  split
  · exact .finish _ _
  · exact .answer s _

theorem Completes.clientAbort (s : State) : Completes (clientAbort s) := by
  unfold Machine.clientAbort
  split
  · exact .answer s _
  · exact .finish _ _

theorem Completes.otaTick (h : Inv s) : Completes (execOtaTick s) := by
  refine .otaGuard ?_
  split
  · extract_lets w
    split
    · exact .finish w _
    · rename_i hr
      split
      · exact .finish w _
      · rename_i hd
        split
        · exact .finish _ _
        · have hclient : s.ota.role = .client := by
            cases hs : s.ota.role with
            | client => rfl
            | server => exact absurd hs hr
          exact .verify h.cfg (h.ota.activeLength hclient (by simp [hd]))
      · exact .finish _ _
  · exact .answer s _

/-! The server. -/

theorem Completes.serverBlockRequest (h : Inv s) (hr : s.ota.role = .server) (src : Addr) (idx : U32) :
    Completes (serverBlockRequest src idx s) := by
  unfold Machine.serverBlockRequest
  split
  · exact .answer s _
  · rename_i hidx
    have hblock : idx.toNat < blocks s.cfg s.ota.totalBytes.toNat := by
      rw [← h.ota.blocksOfBytes]
      omega
    have harea := block_in_imageArea h.cfg (h.width.serverLength hr) hblock
    exact .andThen (State.memRead_ok (harea.trans h.cfg.image_in_flash)) (.finish _ _)

theorem Completes.otaTrigger (hc : s.cfg.Valid) (peer : Addr) : Completes (execOtaTrigger peer s) := by
  refine .otaGuard ?_
  split
  · exact .finish _ _
  · refine .andThen (State.magicOk_ok hc) ?_
    split
    · refine .andThen (State.imageLen_ok hc) ?_
      split
      · rename_i hl
        exact .andThen (State.crcFlash_legal hc hl) (.finish _ _ _)
      · exact .finish _ _
    · exact .finish _ _

/-! The commands of both halves. -/

/-- Each rule of R306's table completes on a message the parser can give. -/
theorem Completes.dispatchMsg (h : Inv s) (src : Addr) {m : Msg} (hm : messageOk m) :
    Completes (dispatchMsg src m s) := by
  cases m with
  | notify total period => exact .byRole (fun _ => .clientNotify h src total period) (fun _ => .ignored s)
  | blockRequest idx => exact .byRole (fun _ => .ignored s) (fun hr => .serverBlockRequest h hr src idx)
  | blockResponse idx n data crc =>
    exact .byRole (fun hr => .clientBlockResponse h hr hm idx crc) (fun _ => .ignored s)
  | abortRequest => exact .byRole (fun _ => .finish _ _) (fun _ => .finish _ _)
  | abortResponse => exact .byRole (fun _ => .ignored s) (fun _ => .finish _ _)
  | upgradeRequest => exact .byRole (fun _ => .ignored s) (fun _ => .finish _ _)
  | upgradeResponse => exact .byRole (fun _ => .clientUpgradeResponse s) (fun _ => .ignored s)
  | statusRequest => exact .byRole (fun _ => .finish _ _) (fun _ => .ignored s)
  | statusResponse ip pct rem => exact .byRole (fun _ => .ignored s) (fun _ => .finish _ _)

/-- The parser gives only messages it accepts (R254). -/
theorem messageOk_of_parseMsg {c : Config} {type : Byte} {p : Bytes} {m : Msg} (h : parseMsg c type p = .message m) :
    messageOk m := by
  unfold parseMsg at h
  split at h
  · cases h
  · split at h
    · rename_i k hk m' hm
      cases h
      exact (parsePayload_eq_some hm).2
    · cases h

theorem Completes.otaRx (h : Inv s) (type : Byte) (src : Addr) (payload : Bytes) :
    Completes (otaRx type src payload s) := by
  rcases otaRx_cases type src payload s with ⟨st, -, heq⟩ | ⟨-, m, hm, heq⟩
  · exact ⟨_, heq⟩
  · rw [heq]
    exact .dispatchMsg h src (messageOk_of_parseMsg hm)

theorem Completes.otaBoot (s : State) : Completes (execOtaBoot s) := by
  unfold execOtaBoot
  split
  · exact .answer s _
  · extract_lets u
    split
    · exact .finish _ _
    · split
      · exact .finish _ _
      · exact .finish _ _

/-! The ring buffer and the frame codec, which touch no flash. -/

theorem Completes.rbInit (cap : U16) (s : State) : Completes (execRbInit cap s) := by
  unfold execRbInit
  split
  · exact .answer _ _
  · exact .answer s _

theorem Completes.rbPush (data : Bytes) (s : State) : Completes (execRbPush data s) := by
  refine .rbGuard ?_
  split
  · exact .answer s _
  · exact .answer _ _

theorem Completes.rbPop (n : U16) (copy : Bool) (s : State) : Completes (execRbPop n copy s) := by
  refine .rbGuard ?_
  split
  · exact .answer s _
  · exact .answer _ _

theorem Completes.rbPeek (n : U16) (s : State) : Completes (execRbPeek n s) := by
  refine .rbGuard ?_
  split
  · exact .answer s _
  · exact .answer s _

theorem Completes.fcEncode (type : Byte) (payload : Bytes) (s : State) : Completes (execFcEncode type payload s) := by
  unfold execFcEncode
  split
  · exact .answer s _
  · exact .answer s _

theorem Completes.fcParse (type : Byte) (payload : Bytes) (s : State) : Completes (execFcParse type payload s) := by
  unfold execFcParse
  split
  · exact .answer s _
  · exact .answer s _
  · exact .answer s _

/-- Under the invariant every instruction completes, whatever its operands. -/
theorem Inv.exec_completes (h : Inv s) (i : Instr) : Completes (exec i s) := by
  cases i with
  | rbInit cap => exact .rbInit cap s
  | rbClear => exact .rbGuard (.answer _ _)
  | rbFree => exact .rbGuard (.answer s _)
  | rbSize => exact .rbGuard (.answer s _)
  | rbPush data => exact .rbPush data s
  | rbPop n copy => exact .rbPop n copy s
  | rbPeek n => exact .rbPeek n s
  | fcEncode type payload => exact .fcEncode type payload s
  | fcDecode buffer => exact .answer s _
  | fcCksum data => exact .answer s _
  | fcParse type payload => exact .fcParse type payload s
  | otaRxNotify src payload => exact .otaRx h _ src payload
  | otaRxBlockReq src payload => exact .otaRx h _ src payload
  | otaRxBlockResp src payload => exact .otaRx h _ src payload
  | otaRxAbortReq src payload => exact .otaRx h _ src payload
  | otaRxAbortResp src payload => exact .otaRx h _ src payload
  | otaRxUpgReq src payload => exact .otaRx h _ src payload
  | otaRxUpgResp src payload => exact .otaRx h _ src payload
  | otaRxStatusReq src payload => exact .otaRx h _ src payload
  | otaRxStatusResp src payload => exact .otaRx h _ src payload
  | otaRxOther type src payload => exact .otaRx h type src payload
  | otaTick => exact .otaTick h
  | otaTrigger peer => exact .otaTrigger h.cfg peer
  | otaAbort => exact .otaGuard (.byRole (fun _ => .clientAbort s) (fun _ => .finish _ _))
  | otaPoll => exact .otaGuard (.byRole (fun _ => .finish _ _ _) (fun _ => .finish _ _))
  | otaBoot => exact .otaBoot s

end Sys2Proof.Machine

open Sys2Proof Sys2Proof.Machine

/-- Settles O11: `Inv.exec_completes`; that the operands are well-formed is not needed. -/
theorem invRulesOutFaults : Obligations.InvRulesOutFaults :=
  fun _ i hs _ => hs.exec_completes i
end

section
/-! The effects account for the flash and the NV store (spec/00_scope.md R9): each primitive performs the effect whose
replay is what it does to the stores, and replaying reads nothing but the stores and the parameters. -/

namespace Sys2Proof.Machine

variable {s t u : State} {i : Instr}

/-- Two states with the same parameters, flash and NV store. -/
structure SameStores (s t : State) : Prop where
  cfg : s.cfg = t.cfg
  flash : s.flash = t.flash
  nv : s.nv = t.nv

/-- Replaying an effect reads the stores and the parameters alone. -/
theorem SameStores.replayEffect (h : SameStores s t) (e : Effect) :
    SameStores (replayEffect s e) (replayEffect t e) := by
  obtain ⟨hc, hf, hn⟩ := h
  cases e with
  | flashWrite addr v => exact ⟨hc, by simp [Machine.replayEffect, State.flashUnlisted, hc, hf], hn⟩
  | flashErase k => exact ⟨hc, by simp [Machine.replayEffect, hc, hf], hn⟩
  | nvSave r => exact ⟨hc, hf, rfl⟩
  | send => exact ⟨hc, hf, hn⟩
  | report => exact ⟨hc, hf, hn⟩
  | timerArm => exact ⟨hc, hf, hn⟩
  | timerDisarm => exact ⟨hc, hf, hn⟩
  | invalidateRunningHeader => exact ⟨hc, hf, hn⟩
  | softwareReset => exact ⟨hc, hf, hn⟩

theorem SameStores.replay (h : SameStores s t) (es : List Effect) :
    SameStores (es.foldl Machine.replayEffect s) (es.foldl Machine.replayEffect t) := by
  induction es generalizing s t with
  | nil => exact h
  | cons e es ih => exact ih (h.replayEffect e)

/-- The effects, replayed from `s`, leave the stores of `t`. -/
def Accounted (s t : State) (es : List Effect) : Prop := SameStores (es.foldl replayEffect s) t

/-- Accounts compose. -/
theorem Accounted.append {es fs : List Effect} (h : Accounted s t es) (h' : Accounted t u fs) :
    Accounted s u (es ++ fs) := by
  unfold Accounted at h' ⊢
  rw [List.foldl_append]
  obtain ⟨hc, hf, hn⟩ := h.replay fs
  exact ⟨hc.trans h'.cfg, hf.trans h'.flash, hn.trans h'.nv⟩

/-- A command's result accounts for what the command wrote. -/
theorem Accounted.record {r : Result} (h : Accounted s u r.effects) (ho : u.outputs = s.outputs) :
    Accounted s (u.record r) (newEffects s (u.record r)) := by
  rw [newEffects_record ho]
  exact ⟨h.cfg, h.flash, h.nv⟩

/-- Effects that write nothing of the node account for nothing. -/
theorem Accounted.quiet {c : Config} {es : List Effect} (h : ∀ e ∈ es, Quiet c e) : Accounted s s es := by
  induction es with
  | nil => exact ⟨rfl, rfl, rfl⟩
  | cons e es ih =>
    have hskip : replayEffect s e = s := by
      cases h e (by simp) with
      | report => rfl
      | send => rfl
    unfold Accounted
    rw [List.foldl_cons, hskip]
    exact ih fun x hx => h x (by simp [hx])

/-- The erases account for the erased sectors (R304). -/
theorem Work.ErasedBy.accounted {w w' : Work} {sectors : List Nat} (he : w.ErasedBy sectors w')
    (h : Accounted s w.st w.effects) : Accounted s w'.st w'.effects := by
  rw [he.effects]
  refine h.append ?_
  unfold Accounted
  rw [he.replay]
  exact ⟨rfl, rfl, rfl⟩

/-- The write and, at a checkpoint, the save account for a counted block (R403). -/
theorem blockWork_accounted (s : State) (addr : Nat) (data : Bytes) (crc : U32) :
    Accounted s (blockWork s addr data crc).st (blockWork s addr data crc).effects := by
  unfold blockWork
  rw [Work.checkpoint_eq]
  split
  · exact ⟨rfl, rfl, rfl⟩
  · exact ⟨rfl, rfl, rfl⟩

theorem VerifyFrom.accounted {w : Work} (h : VerifyFrom s i w) : Accounted s w.st w.effects := by
  cases h with
  | tick => exact ⟨rfl, rfl, rfl⟩
  | block => exact blockWork_accounted ..

/-- An instruction's effects account for what it did to the stores. -/
theorem Ran.accounted (h : Ran s i t) : Accounted s t (newEffects s t) := by
  cases h with
  | answered i r hq => exact .record (.quiet hq) rfl
  | notify src p total period w hb hr hp hl hw =>
    have hw' := hw.accounted (s := s) ⟨rfl, rfl, rfl⟩
    exact .record (hw'.append ⟨rfl, rfl, rfl⟩) (by rw [hw.st]; rfl)
  | block => exact .record (blockWork_accounted ..) (by rw [blockWork_frame])
  | verifyOk i w hb hw => exact .record (hw.accounted.append ⟨rfl, rfl, rfl⟩) (by rw [hw.frame])
  | verifyFail i w w' hb hw he =>
    have hreset : Accounted s (w.setOta { w.st.ota with currentBlock := 0 }).st w.effects :=
      ⟨hw.accounted.cfg, hw.accounted.flash, hw.accounted.nv⟩
    exact .record ((he.accounted hreset).append ⟨rfl, rfl, rfl⟩) (by rw [he.st, Work.setOta_st, hw.frame])
  | aborted i e hb hr hi hd he =>
    have hsaved : Accounted s
        { s with ota := OtaRecord.reset, nv := some OtaRecord.reset, tmrArmed := false, tmrDelay := 0 }
        [.nvSave OtaRecord.reset, .timerDisarm] := ⟨rfl, rfl, rfl⟩
    exact .record (hsaved.append (.quiet (c := s.cfg) (by simpa using he))) rfl
  | ringInit => exact .record ⟨rfl, rfl, rfl⟩ rfl
  | ringClear => exact .record ⟨rfl, rfl, rfl⟩ rfl
  | ringPush => exact .record ⟨rfl, rfl, rfl⟩ rfl
  | ringPop => exact .record ⟨rfl, rfl, rfl⟩ rfl
  | tickIgnored => exact .record ⟨rfl, rfl, rfl⟩ rfl
  | tickSends => exact .record ⟨rfl, rfl, rfl⟩ rfl
  | trigger => exact .record ⟨rfl, rfl, rfl⟩ rfl
  | upgradeResponse => exact .record ⟨rfl, rfl, rfl⟩ rfl
  | booted => exact .record ⟨rfl, rfl, rfl⟩ rfl
  | restored => exact .record ⟨rfl, rfl, rfl⟩ rfl

end Sys2Proof.Machine

open Sys2Proof Sys2Proof.Machine

/-- Settles O15: `Ran.accounted`, for the two stores. -/
theorem effectsAccountForTheStores : Obligations.EffectsAccountForTheStores := by
  intro s t i hc hw h
  have hacc := (exec_cases hc hw h).accounted
  exact ⟨hacc.flash.symm, hacc.nv.symm⟩
end

section
/-! Runs of pushes and pops (spec/20_memory.md R101): each command that is not dropped moves bytes between the stored bytes
and the outside, and a run joins what its commands moved. -/

namespace Sys2Proof.Machine

variable {s t : State}

/-- What an initialised buffer answers to a push: dropped whole, or done (R205). -/
theorem exec_rbPush_cases (hi : s.rbInited = true) {data : Bytes} (h : exec (.rbPush data) s = .next t) :
    t = s.record { st := .dropped } ∨
      (data.length ≤ s.freeSpace ∧ t = (s.pushBytes data).record { st := .ok }) := by
  change execRbPush data s = .next t at h
  unfold execRbPush rbGuard at h
  rw [if_pos hi] at h
  split at h
  · exact .inl (Host.Outcome.next.inj h).symm
  · exact .inr ⟨by omega, (Host.Outcome.next.inj h).symm⟩

/-- What an initialised buffer answers to a pop: dropped whole, or done (R206). -/
theorem exec_rbPop_cases (hi : s.rbInited = true) {n : U16} {copy : Bool} (h : exec (.rbPop n copy) s = .next t) :
    t = s.record { st := .dropped } ∨
      (n.toNat ≤ s.dataSize ∧ t = (s.popBytes n.toNat).record
        { st := .ok, dout := if copy then s.frontBytes n.toNat else [] }) := by
  change execRbPop n copy s = .next t at h
  unfold execRbPop rbGuard at h
  rw [if_pos hi] at h
  split at h
  · exact .inl (Host.Outcome.next.inj h).symm
  · exact .inr ⟨by omega, (Host.Outcome.next.inj h).symm⟩

/-- A push or a pop. -/
def PushOrPop (i : Instr) : Prop := (∃ data, i = .rbPush data) ∨ ∃ n copy, i = .rbPop n copy

/-- The bytes that a push or a pop removes and the result it answers: a push removes none, and a pop answers the bytes it
removes where COPY is 1. -/
def Removes (i : Instr) (p : Bytes × Result) : Prop :=
  (∀ data, i = .rbPush data → p.1 = [] ∧ p.2.dout = []) ∧
    ∀ n copy, i = .rbPop n copy → p.1.length = n.toNat ∧ p.2.dout = if copy then p.1 else []

/-- Recording a result changes no stored byte. -/
@[simp] theorem State.record_storedBytes (s : State) (r : Result) : (s.record r).storedBytes = s.storedBytes := rfl

/-- One push or pop: it keeps the ring buffer in range, adds one result and, where that is OK, moves the bytes. -/
theorem pushOrPop_moves {i : Instr} (hpp : PushOrPop i) (hs : RingInv s) (hi : s.rbInited = true)
    (h : exec i s = .next t) :
    RingInv t ∧ t.rbInited = true ∧ ∃ r, t.outputs = s.outputs ++ [r] ∧
      (r.st = .ok → ∃ b, Removes i (b, r) ∧ b ++ t.storedBytes = s.storedBytes ++ pushedBytes i) := by
  have dropped : RingInv (s.record { st := .dropped }) := hs.of_eq rfl rfl rfl rfl rfl rfl
  rcases hpp with ⟨data, rfl⟩ | ⟨n, copy, rfl⟩
  · rcases exec_rbPush_cases hi h with rfl | ⟨hle, rfl⟩
    · exact ⟨dropped, hi, _, rfl, by simp⟩
    · refine ⟨(hs.pushBytes data).of_eq rfl rfl rfl rfl rfl rfl, hi, _, rfl, fun _ => ⟨[], by simp [Removes], ?_⟩⟩
      exact State.pushBytes_storedBytes hs hi hle
  · rcases exec_rbPop_cases hi h with rfl | ⟨hle, rfl⟩
    · exact ⟨dropped, hi, _, rfl, by simp⟩
    · refine ⟨(hs.popBytes n.toNat).of_eq rfl rfl rfl rfl rfl rfl, hi, _, rfl, fun _ => ⟨s.frontBytes n.toNat, ?_, ?_⟩⟩
      · simp [Removes]
      · rw [State.record_storedBytes, State.popBytes_storedBytes hs hi hle, State.frontBytes_eq_take hle]
        simp [pushedBytes]

/-- A run of pushes and pops adds one result a command; where every one is OK, the bytes removed command by command and then
those stored at the end are those stored at the start and then those pushed. -/
theorem runInstrs_moves {is : List Instr} (hpp : ∀ i ∈ is, PushOrPop i) (hs : RingInv s) (hi : s.rbInited = true)
    (h : runInstrs is s = .next t) :
    ∃ rs, t.outputs = s.outputs ++ rs ∧ ((∀ r ∈ rs, r.st = .ok) →
      ∃ ps : List (Bytes × Result), ps.map Prod.snd = rs ∧ List.Forall₂ Removes is ps ∧
        (ps.map Prod.fst).flatten ++ t.storedBytes = s.storedBytes ++ is.flatMap pushedBytes) := by
  induction is generalizing s with
  | nil =>
    cases h
    exact ⟨[], by simp, fun _ => ⟨[], rfl, .nil, by simp⟩⟩
  | cons i is ih =>
    obtain ⟨hpp_i, hpp_is⟩ := List.forall_mem_cons.1 hpp
    simp only [runInstrs] at h
    split at h
    · rename_i u hu
      obtain ⟨hs_u, hi_u, r, hr, hmove⟩ := pushOrPop_moves hpp_i hs hi hu
      obtain ⟨rs, hrs, hmoves⟩ := ih hpp_is hs_u hi_u h
      refine ⟨r :: rs, by rw [hrs, hr, List.append_assoc]; rfl, fun hok => ?_⟩
      obtain ⟨hok_r, hok_rs⟩ := List.forall_mem_cons.1 hok
      obtain ⟨b, hrem, hb⟩ := hmove hok_r
      obtain ⟨ps, rfl, hall, hps⟩ := hmoves hok_rs
      refine ⟨(b, r) :: ps, rfl, .cons hrem hall, ?_⟩
      calc b ++ (ps.map Prod.fst).flatten ++ t.storedBytes
          = b ++ (u.storedBytes ++ is.flatMap pushedBytes) := by rw [List.append_assoc, hps]
        _ = s.storedBytes ++ (pushedBytes i ++ is.flatMap pushedBytes) := by
          rw [← List.append_assoc, hb, List.append_assoc]
    · cases h
    · cases h

/-- In a run of copying pops every command answers the bytes it removes. -/
theorem dout_eq_removed {is : List Instr} {ps : List (Bytes × Result)} (hall : List.Forall₂ Removes is ps)
    (hpp : ∀ i ∈ is, PushOrPop i) (hcopy : ∀ n, Instr.rbPop n false ∉ is) :
    (ps.map Prod.snd).flatMap Result.dout = (ps.map Prod.fst).flatten := by
  induction hall with
  | nil => rfl
  | @cons i p is ps hrem _ ih =>
    obtain ⟨hpp_i, hpp_is⟩ := List.forall_mem_cons.1 hpp
    have hdout : p.2.dout = p.1 := by
      rcases hpp_i with ⟨data, rfl⟩ | ⟨n, copy, rfl⟩
      · obtain ⟨hb, hd⟩ := hrem.1 data rfl
        rw [hd, hb]
      · obtain rfl : copy = true := by
          by_contra hne
          exact hcopy n (by simp [hne])
        exact (hrem.2 n true rfl).2
    have htail := ih hpp_is fun n hn => hcopy n (List.mem_cons_of_mem _ hn)
    simp only [List.map_cons, List.flatMap_cons, List.flatten_cons, hdout, htail]

end Sys2Proof.Machine

open Sys2Proof Sys2Proof.Machine

/-- Settles O25: `runInstrs_moves`, read command by command. -/
theorem poppedBytesFollowPushedBytes : Obligations.PoppedBytesFollowPushedBytes := by
  intro is s t hs hi hpp h hok
  obtain ⟨rs, hrs, hmoves⟩ := runInstrs_moves hpp hs hi h
  have hnew : newResults s t = rs := by simp [newResults, hrs]
  rw [hnew] at hok ⊢
  obtain ⟨ps, rfl, hall, heq⟩ := hmoves hok
  refine ⟨⟨ps.map Prod.fst, by simp [hall.length_eq], heq, fun k i hk => ?_⟩, fun hcopy => ?_⟩
  · obtain ⟨hlt, rfl⟩ := List.getElem?_eq_some_iff.1 hk
    have hlt' : k < ps.length := hall.length_eq ▸ hlt
    exact ⟨ps[k].1, ps[k].2, by simp [hlt'], by simp [hlt'], hall.get hlt hlt'⟩
  · rw [dout_eq_removed hall hpp hcopy]
    exact heq
end

section
/-! The encoder read back by the decoder (spec/30_encoding.md R120-R127): a word put together from legal fields is decoded
to the command of its fields, and the encoder puts every instruction into such a word. -/

namespace Sys2Proof

variable {c : Config}

/-- A command that reads neither ADDR nor DIN is decoded from its word alone (R121). -/
theorem decode_plainCommand {o : Opcode} {a : Byte} {len : U16} (hk : o.lenKind ≠ .count) (ha : auxLegal o a = true)
    (hl : lenReject c o len = none) : decode c (plainCommand o a len) = .ok (instrOf c o a len 0 []) :=
  decode_commandWord c o a len 0 [] (addrOk_zero c) (by simp [hk]) ha hl

/-- R126 has no check on a LEN that counts DIN. -/
theorem lenReject_count {o : Opcode} (hk : o.lenKind = .count) (len : U16) : lenReject c o len = none := by
  simp [lenReject, hk]

/-- A command whose LEN counts its DIN gets that DIN back (R121). -/
theorem decode_countedCommand {o : Opcode} {a : Byte} {addr : Addr} {p : Bytes} (hk : o.lenKind = .count)
    (ha : auxLegal o a = true) (haddr : c.addrOk addr = true) (hp : countOk p = true) :
    decode c (countedCommand o a addr p) = .ok (instrOf c o a (lenOf p) addr p) :=
  decode_commandWord c o a (lenOf p) addr p haddr (by simp [hk, lenOf_toNat hp]) ha (lenReject_count hk _)

/-- The OTA_RX row of a message kind (R125). -/
def rxRow (k : Tag) (src : Addr) (p : Bytes) : Instr :=
  match k with
  | .notify => .otaRxNotify src p
  | .blockReq => .otaRxBlockReq src p
  | .blockResp => .otaRxBlockResp src p
  | .abortReq => .otaRxAbortReq src p
  | .abortResp => .otaRxAbortResp src p
  | .upgReq => .otaRxUpgReq src p
  | .upgResp => .otaRxUpgResp src p
  | .statusReq => .otaRxStatusReq src p
  | .statusResp => .otaRxStatusResp src p

/-- A tag selects the row of its kind, since no other kind has that tag (R6). -/
theorem rxInstr_tagByte (hc : c.Valid) (k : Tag) (src : Addr) (p : Bytes) :
    rxInstr c (c.tagByte k) src p = rxRow k src p := by
  unfold rxInstr
  rw [tagOf_tagByte hc]
  cases k <;> rfl

/-- A type that is no tag selects the row of the others (R135). -/
theorem rxInstr_other {t : Byte} (ht : ∀ k, c.tagByte k ≠ t) (src : Addr) (p : Bytes) :
    rxInstr c t src p = .otaRxOther t src p := by
  unfold rxInstr
  rw [tagOf_eq_none.2 ht]

/-- The frame an OTA_RX row carries comes back as the row of its tag. -/
theorem decode_rxRow (hc : c.Valid) (k : Tag) {src : Addr} {p : Bytes} (h : (c.addrOk src && countOk p) = true) :
    decode c (countedCommand .otaRx (c.tagByte k) src p) = .ok (rxRow k src p) := by
  obtain ⟨hs, hp⟩ := Bool.and_eq_true_iff.1 h
  rw [← rxInstr_tagByte hc]
  exact decode_countedCommand rfl rfl hs hp

/-- A frame of another type comes back as OTA_RX.OTHER. -/
theorem decode_rxOther {t : Byte} {src : Addr} {p : Bytes} (h : (Instr.otaRxOther t src p).wellFormed c = true) :
    decode c (countedCommand .otaRx t src p) = .ok (.otaRxOther t src p) := by
  simp only [Instr.wellFormed, Bool.and_eq_true, List.all_eq_true, bne_iff_ne] at h
  obtain ⟨⟨ht, hs⟩, hp⟩ := h
  rw [← rxInstr_other fun k => ht k (tag_mem_all k)]
  exact decode_countedCommand rfl rfl hs hp

/-- COPY is a legal A byte of RB_POP, and is read back (R125). -/
theorem auxLegal_copyByte (copy : Bool) : auxLegal .rbPop (copyByte copy) = true := by cases copy <;> rfl

theorem copyByte_getLsbD (copy : Bool) : (copyByte copy).getLsbD 0 = copy := by cases copy <;> rfl

theorem decode_encode_rbPop (len : U16) (copy : Bool) :
    decode c (encode c (.rbPop len copy)) = .ok (.rbPop len copy) := by
  have h := decode_plainCommand (c := c) (o := .rbPop) (len := len) nofun (auxLegal_copyByte copy) rfl
  rwa [instrOf, copyByte_getLsbD] at h

/-- Decoding undoes encoding: each instruction is put into a word with legal fields. -/
theorem decode_encode (hc : c.Valid) {i : Instr} (h : i.wellFormed c = true) : decode c (encode c i) = .ok i := by
  have counted {o : Opcode} (hk : o.lenKind = .count) {a : Byte} (ha : auxLegal o a = true) {p : Bytes}
      (hp : countOk p = true) : decode c (countedCommand o a 0 p) = .ok (instrOf c o a (lenOf p) 0 p) :=
    decode_countedCommand hk ha (addrOk_zero c) hp
  cases i with
  | rbInit cap => exact Machine.decode_encode_rbInit h
  | rbClear => exact decode_plainCommand nofun rfl rfl
  | rbFree => exact decode_plainCommand nofun rfl rfl
  | rbSize => exact decode_plainCommand nofun rfl rfl
  | rbPush data => exact counted rfl rfl h
  | rbPop len copy => exact decode_encode_rbPop len copy
  | rbPeek len => exact decode_plainCommand nofun rfl rfl
  | fcEncode type payload => exact counted rfl rfl h
  | fcDecode buffer => exact counted rfl rfl h
  | fcCksum data => exact counted rfl rfl h
  | fcParse type payload => exact counted rfl rfl h
  | otaRxNotify src payload => exact decode_rxRow hc .notify h
  | otaRxBlockReq src payload => exact decode_rxRow hc .blockReq h
  | otaRxBlockResp src payload => exact decode_rxRow hc .blockResp h
  | otaRxAbortReq src payload => exact decode_rxRow hc .abortReq h
  | otaRxAbortResp src payload => exact decode_rxRow hc .abortResp h
  | otaRxUpgReq src payload => exact decode_rxRow hc .upgReq h
  | otaRxUpgResp src payload => exact decode_rxRow hc .upgResp h
  | otaRxStatusReq src payload => exact decode_rxRow hc .statusReq h
  | otaRxStatusResp src payload => exact decode_rxRow hc .statusResp h
  | otaRxOther type src payload => exact decode_rxOther h
  | otaTick => exact decode_plainCommand nofun rfl rfl
  | otaTrigger peer => exact decode_commandWord c .otaTrigger 0 0 peer [] h rfl rfl rfl
  | otaAbort => exact decode_plainCommand nofun rfl rfl
  | otaPoll => exact decode_plainCommand nofun rfl rfl
  | otaBoot => exact Machine.decode_encode_otaBoot c

end Sys2Proof

open Sys2Proof Sys2Proof.Machine

/-- Settles O1: `decode_encode`. -/
theorem decodeOfEncodeIsTheInstruction : Obligations.DecodeOfEncodeIsTheInstruction :=
  fun _ _ hc hw => decode_encode hc hw

/-- Settles O5: the decoder is run on the six words. -/
theorem sampleWordsDecode : Obligations.SampleWordsDecode :=
  ⟨rfl, rfl, rfl, rfl, rfl, rfl⟩
end

section
/-! What the decoder accepts (spec/30_encoding.md R121, R125, R126): a word with legal fields, which is the encoding of the
instruction it gives; every other word is one of R126's illegal encodings. -/

namespace Sys2Proof.Machine

variable {c : Config}

/-- The fields of a word pass the checks of R126 as the command `o` of R125. -/
structure LegalFields (c : Config) (cw : U32) (o : Opcode) : Prop where
  op : opcodeOf (opField cw) = some o
  aux : auxLegal o (auxField cw) = true
  len : lenReject c o (lenField cw) = none

/-- The |DIN| that R121 asks of a word that R125 lists. -/
theorem dinLengthOf_of_opcode {cw : U32} {o : Opcode} (h : opcodeOf (opField cw) = some o) :
    dinLengthOf cw = if o.lenKind = .count then (lenField cw).toNat else 0 := by
  unfold dinLengthOf
  rw [h]

/-- A word is decoded exactly where its fields are legal, to the instruction of its fields (R127). -/
theorem decodeWord_eq_ok_iff {cmd : Command} {i : Instr} : decodeWord c cmd = .ok i ↔
    ∃ o, LegalFields c cmd.cw o ∧ i = instrOf c o (auxField cmd.cw) (lenField cmd.cw) cmd.addr cmd.din := by
  constructor
  · intro h
    unfold decodeWord at h
    split at h
    · cases h
    · rename_i o ho
      split at h
      · rename_i ha
        split at h
        · cases h
        · rename_i hl
          exact ⟨o, ⟨ho, ha, hl⟩, (Except.ok.inj h).symm⟩
      · cases h
  · rintro ⟨o, ⟨ho, ha, hl⟩, rfl⟩
    simp [decodeWord, ho, ha, hl]

/-- Where LEN fails its check the command is ILLEGAL (R126). -/
theorem isIllegal_of_lenReject {o : Opcode} {len : U16} {r : Reject} (h : lenReject c o len = some r) :
    r.isIllegal = true := by
  unfold lenReject at h
  split at h
  · split at h <;> cases h
    rfl
  · split at h <;> cases h
    rfl
  · cases h
  · cases h

/-- Past the boundary every rejection is one of R126's. -/
theorem isIllegal_of_decodeWord {cmd : Command} {r : Reject} (h : decodeWord c cmd = .error r) : r.isIllegal = true := by
  unfold decodeWord at h
  split at h
  · cases h
    rfl
  · split at h
    · split at h
      · rename_i hl
        cases h
        exact isIllegal_of_lenReject hl
      · cases h
    · cases h
      rfl

/-- The port accepts a command exactly where ADDR and DIN pass the boundary and the word is decoded (R121, R501). -/
theorem decode_eq_ok_iff {cmd : Command} {i : Instr} : decode c cmd = .ok i ↔
    c.addrOk cmd.addr = true ∧ cmd.din.length = dinLengthOf cmd.cw ∧ decodeWord c cmd = .ok i := by
  unfold decode
  split
  · split
    · simp [*]
    · simp [*]
  · simp [*]

/-! The encoding of a word's own fields. -/

/-- R126: an A that must be 0 is 0. -/
theorem aux_eq_zero {o : Opcode} {a : Byte} (h : auxLegal o a = true) (hk : o.auxKind = .zero) : a = 0 := by
  simpa [auxLegal, hk] using h

/-- R126: a LEN that must be 0 is 0. -/
theorem len_eq_zero {o : Opcode} {len : U16} (h : lenReject c o len = none) (hk : o.lenKind = .zero) : len = 0 := by
  simpa [lenReject, hk] using h

/-- A legal A byte of RB_POP is its COPY bit (R126). -/
theorem copyByte_of_legal {a : Byte} (h : auxLegal .rbPop a = true) : copyByte (a.getLsbD 0) = a := by
  revert a
  decide

/-- A LEN that counts DIN is the LEN of DIN (R121). -/
theorem lenOf_eq {p : Bytes} {len : U16} (h : p.length = len.toNat) : lenOf p = len := by
  simp [lenOf, h]

/-- An OTA_RX row reads ADDR as its source (R121). -/
theorem addrOperand_rxInstr (t : Byte) (src : Addr) (p : Bytes) : addrOperand (rxInstr c t src p) = some src := by
  unfold rxInstr
  split <;> rfl

/-- The encoder puts the instruction of legal fields back into those fields, with ADDR 0 where it is ignored. -/
theorem encode_instrOf {o : Opcode} {a : Byte} {len : U16} {addr : Addr} {din : Bytes} (ha : auxLegal o a = true)
    (hl : lenReject c o len = none) (hd : din.length = if o.lenKind = .count then len.toNat else 0) :
    encode c (instrOf c o a len addr din) =
      { cw := commandWord o a len, addr := (addrOperand (instrOf c o a len addr din)).getD 0, din := din } := by
  have hzeroA := aux_eq_zero ha
  have hzeroL := len_eq_zero hl
  have hcount (hk : o.lenKind = .count) : lenOf din = len := lenOf_eq (by rw [hd, if_pos hk])
  have hempty (hk : o.lenKind ≠ .count) : din = [] := List.eq_nil_of_length_eq_zero (by rw [hd, if_neg hk])
  cases o
  case rbClear | rbFree | rbSize | otaTick | otaTrigger | otaAbort | otaPoll | otaBoot =>
    rw [hzeroA rfl, hzeroL rfl, hempty nofun]
    rfl
  case rbInit | rbPeek =>
    rw [hzeroA rfl, hempty nofun]
    rfl
  case rbPop =>
    rw [hempty nofun]
    nth_rw 2 [← copyByte_of_legal ha]
    rfl
  case rbPush | fcDecode | fcCksum =>
    rw [hzeroA rfl, ← hcount rfl]
    rfl
  case fcEncode | fcParse =>
    rw [← hcount rfl]
    rfl
  case otaRx =>
    rw [instrOf, addrOperand_rxInstr, encode_rxInstr, ← hcount rfl]
    rfl

/-- The ADDR an instruction reads is the ADDR of its command (R121). -/
theorem addrOperand_instrOf {o : Opcode} {a : Byte} {len : U16} {addr x : Addr} {din : Bytes}
    (h : addrOperand (instrOf c o a len addr din) = some x) : x = addr := by
  cases o
  case otaTrigger => exact (Option.some.inj h).symm
  case otaRx =>
    rw [instrOf, addrOperand_rxInstr] at h
    exact (Option.some.inj h).symm
  all_goals cases h

/-! The illegal encodings, in the numbers of R125 and R126. -/

/-- The reserved OPs (R126). -/
theorem opcodeOf_eq_none_iff {op : Byte} : opcodeOf op = none ↔
    op.toNat = 0x00 ∨ (0x08 ≤ op.toNat ∧ op.toNat ≤ 0x0F) ∨ (0x14 ≤ op.toNat ∧ op.toNat ≤ 0x1F) ∨ 0x26 ≤ op.toNat := by
  revert op
  decide

/-- The check on A (R126). -/
theorem auxLegal_iff {o : Opcode} {a : Byte} : auxLegal o a = true ↔
    (o.auxKind = .zero → a.toNat = 0) ∧ (o.auxKind = .copyFlag → a.toNat / 2 = 0) := by
  cases hk : o.auxKind with
  | zero => simp [auxLegal, hk, BitVec.toNat_eq]
  | copyFlag =>
    have hbit : a.extractLsb' 1 7 = 0 ↔ a.toNat / 2 = 0 := by
      revert a
      decide
    simpa [auxLegal, hk] using hbit
  | frameType => simp [auxLegal, hk]

/-- The check on LEN (R126). -/
theorem lenReject_eq_none_iff {o : Opcode} {len : U16} : lenReject c o len = none ↔
    (o.lenKind = .zero → len.toNat = 0) ∧ (o.lenKind = .capacity → len.toNat ≠ 0 ∧ len.toNat ≤ c.rbNmax) := by
  cases hk : o.lenKind with
  | zero => simp [lenReject, hk, BitVec.toNat_eq]
  | capacity => simp [lenReject, hk, capacityLegal, Nat.one_le_iff_ne_zero]
  | count => simp [lenReject, hk]
  | outputCount => simp [lenReject, hk]

/-- R121's |DIN|, in the numbers of R125. -/
theorem dinLengthOf_eq_countedLength (cw : U32) : dinLengthOf cw = countedLength cw := by
  unfold countedLength
  rw [← opField_toNat, ← lenField_toNat]
  cases h : opcodeOf (opField cw) with
  | none =>
    have hop := opcodeOf_eq_none_iff.1 h
    unfold dinLengthOf
    rw [h, if_neg (by simp; omega)]
  | some o =>
    rw [dinLengthOf_of_opcode h, ← op_of_opcodeOf h]
    cases o <;> rfl

/-- R126's illegal encodings are the words whose fields are not legal. -/
theorem illegalWord_iff {cw : U32} : IllegalWord c cw ↔ ¬ ∃ o, LegalFields c cw o := by
  unfold IllegalWord
  rw [← opField_toNat, ← auxField_toNat, ← lenField_toNat]
  cases h : opcodeOf (opField cw) with
  | none =>
    refine ⟨fun _ ⟨o, hlegal⟩ => ?_, fun _ => .inl (opcodeOf_eq_none_iff.1 h)⟩
    exact absurd (h.symm.trans hlegal.op) nofun
  | some o =>
    have hlegal : (∃ o, LegalFields c cw o) ↔ auxLegal o (auxField cw) = true ∧ lenReject c o (lenField cw) = none := by
      refine ⟨fun ⟨o', ho, ha, hl⟩ => ?_, fun ⟨ha, hl⟩ => ⟨o, h, ha, hl⟩⟩
      obtain rfl := Option.some.inj (h.symm.trans ho)
      exact ⟨ha, hl⟩
    rw [hlegal, auxLegal_iff, lenReject_eq_none_iff, ← op_of_opcodeOf h]
    cases o <;> simp [Opcode.op, Opcode.auxKind, Opcode.lenKind, imp_iff_not_or]

/-- Past the boundary the word decides (R127, R501). -/
theorem decode_of_boundary {cmd : Command} (ha : c.addrOk cmd.addr = true) (hd : cmd.din.length = countedLength cmd.cw) :
    decode c cmd = decodeWord c cmd := by
  rw [← dinLengthOf_eq_countedLength] at hd
  simp [decode, ha, hd]

/-- An illegal word is rejected as one of R126's encodings. -/
theorem decodeWord_of_illegalWord {cmd : Command} (h : IllegalWord c cmd.cw) :
    ∃ r, decodeWord c cmd = .error r ∧ r.isIllegal = true := by
  cases hw : decodeWord c cmd with
  | error r => exact ⟨r, rfl, isIllegal_of_decodeWord hw⟩
  | ok i =>
    obtain ⟨o, hlegal, -⟩ := decodeWord_eq_ok_iff.1 hw
    exact absurd ⟨o, hlegal⟩ (illegalWord_iff.1 h)

/-- Every other word is decoded. -/
theorem decodeWord_of_not_illegalWord {cmd : Command} (h : ¬ IllegalWord c cmd.cw) : ∃ i, decodeWord c cmd = .ok i := by
  obtain ⟨o, hlegal⟩ := not_not.1 (mt illegalWord_iff.2 h)
  exact ⟨_, decodeWord_eq_ok_iff.2 ⟨o, hlegal, rfl⟩⟩

/-- The port answers ILLEGAL to a rejection of R126, and writes nothing. -/
theorem serveCommand_of_illegal {s : State} {cmd : Command} {r : Reject} (h : decode s.cfg cmd = .error r)
    (hr : r.isIllegal = true) : serveCommand cmd s = .next (s.record { st := .illegal }) := by
  unfold serveCommand rejectCommand
  rw [h]
  exact if_pos hr

end Sys2Proof.Machine

open Sys2Proof Sys2Proof.Machine

/-- Settles O2: a decoded word is put together from its own fields, and the encoder puts the instruction back into them. -/
theorem encodeOfDecodeIsTheCommand : Obligations.EncodeOfDecodeIsTheCommand := by
  intro c cmd i h
  obtain ⟨-, hdin, hword⟩ := decode_eq_ok_iff.1 h
  obtain ⟨o, ⟨hop, haux, hlen⟩, rfl⟩ := decodeWord_eq_ok_iff.1 hword
  rw [dinLengthOf_of_opcode hop] at hdin
  have henc := encode_instrOf (addr := cmd.addr) haux hlen hdin
  exact ⟨decode_wellFormed h, by rw [henc]; exact commandWord_fields hop, by rw [henc], fun _ => addrOperand_instrOf⟩

/-- Settles O3: `illegalWord_iff`, through the port. -/
theorem illegalEncodingsAnswerIllegal : Obligations.IllegalEncodingsAnswerIllegal := by
  intro s cmd rest hc hp haddr hdin
  have hdecode := decode_of_boundary haddr hdin
  constructor
  · intro hill
    obtain ⟨r, hr, hri⟩ := decodeWord_of_illegalWord hill
    calc step s = serveCommand cmd (s.withPending rest) := step_input hc hp
      _ = _ := serveCommand_of_illegal (hdecode.trans hr) hri
  · intro hlegal
    rw [hdecode]
    exact decodeWord_of_not_illegalWord hlegal
end

section
/-! The frame FC_ENCODE lays out (spec/30_encoding.md R130-R132, spec/41_frame_codec.md R250, R251). -/

namespace Sys2Proof.Machine

variable {s : State} {t : Byte} {p : Bytes}

/-- The checksum of a frame, as a sum of numbers: the type, the two bytes of the length, the payload (R132, R250). -/
theorem cksum_frameBody (t : Byte) (p : Bytes) :
    cksum (t :: BitVec.ofNat 8 p.length :: BitVec.ofNat 8 (p.length / 256) :: p) =
      BitVec.ofNat 8 (t.toNat + p.length % 256 + p.length / 256 + (p.map BitVec.toNat).sum) := by
  rw [cksum_eq_sum]
  apply BitVec.eq_of_toNat_eq
  simp only [List.map_cons, List.sum_cons, BitVec.toNat_ofNat]
  omega

theorem exec_fcEncode_ok (hp : p.length ≤ s.cfg.mtu) : exec (.fcEncode t p) s =
    .next (s.record { st := .ok, res := BitVec.ofNat 32 (p.length + 5), dout := encodeFrame s.cfg t p }) :=
  if_neg (not_lt.2 hp)

theorem exec_fcEncode_tooLong (hp : s.cfg.mtu < p.length) :
    exec (.fcEncode t p) s = .next (s.record { st := .tooLong }) :=
  if_pos hp

end Sys2Proof.Machine

open Sys2Proof Sys2Proof.Machine

/-- Settles O27: `encodeFrame_eq`, with the checksum as a sum. -/
theorem fcEncodeLaysOutTheFrame : Obligations.FcEncodeLaysOutTheFrame := by
  intro s t p _
  refine ⟨fun hp => ?_, exec_fcEncode_tooLong⟩
  rw [exec_fcEncode_ok hp, encodeFrame_eq, cksum_frameBody]
  rfl
end

section
/-! RX_STEP (spec/30_encoding.md R161, spec/70_reset_and_hazards.md R572, R573): what its commands answer on an initialised
buffer, alone and with other agents' commands between. -/

namespace Sys2Proof.Machine

variable {s t : State} {i : Instr} {p : RxPhase} {src : Addr} {d : Result} {b : Bytes}

/-! The commands of RX_STEP on an initialised buffer. -/

theorem exec_rbSize (hi : s.rbInited = true) :
    exec .rbSize s = .next (s.record { st := .ok, res := BitVec.ofNat 32 s.dataSize }) :=
  if_pos hi

theorem exec_rbPeek (hi : s.rbInited = true) {n : U16} (hn : n.toNat ≤ s.dataSize) :
    exec (.rbPeek n) s = .next (s.record { st := .ok, dout := s.storedBytes.take n.toNat }) := by
  rw [← State.frontBytes_eq_take hn]
  exact (if_pos hi).trans (if_neg (not_lt.2 hn))

theorem exec_rbPeek_all (hi : s.rbInited = true) {n : U16} (hn : n.toNat = s.dataSize) :
    exec (.rbPeek n) s = .next (s.record { st := .ok, dout := s.storedBytes }) := by
  rw [exec_rbPeek hi hn.le, List.take_of_length_le (by rw [State.storedBytes_length, hn])]

theorem exec_rbPop (hi : s.rbInited = true) {n : U16} (hn : n.toNat ≤ s.dataSize) :
    exec (.rbPop n false) s = .next ((s.popBytes n.toNat).record { st := .ok }) :=
  (if_pos hi).trans (if_neg (not_lt.2 hn))

theorem exec_rbFree (hi : s.rbInited = true) :
    exec .rbFree s = .next (s.record { st := .ok, res := BitVec.ofNat 32 s.freeSpace }) :=
  if_pos hi

/-- A peek, dropped or not, writes nothing (R207). -/
theorem exec_rbPeek_writes_nothing (hi : s.rbInited = true) (n : U16) : ∃ r, exec (.rbPeek n) s = .next (s.record r) := by
  rcases Nat.lt_or_ge s.dataSize n.toNat with hlt | hge
  · exact ⟨_, (if_pos hi).trans (if_pos hlt)⟩
  · exact ⟨_, exec_rbPeek hi hge⟩

/-- The result of an FC_DECODE of `b` (R252). -/
def decodeResult (c : Config) (b : Bytes) : Result :=
  { st := (decodeFrame c b).st, res := (decodeFrame c b).res, dout := (decodeFrame c b).payload }

theorem exec_fcDecode (b : Bytes) (s : State) :
    exec (.fcDecode b) s = .next (s.record (decodeResult s.cfg b)) := rfl

/-- The count of an initialised buffer fits the 16 bits of LEN (R30, R33). -/
theorem RingInv.dataSize_lt (h : RingInv s) (hi : s.rbInited = true) : s.dataSize < 65536 :=
  (State.dataSize_lt (h.beginLt hi) (h.endLt hi)).trans s.rbCap.isLt

/-- The count that RX_STEP takes from RB_SIZE's RES. -/
theorem toNat_size {n : Nat} (hn : n < 65536) : ((BitVec.ofNat 32 n).extractLsb' 0 16 : U16).toNat = n := by
  simp [BitVec.extractLsb'_toNat]
  omega

/-- The first bytes of a prefix are the first bytes of the whole. -/
theorem take_of_prefix {l : Bytes} (h : b <+: l) {n : Nat} (hn : n ≤ b.length) : b.take n = l.take n := by
  obtain ⟨rest, rfl⟩ := h
  rw [List.take_append_of_le_length hn]

/-- Recording a result keeps the ring buffer. -/
theorem RingInv.record (h : RingInv s) (r : Result) : RingInv (s.record r) := h.of_eq rfl rfl rfl rfl rfl rfl

/-- What the Consumer reads from RES is `bytes_consumed` (R252). -/
theorem IsDecodeOf.consumed {c : Config} (hd : IsDecodeOf c d b) : d.consumed.toNat = (decodeFrame c b).consumed := hd.2.1

theorem IsDecodeOf.consumed_le_length {c : Config} (hd : IsDecodeOf c d b) : d.consumed.toNat ≤ b.length :=
  hd.consumed.trans_le (decodeFrame_consumed_le c b)

/-- A decode of bytes that are stored consumes no more than is stored. -/
theorem IsDecodeOf.consumed_le (hd : IsDecodeOf s.cfg d b) (hb : b <+: s.storedBytes) : d.consumed.toNat ≤ s.dataSize := by
  calc d.consumed.toNat ≤ b.length := hd.consumed_le_length
    _ ≤ s.storedBytes.length := hb.length_le
    _ = s.dataSize := s.storedBytes_length

/-! RX_STEP alone. -/

/-- A command's result goes to what follows it. -/
@[simp] theorem thenResult_record (s : State) (r : Result) (f : Result → State → Answer) :
    thenResult (.next (s.record r)) f = f r (s.record r) := by
  rw [thenResult_next, State.lastResult_record]

/-- The end of RX_STEP after a decode of the stored bytes: what was consumed is discarded, and the frame handed on where the
decode was OK (R573). -/
theorem rxDiscard_eq (hs : RingInv s) (hi : s.rbInited = true) (hd : IsDecodeOf s.cfg d s.storedBytes) (src : Addr) :
    ∃ t, t.storedBytes = s.storedBytes.drop d.consumed.toNat ∧ RingInv t ∧
      t = { s with rbBegin := t.rbBegin, outputs := t.outputs } ∧ rxDiscard src d s = rxHandOver src d t := by
  have hle := hd.consumed_le List.prefix_rfl
  unfold rxDiscard
  split
  · rename_i hzero
    exact ⟨s, by simp [hzero], hs, rfl, rfl⟩
  · refine ⟨(s.popBytes d.consumed.toNat).record { st := .ok }, State.popBytes_storedBytes hs hi hle,
      (hs.popBytes _).record _, rfl, ?_⟩
    rw [rbDiscardPseudo, exec_rbPop hi hle, thenResult_record]

/-- RX_STEP up to its decode, which is of all the stored bytes. -/
theorem rxStep_eq (hs : RingInv s) (hi : s.rbInited = true) (src : Addr) :
    ∃ u, u.storedBytes = s.storedBytes ∧ RingInv u ∧ u = { s with outputs := u.outputs } ∧
      rxStep src s = rxDiscard src (decodeResult s.cfg s.storedBytes) u := by
  have hpeek (r : Result) : exec (.rbPeek ((BitVec.ofNat 32 s.dataSize).extractLsb' 0 16)) (s.record r) =
      .next ((s.record r).record { st := .ok, dout := s.storedBytes }) :=
    exec_rbPeek_all (s := s.record r) hi (toNat_size (hs.dataSize_lt hi))
  refine ⟨((s.record { st := .ok, res := BitVec.ofNat 32 s.dataSize }).record { st := .ok, dout := s.storedBytes }).record
    (decodeResult s.cfg s.storedBytes), rfl, ((hs.record _).record _).record _, rfl, ?_⟩
  unfold rxStep
  rw [exec_rbSize hi, thenResult_record, hpeek, thenResult_record, exec_fcDecode, thenResult_record]
  rfl

/-- The hand-over of a decode's frame (R161). -/
theorem rxHandOver_decodeResult {c : Config} (hc : t.cfg = c) {b : Bytes} (hb : b.length < 65536) (src : Addr) :
    rxHandOver src (decodeResult c b) t =
      if (decodeFrame c b).st = .ok then exec (rxInstr c (decodeFrame c b).type src (decodeFrame c b).payload) t
      else .next t := by
  obtain ⟨-, -, htype, -⟩ := fcDecode_isDecodeOf (c := c) hb
  unfold rxHandOver decodeResult
  rw [htype, hc]

/-! RX_STEP command by command. -/

/-- What follows the pop is coherent with any state of the parameters it was decoded under. -/
theorem RxCoherent.afterDiscard (hd : IsDecodeOf t.cfg d b) (src : Addr) : RxCoherent (rxAfterDiscard src d) t := by
  unfold rxAfterDiscard
  split
  · rename_i hok
    exact ⟨hok, b, hd⟩
  · trivial

/-- What follows a decode of the oldest stored bytes is coherent. -/
theorem RxCoherent.afterDecode (hd : IsDecodeOf t.cfg d b) (hb : b <+: t.storedBytes) (src : Addr) (buffer : Bytes) :
    RxCoherent ((RxPhase.decode src buffer).after d) t := by
  change RxCoherent (if d.consumed = 0 then rxAfterDiscard src d else .discard src d) t
  split
  · exact .afterDiscard hd src
  · exact ⟨b, hb, hd⟩

/-- Each command of RX_STEP gives the Consumer a result that is true of the buffer. -/
theorem RxCoherent.after (h : RxCoherent p s) (hs : RingInv s) (hi : s.rbInited = true) (hp : p.instr s.cfg = some i)
    (he : exec i s = .next t) : RxCoherent (p.after t.lastResult) t := by
  cases p with
  | size src =>
    obtain rfl := Option.some.inj hp
    obtain rfl := Host.Outcome.next.inj ((exec_rbSize hi).symm.trans he)
    rw [State.lastResult_record]
    exact (toNat_size (hs.dataSize_lt hi)).le
  | peek src n =>
    obtain rfl := Option.some.inj hp
    obtain rfl := Host.Outcome.next.inj ((exec_rbPeek hi h).symm.trans he)
    rw [State.lastResult_record]
    exact List.take_prefix _ _
  | decode src buffer =>
    obtain rfl := Option.some.inj hp
    obtain rfl := Host.Outcome.next.inj ((exec_fcDecode buffer s).symm.trans he)
    rw [State.lastResult_record]
    have hshort : buffer.length < 65536 := by
      have hle := List.IsPrefix.length_le h
      rw [State.storedBytes_length] at hle
      exact hle.trans_lt (hs.dataSize_lt hi)
    exact .afterDecode (fcDecode_isDecodeOf hshort) h src buffer
  | discard src d =>
    obtain rfl := Option.some.inj hp
    obtain ⟨b, -, hd⟩ := h
    have hcfg : t.cfg = s.cfg := by
      rcases exec_rbPop_cases hi he with rfl | ⟨-, rfl⟩
      · rfl
      · rfl
    rw [← hcfg] at hd
    exact .afterDiscard hd src
  | handOver src d => trivial
  | done => cases hp

/-! Other agents' commands between. -/

/-- The stored bytes are a function of the ring buffer's registers and storage. -/
theorem State.storedBytes_congr (hc : t.rbCap = s.rbCap) (hb : t.rbBegin = s.rbBegin) (he : t.rbEnd = s.rbEnd)
    (hst : t.rbStorage = s.rbStorage) : t.storedBytes = s.storedBytes := by
  simp only [State.storedBytes, State.frontBytes, State.dataSize, State.slot, State.rbRead, hc, hb, he, hst]

/-- A command that may come between the Consumer's: it neither removes stored bytes nor sets the buffer up anew (R572). -/
structure MayInterleave (i : Instr) : Prop where
  notClear : i ≠ .rbClear
  notInit : ∀ cap, i ≠ .rbInit cap
  notPop : ∀ n copy, i ≠ .rbPop n copy

/-- Of the ring-buffer commands only a push that fits writes, among those that may come between. -/
theorem MayInterleave.ring_cases (hm : MayInterleave i) (hring : isRing i = true) (hi : s.rbInited = true)
    (h : exec i s = .next t) :
    (∃ r, t = s.record r) ∨ ∃ data, data.length ≤ s.freeSpace ∧ t = (s.pushBytes data).record { st := .ok } := by
  cases i
  case rbInit cap => exact absurd rfl (hm.notInit cap)
  case rbClear => exact absurd rfl hm.notClear
  case rbPop n copy => exact absurd rfl (hm.notPop n copy)
  case rbFree => exact .inl ⟨_, Host.Outcome.next.inj (h.symm.trans (exec_rbFree hi))⟩
  case rbSize => exact .inl ⟨_, Host.Outcome.next.inj (h.symm.trans (exec_rbSize hi))⟩
  case rbPeek n =>
    obtain ⟨r, hr⟩ := exec_rbPeek_writes_nothing hi n
    exact .inl ⟨r, Host.Outcome.next.inj (h.symm.trans hr)⟩
  case rbPush data =>
    rcases exec_rbPush_cases hi h with rfl | ⟨hle, rfl⟩
    · exact .inl ⟨_, rfl⟩
    · exact .inr ⟨data, hle, rfl⟩
  all_goals cases hring

/-- A command that may come between only adds to the stored bytes, unless it resets the node. -/
theorem MayInterleave.storedBytes_prefix (hm : MayInterleave i) (hs : Inv s) (hi : s.rbInited = true)
    (ht : t.rbInited = true) (hw : i.wellFormed s.cfg = true) (h : exec i s = .next t) :
    s.storedBytes <+: t.storedBytes := by
  cases hring : isRing i with
  | true =>
    rcases hm.ring_cases hring hi h with ⟨r, rfl⟩ | ⟨data, hle, rfl⟩
    · exact List.prefix_rfl
    · exact ⟨data, (State.pushBytes_storedBytes hs.ring hi hle).symm⟩
  | false =>
    rcases (exec_cases hs.cfg hw h).ringKept hring with ⟨-, hcap, hbegin, hend, hstorage⟩ | hreset
    · exact (State.storedBytes_congr hcap hbegin hend hstorage).symm ▸ List.prefix_rfl
    · exact absurd (ht.symm.trans hreset) nofun

/-- An instruction keeps the parameters. -/
theorem Ran.cfg (h : Ran s i t) : t.cfg = s.cfg := by
  rcases h.units with ⟨hc, -⟩ | ⟨hc, -⟩
  · exact hc
  · exact hc

end Sys2Proof.Machine

open Sys2Proof Sys2Proof.Machine

/-- Settles O56: alone by `rxStep_eq` and `rxDiscard_eq`; command by command by `RxCoherent.after`, and for the other agents
by `RxCoherent.of_prefix`, since their commands only add to the stored bytes. -/
theorem rxStepDiscardsTheConsumedSpan : Obligations.RxStepDiscardsTheConsumedSpan := by
  refine ⟨fun s src hs hi => ?_, fun s t p hs hi hp ht => ⟨fun i => hp.after hs.ring hi, ?_⟩, ?_⟩
  · have hshort : s.storedBytes.length < 65536 := s.storedBytes_length ▸ hs.dataSize_lt hi
    have hdecode : IsDecodeOf s.cfg (decodeResult s.cfg s.storedBytes) s.storedBytes := fcDecode_isDecodeOf hshort
    obtain ⟨u, hbytes, hu, hframe, hstep⟩ := rxStep_eq hs hi src
    have hcfg : u.cfg = s.cfg := by rw [hframe]
    have hinit : u.rbInited = true := by rw [hframe]; exact hi
    obtain ⟨t, hdrop, ht, hframe', hdiscard⟩ := rxDiscard_eq hu hinit (by rw [hcfg, hbytes]; exact hdecode) src
    refine ⟨t, ?_, ht, ?_, ?_⟩
    · rw [hdrop, hbytes, hdecode.consumed]
    · rw [hframe', hframe]
    · rw [hstep, hdiscard, rxHandOver_decodeResult (by rw [hframe', hcfg]) hshort]
  · intro i hw hclear hinit hpop he
    exact hp.of_prefix (exec_cases hs.cfg hw he).cfg
      (MayInterleave.storedBytes_prefix ⟨hclear, hinit, hpop⟩ hs hi ht hw he)
  · intro s src d b hs hi hb hd
    have hle := hd.consumed_le hb
    refine ⟨rfl, _, exec_rbPop hi hle, ?_⟩
    rw [State.record_storedBytes, State.popBytes_storedBytes hs hi hle, ← hd.consumed,
      take_of_prefix hb hd.consumed_le_length, List.take_append_drop]
end

section
/-! What the ring-buffer commands answer (spec/40_ring_buffer.md R200-R207), and the unbounded queue they refine (R211). -/

namespace Sys2Proof.Machine

variable {s u : State} {i : Instr} {r : Result} {cap n : U16} {data : Bytes}

/-! The commands, one equation a branch. Those of RX_STEP that succeed are `exec_rbSize`, `exec_rbFree` and `exec_rbPeek`. -/

theorem rbGuard_uninit (h : s.rbInited = false) (body : Answer) : rbGuard s body = .next (s.record { st := .uninit }) :=
  if_neg (by simp [h])

theorem otaGuard_unbooted (h : s.otaBooted = false) (body : Answer) :
    otaGuard s body = .next (s.record { st := .uninit }) :=
  if_neg (by simp [h])

theorem capacityLegal_iff {c : Config} : capacityLegal c cap = true ↔ 1 ≤ cap.toNat ∧ cap.toNat ≤ c.rbNmax :=
  decide_eq_true_iff

theorem exec_rbInit_legal (h : capacityLegal s.cfg cap = true) :
    exec (.rbInit cap) s = .next ((s.initRing cap).record { st := .ok }) :=
  if_pos h

theorem exec_rbInit_illegal (h : ¬ capacityLegal s.cfg cap = true) :
    exec (.rbInit cap) s = .next (s.record { st := .illegal }) :=
  if_neg h

theorem exec_rbClear (hi : s.rbInited = true) :
    exec .rbClear s = .next ((s.setIndices 0 0).record { st := .ok }) :=
  if_pos hi

theorem exec_rbPush_fits (hi : s.rbInited = true) (hd : data.length ≤ s.freeSpace) :
    exec (.rbPush data) s = .next ((s.pushBytes data).record { st := .ok }) :=
  (if_pos hi).trans (if_neg (not_lt.2 hd))

theorem exec_rbPush_dropped (hi : s.rbInited = true) (hd : s.freeSpace < data.length) :
    exec (.rbPush data) s = .next (s.record { st := .dropped }) :=
  (if_pos hi).trans (if_pos hd)

/-- A pop for either COPY; `exec_rbPop` is the one of COPY = 0. -/
theorem exec_rbPop_stored (hi : s.rbInited = true) (hn : n.toNat ≤ s.dataSize) (copy : Bool) :
    exec (.rbPop n copy) s = .next ((s.popBytes n.toNat).record
      { st := .ok, dout := if copy then s.storedBytes.take n.toNat else [] }) := by
  rw [← State.frontBytes_eq_take hn]
  exact (if_pos hi).trans (if_neg (not_lt.2 hn))

theorem exec_rbPop_dropped (hi : s.rbInited = true) (hn : s.dataSize < n.toNat) (copy : Bool) :
    exec (.rbPop n copy) s = .next (s.record { st := .dropped }) :=
  (if_pos hi).trans (if_pos hn)

theorem exec_rbPeek_dropped (hi : s.rbInited = true) (hn : s.dataSize < n.toNat) :
    exec (.rbPeek n) s = .next (s.record { st := .dropped }) :=
  (if_pos hi).trans (if_pos hn)

/-! Before RB_INIT and before OTA_BOOT. -/

theorem exec_ring_uninit (h : s.rbInited = false) (hring : isRing i = true) (hinit : ∀ cap, i ≠ .rbInit cap) :
    exec i s = .next (s.record { st := .uninit }) := by
  cases i
  case rbInit cap => exact absurd rfl (hinit cap)
  case rbClear | rbFree | rbSize | rbPush | rbPop | rbPeek => exact rbGuard_uninit h _
  all_goals cases hring

theorem exec_ota_unbooted (h : s.otaBooted = false) (hboot : needsBoot i = true) :
    exec i s = .next (s.record { st := .uninit }) := by
  cases i
  case rbInit | rbClear | rbFree | rbSize | rbPush | rbPop | rbPeek | fcEncode | fcDecode | fcCksum | fcParse | otaBoot =>
    cases hboot
  all_goals exact otaGuard_unbooted h _

/-! Each command as a step of the reference queue. -/

/-- The command completes, keeps an initialised buffer in range, and takes the queue it stands for, with the result, where
the reference queue goes. -/
def RefinesQueue (s : State) (i : Instr) : Prop :=
  ∃ t, exec i s = .next t ∧ RingInv t ∧ t.rbInited = true ∧ t.cfg = s.cfg ∧
    t.refQueue = (s.refQueue.step i).1 ∧ t.outputs = s.outputs ++ [(s.refQueue.step i).2]

/-- The commuting square, for a command that writes `u` and answers `r`. -/
theorem RefinesQueue.of_exec (he : exec i s = .next (u.record r)) (hu : RingInv u) (hi : u.rbInited = true)
    (hc : u.cfg = s.cfg) (ho : u.outputs = s.outputs) (hq : s.refQueue.step i = (u.refQueue, r)) : RefinesQueue s i :=
  ⟨u.record r, he, hu.record r, hi, hc, by rw [hq]; rfl, by rw [hq, State.record_outputs, ho]⟩

/-- R34 for the queue: what it has left is `free_space`. -/
theorem State.refQueue_free (s : State) : s.refQueue.cap - 1 - s.refQueue.bytes.length = s.freeSpace := by
  simp [State.refQueue, State.freeSpace]

theorem State.refQueue_length (s : State) : s.refQueue.bytes.length = s.dataSize := s.storedBytes_length

section Commands

variable (hs : RingInv s) (hi : s.rbInited = true)
include hs

theorem RefinesQueue.rbInit (h : capacityLegal s.cfg cap = true) : RefinesQueue s (.rbInit cap) := by
  have hempty : (s.initRing cap).storedBytes = [] := State.storedBytes_of_empty rfl
  refine .of_exec (exec_rbInit_legal h) (hs.initRing h) rfl rfl rfl ?_
  simp [RefQueue.step, State.refQueue, hempty]

include hi

theorem RefinesQueue.rbClear : RefinesQueue s .rbClear := by
  have hempty : (s.setIndices 0 0).storedBytes = [] := State.storedBytes_of_empty rfl
  refine .of_exec (exec_rbClear hi) hs.setIndices_zero hi rfl rfl ?_
  simp [RefQueue.step, State.refQueue, hempty]

theorem RefinesQueue.rbFree : RefinesQueue s .rbFree := by
  refine .of_exec (exec_rbFree hi) hs hi rfl rfl ?_
  rw [RefQueue.step, State.refQueue_free]

theorem RefinesQueue.rbSize : RefinesQueue s .rbSize := by
  refine .of_exec (exec_rbSize hi) hs hi rfl rfl ?_
  rw [RefQueue.step, State.refQueue_length]

theorem RefinesQueue.rbPush (data : Bytes) : RefinesQueue s (.rbPush data) := by
  rcases Nat.lt_or_ge s.freeSpace data.length with hlt | hle
  · refine .of_exec (exec_rbPush_dropped hi hlt) hs hi rfl rfl ?_
    rw [RefQueue.step, State.refQueue_free, if_neg (not_le.2 hlt)]
  · refine .of_exec (exec_rbPush_fits hi hle) (hs.pushBytes data) hi rfl rfl ?_
    rw [RefQueue.step, State.refQueue_free, if_pos hle]
    simp only [State.refQueue, State.pushBytes_storedBytes hs hi hle, State.pushBytes_rbCap]

theorem RefinesQueue.rbPop (n : U16) (copy : Bool) : RefinesQueue s (.rbPop n copy) := by
  rcases Nat.lt_or_ge s.dataSize n.toNat with hlt | hle
  · refine .of_exec (exec_rbPop_dropped hi hlt copy) hs hi rfl rfl ?_
    rw [RefQueue.step, State.refQueue_length, if_neg (not_le.2 hlt)]
  · refine .of_exec (exec_rbPop_stored hi hle copy) (hs.popBytes n.toNat) hi rfl rfl ?_
    rw [RefQueue.step, State.refQueue_length, if_pos hle]
    simp only [State.refQueue, State.popBytes_storedBytes hs hi hle, State.popBytes_rbCap]

theorem RefinesQueue.rbPeek (n : U16) : RefinesQueue s (.rbPeek n) := by
  rcases Nat.lt_or_ge s.dataSize n.toNat with hlt | hle
  · refine .of_exec (exec_rbPeek_dropped hi hlt) hs hi rfl rfl ?_
    rw [RefQueue.step, State.refQueue_length, if_neg (not_le.2 hlt)]
  · refine .of_exec (exec_rbPeek hi hle) hs hi rfl rfl ?_
    rw [RefQueue.step, State.refQueue_length, if_pos hle]
    rfl

end Commands

end Sys2Proof.Machine

open Sys2Proof Sys2Proof.Machine

/-- Settles O24: the commuting square of each ring-buffer command. -/
theorem ringRefinesReferenceQueue : Obligations.RingRefinesReferenceQueue := by
  intro s i hs hi hring hw
  cases i
  case rbInit cap => exact RefinesQueue.rbInit hs hw
  case rbClear => exact RefinesQueue.rbClear hs hi
  case rbFree => exact RefinesQueue.rbFree hs hi
  case rbSize => exact RefinesQueue.rbSize hs hi
  case rbPush data => exact RefinesQueue.rbPush hs hi data
  case rbPop n copy => exact RefinesQueue.rbPop hs hi n copy
  case rbPeek n => exact RefinesQueue.rbPeek hs hi n
  all_goals cases hring

/-- Settles O22: a push that fits is `pushBytes`, whose slots are those of `rbWriteBytes`. -/
theorem rbPushStoresAtTheEnd : Obligations.RbPushStoresAtTheEnd := by
  intro s data hs hi
  refine ⟨fun hd => ⟨_, exec_rbPush_fits hi hd, rfl, fun i => ?_, fun k => rbWriteBytes_other, rfl⟩, exec_rbPush_dropped hi⟩
  obtain ⟨-, -, hstorage⟩ := hs.bounds hi
  have hcount := hs.conservation hi
  exact rbWriteBytes_written (by omega) hstorage

/-- Settles O23: both read the front of the stored bytes, and only the pop moves the begin. -/
theorem rbPopPeekReadTheFront : Obligations.RbPopPeekReadTheFront := by
  intro s n copy _ hi
  exact ⟨fun hn => ⟨exec_rbPop_stored hi hn copy, exec_rbPeek hi hn⟩,
    fun hn => ⟨exec_rbPop_dropped hi hn copy, exec_rbPeek_dropped hi hn⟩⟩

/-- Settles O19: the two branches of RB_INIT. -/
theorem rbInitSetsCapacity : Obligations.RbInitSetsCapacity := fun _ _ =>
  ⟨fun h => exec_rbInit_legal (capacityLegal_iff.2 h), fun h => exec_rbInit_illegal (mt capacityLegal_iff.1 h)⟩

/-- Settles O20: past the guard each command is one equation. -/
theorem rbClearFreeSizeResults : Obligations.RbClearFreeSizeResults := fun _ hi =>
  ⟨exec_rbClear hi, exec_rbFree hi, exec_rbSize hi⟩

/-- Settles O34: the guard of each unit comes before all else. -/
theorem uninitialisedUnitsAnswerUninit : Obligations.UninitialisedUnitsAnswerUninit := fun _ _ =>
  ⟨exec_ring_uninit, exec_ota_unbooted⟩
end

section
/-! What FC_DECODE answers (spec/41_frame_codec.md R252), and what follows for an encoded frame (R260, R261) and for a buffer
that more bytes are appended to (R262, R263). -/

namespace Sys2Proof.Machine

variable {s : State} {c : Config} {b noise rest after p : Bytes} {t lo hi k : Byte} {st : Status} {n : Nat}

/-- No type: RES is `bytes_consumed` alone (R252). -/
theorem frameRes_zero (n : Nat) : frameRes n 0 = BitVec.ofNat 32 n := by
  simp [frameRes]

/-- A decode that reports no type and no payload. -/
theorem exec_fcDecode_bare (h : decodeFrame s.cfg b = .bare st n) :
    exec (.fcDecode b) s = .next (s.record { st := st, res := BitVec.ofNat 32 n }) := by
  rw [exec_fcDecode, decodeResult, h, ← frameRes_zero]
  rfl

/-- The byte after a string. -/
theorem byteAt_append_length (b rest : Bytes) (k : Byte) : byteAt (b ++ k :: rest) b.length = k :=
  byteAt_append_right b (k :: rest) 0

/-! The lines of R252 from the first marker on. -/

theorem decodeFrame_short (hn : ∀ x ∈ noise, x ≠ c.startMarker) (hr : rest.length < 3) :
    decodeFrame c (noise ++ c.startMarker :: rest) = .bare .incomplete noise.length :=
  (decodeFrame_marker hn).trans (decodeAt_short hr)

theorem decodeFrame_invalid (hn : ∀ x ∈ noise, x ≠ c.startMarker) (hl : c.mtu < lo.toNat + 256 * hi.toNat) :
    decodeFrame c (noise ++ c.startMarker :: t :: lo :: hi :: rest) = .bare .invalid (noise.length + 1) := by
  rw [decodeFrame_marker hn, decodeAt_header, if_pos hl]

theorem decodeFrame_partial (hn : ∀ x ∈ noise, x ≠ c.startMarker) (hl : lo.toNat + 256 * hi.toNat ≤ c.mtu)
    (hr : rest.length < lo.toNat + 256 * hi.toNat + 1) :
    decodeFrame c (noise ++ c.startMarker :: t :: lo :: hi :: rest) = .bare .incomplete noise.length := by
  rw [decodeFrame_marker hn, decodeAt_header, if_neg (not_lt.2 hl), if_pos hr]

/-- A whole frame after noise: only the checksum is left to decide. -/
theorem decodeFrame_whole (hn : ∀ x ∈ noise, x ≠ c.startMarker) (hl : p.length = lo.toNat + 256 * hi.toNat)
    (hm : p.length ≤ c.mtu) :
    decodeFrame c (noise ++ c.startMarker :: t :: lo :: hi :: (p ++ k :: after)) =
      if cksum (t :: lo :: hi :: p) = k then
        { st := .ok, consumed := noise.length + 5 + p.length, type := t, payload := p }
      else { st := .cksumBad, consumed := noise.length + 5 + p.length, type := t, payload := [] } := by
  rw [decodeFrame_marker hn, decodeAt_header, ← hl, if_neg (not_lt.2 hm), if_neg (by simp),
    byteAt_append_length, List.take_left]

theorem exec_fcDecode_ok (hn : ∀ x ∈ noise, x ≠ s.cfg.startMarker) (hl : p.length = lo.toNat + 256 * hi.toNat)
    (hm : p.length ≤ s.cfg.mtu) (hk : cksum (t :: lo :: hi :: p) = k) :
    exec (.fcDecode (noise ++ s.cfg.startMarker :: t :: lo :: hi :: (p ++ k :: after))) s =
      .next (s.record { st := .ok, res := frameRes (noise.length + 5 + p.length) t, dout := p }) := by
  rw [exec_fcDecode, decodeResult, decodeFrame_whole hn hl hm, if_pos hk]
  rfl

theorem exec_fcDecode_cksumBad (hn : ∀ x ∈ noise, x ≠ s.cfg.startMarker) (hl : p.length = lo.toNat + 256 * hi.toNat)
    (hm : p.length ≤ s.cfg.mtu) (hk : cksum (t :: lo :: hi :: p) ≠ k) :
    exec (.fcDecode (noise ++ s.cfg.startMarker :: t :: lo :: hi :: (p ++ k :: after))) s =
      .next (s.record { st := .cksumBad, res := frameRes (noise.length + 5 + p.length) t }) := by
  rw [exec_fcDecode, decodeResult, decodeFrame_whole hn hl hm, if_neg hk]
  rfl

/-- The checksum of a received frame, as a sum of numbers (R132, R250). -/
theorem cksum_header (t lo hi : Byte) (p : Bytes) :
    cksum (t :: lo :: hi :: p) = BitVec.ofNat 8 (t.toNat + lo.toNat + hi.toNat + (p.map BitVec.toNat).sum) := by
  rw [cksum_eq_sum]
  simp [Nat.add_assoc]

/-! One flipped bit (R261). -/

/-- Flipping a bit of a byte changes it. -/
theorem xor_twoPow_ne {k : Nat} (hk : k < 8) (x : Byte) : x ^^^ BitVec.twoPow 8 k ≠ x := by
  intro h
  have hbit := congrArg (·.getLsbD k) h
  simp [hk] at hbit

/-- The checksum tells apart two strings that differ in one byte. -/
theorem byteAt_eq_of_cksum_set {v : Byte} {i : Nat} (hlt : i < p.length) (h : cksum (p.set i v) = cksum p) :
    v = byteAt p i := by
  induction p generalizing i with
  | nil => cases hlt
  | cons x xs ih =>
    cases i with
    | zero => exact (BitVec.add_left_inj (cksum xs)).1 h
    | succ i => exact ih (Nat.lt_of_succ_lt_succ hlt) ((BitVec.add_right_inj x).1 h)

theorem cksum_flip_ne {i k : Nat} (hlt : i < p.length) (hk : k < 8) :
    cksum (p.set i (byteAt p i ^^^ BitVec.twoPow 8 k)) ≠ cksum p :=
  fun h => xor_twoPow_ne hk _ (byteAt_eq_of_cksum_set hlt h)

/-- A whole frame alone, whose checksum fails, is consumed whole. -/
theorem exec_fcDecode_alone_cksumBad {q : Bytes} (hq : q.length = p.length) (hl : p.length = lo.toNat + 256 * hi.toNat)
    (hm : p.length ≤ s.cfg.mtu) (hk : cksum (t :: lo :: hi :: q) ≠ k) :
    exec (.fcDecode (s.cfg.startMarker :: t :: lo :: hi :: (q ++ [k]))) s =
      .next (s.record { st := .cksumBad, res := frameRes (p.length + 5) t }) := by
  have h := exec_fcDecode_cksumBad (noise := []) (after := []) (by simp) (hq.trans hl) (hq ▸ hm) hk
  rwa [hq, List.length_nil, Nat.zero_add, Nat.add_comm] at h

/-- A flip of the type byte or of a payload byte changes the checksum of the body, one of the checksum byte what it is held
against; the marker and the length stand. -/
theorem exec_fcDecode_flipped {j k : Nat} (hl : p.length = lo.toNat + 256 * hi.toNat) (hm : p.length ≤ s.cfg.mtu)
    (hk : k < 8) (hj : j = 1 ∨ (4 ≤ j ∧ j ≤ p.length + 4)) :
    let f := s.cfg.startMarker :: t :: lo :: hi :: (p ++ [cksum (t :: lo :: hi :: p)])
    let b := f.set j (byteAt f j ^^^ BitVec.twoPow 8 k)
    exec (.fcDecode b) s = .next (s.record { st := .cksumBad, res := frameRes (p.length + 5) (byteAt b 1) }) := by
  intro f b
  obtain rfl | ⟨i, hle, rfl⟩ : j = 1 ∨ ∃ i ≤ p.length, j = i + 4 := hj.imp_right fun h => ⟨j - 4, by omega, by omega⟩
  · exact exec_fcDecode_alone_cksumBad rfl hl hm (cksum_flip_ne (p := t :: _ :: _ :: p) (i := 0) (by simp) hk)
  · rcases hle.lt_or_eq with hlt | rfl
    · have hb : b = s.cfg.startMarker :: t :: lo :: hi ::
          (p.set i (byteAt p i ^^^ BitVec.twoPow 8 k) ++ [cksum (t :: lo :: hi :: p)]) := by
        simp only [b, f, byteAt_cons_succ, List.set_cons_succ, byteAt_append_left hlt, List.set_append_left _ _ hlt]
      rw [hb]
      exact exec_fcDecode_alone_cksumBad List.length_set hl hm
        (cksum_flip_ne (p := t :: lo :: hi :: p) (i := i + 3) (by simpa using hlt) hk)
    · have hb : b = s.cfg.startMarker :: t :: lo :: hi ::
          (p ++ [cksum (t :: lo :: hi :: p) ^^^ BitVec.twoPow 8 k]) := by
        simp [b, f, byteAt_append_length]
      rw [hb]
      exact exec_fcDecode_alone_cksumBad rfl hl hm (xor_twoPow_ne hk _).symm

/-! Progress (R262, R263). -/

/-- From its first marker on, a buffer waits for more bytes and keeps the marker, or consumes at least the marker. -/
theorem decodeAt_cases (c : Config) (b : Bytes) (n : Nat) :
    decodeAt c b n = .bare .incomplete n ∨
      ((decodeAt c b n).st ≠ .incomplete ∧ n + 1 ≤ (decodeAt c b n).consumed) := by
  unfold decodeAt
  have hle (m : Nat) : n + 1 ≤ n + 5 + m := by omega
  dsimp only
  split_ifs
  · exact .inl rfl
  · exact .inr ⟨nofun, le_rfl⟩
  · exact .inl rfl
  · exact .inr ⟨nofun, hle _⟩
  · exact .inr ⟨nofun, hle _⟩

/-- Dropping the noise does not change the outcome. -/
theorem decodeAt_st_noise (c : Config) (noise rest : Bytes) :
    (decodeAt c (noise ++ c.startMarker :: rest) noise.length).st = (decodeAt c (c.startMarker :: rest) 0).st := by
  match rest with
  | t :: lo :: hi :: rest =>
    have h := decodeAt_header (c := c) (noise := []) (rest := rest) (t := t) (lo := lo) (hi := hi)
    rw [List.nil_append, List.length_nil] at h
    rw [decodeAt_header, h]
    split_ifs <;> rfl
  | [] | [_] | [_, _] =>
    exact (congrArg Decoded.st (decodeAt_short (by simp))).trans
      (congrArg Decoded.st (decodeAt_short (noise := []) (by simp))).symm

/-- A buffer that starts with the marker is decoded from there. -/
theorem decodeFrame_marker_first (c : Config) (rest : Bytes) :
    decodeFrame c (c.startMarker :: rest) = decodeAt c (c.startMarker :: rest) 0 :=
  decodeFrame_marker (noise := []) (by simp)

/-- A buffer in which more bytes are awaited is noise alone, or noise and then a marker from which more are awaited. -/
theorem incomplete_cases (h : (decodeFrame c b).st = .incomplete) :
    ((∀ x ∈ b, x ≠ c.startMarker) ∧ (decodeFrame c b).consumed = b.length) ∨
      ∃ noise rest, b = noise ++ c.startMarker :: rest ∧ (∀ x ∈ noise, x ≠ c.startMarker) ∧
        (decodeFrame c b).consumed = noise.length ∧
        decodeFrame c (c.startMarker :: rest) = .bare .incomplete 0 := by
  rcases noise_cases c b with hn | ⟨noise, rest, rfl, hn⟩
  · exact .inl ⟨hn, by rw [decodeFrame_noise hn]; rfl⟩
  · rw [decodeFrame_marker hn] at h ⊢
    refine .inr ⟨noise, rest, rfl, hn, ?_, ?_⟩
    · rcases decodeAt_cases c (noise ++ c.startMarker :: rest) noise.length with he | ⟨hne, -⟩
      · rw [he]; rfl
      · exact absurd h hne
    · rw [decodeFrame_marker_first]
      rcases decodeAt_cases c (c.startMarker :: rest) 0 with he | ⟨hne, -⟩
      · exact he
      · exact absurd ((decodeAt_st_noise c noise rest).symm.trans h) hne

/-- R262: whatever is not INCOMPLETE consumes a byte. -/
theorem decodeFrame_progress (h : (decodeFrame c b).st ≠ .incomplete) : 1 ≤ (decodeFrame c b).consumed := by
  rcases noise_cases c b with hn | ⟨noise, rest, rfl, hn⟩
  · exact absurd (by rw [decodeFrame_noise hn]; rfl) h
  · rw [decodeFrame_marker hn] at h ⊢
    rcases decodeAt_cases c (noise ++ c.startMarker :: rest) noise.length with he | ⟨-, hle⟩
    · exact absurd (by rw [he]; rfl) h
    · exact (Nat.le_add_left 1 _).trans hle

/-- A byte of a string that lacks `x` is not `x`. -/
theorem byteAt_ne {x : Byte} (h : ∀ y ∈ b, y ≠ x) {i : Nat} (hlt : i < b.length) : byteAt b i ≠ x := by
  rw [byteAt, List.getD_eq_getElem _ _ hlt]
  exact h _ (List.getElem_mem hlt)

end Sys2Proof.Machine

open Sys2Proof Sys2Proof.Machine

/-- Settles O28: the lemma of each line. -/
theorem fcDecodeFollowsItsLines : Obligations.FcDecodeFollowsItsLines := by
  intro s b
  refine ⟨fun h => exec_fcDecode_bare (decodeFrame_noise h), fun noise rest t lo hi hn => ⟨?_, ?_⟩⟩
  · rintro rfl hr
    exact exec_fcDecode_bare (decodeFrame_short hn hr)
  · rintro rfl
    refine ⟨fun hl => exec_fcDecode_bare (decodeFrame_invalid hn hl),
      fun hl hr => exec_fcDecode_bare (decodeFrame_partial hn hl hr), ?_⟩
    rintro p after k rfl hl hm
    rw [← cksum_header]
    exact ⟨fun hk => exec_fcDecode_ok hn hl hm hk.symm, fun hk => exec_fcDecode_cksumBad hn hl hm hk.symm⟩

/-- Settles O29: `decodeFrame_encodeFrame`. -/
theorem decodeOfEncodedFrame : Obligations.DecodeOfEncodedFrame := by
  intro s t p after hc hp
  rw [exec_fcDecode, decodeResult, decodeFrame_encodeFrame hc t hp]
  rfl

/-- Settles O30: the flipped byte is on one side of the checksum's test alone. -/
theorem singleBitFlipsAreCaught : Obligations.SingleBitFlipsAreCaught := by
  intro s t p j k hc hp hk hj
  have hm := hc.mtu_le
  have hl : p.length = (BitVec.ofNat 8 p.length).toNat + 256 * (BitVec.ofNat 8 (p.length / 256)).toNat := by
    simp
    omega
  rw [encodeFrame_eq]
  exact exec_fcDecode_flipped hl hp hk hj

/-- Settles O31: `decodeFrame_progress` and `incomplete_cases`. -/
theorem decodeMakesProgress : Obligations.DecodeMakesProgress := by
  intro s b
  refine ⟨exec_fcDecode b s, decodeFrame_consumed_le _ b, decodeFrame_progress, fun h => ?_⟩
  rcases incomplete_cases h with ⟨hn, hcons⟩ | ⟨noise, rest, rfl, hn, hcons, hrest⟩
  · rw [hcons, List.drop_length]
    exact ⟨fun i => byteAt_ne hn, .inl rfl, exec_fcDecode_bare (decodeFrame_noise (by simp)),
      fun _ hlt => absurd hlt (lt_irrefl _)⟩
  · rw [hcons, List.drop_left]
    refine ⟨fun i hlt => ?_, .inr (byteAt_append_length noise rest _), exec_fcDecode_bare hrest,
      fun e _ => ⟨rfl, decodeFrame_marker_first s.cfg (rest ++ e)⟩⟩
    rw [byteAt_append_left hlt]
    exact byteAt_ne hn hlt
end

section
/-! What FC_CKSUM and FC_PARSE answer (spec/41_frame_codec.md R250, R253, R254). -/

namespace Sys2Proof.Machine

variable {s : State} {k : Tag} {t : Byte} {p : Bytes} {m : Msg}

theorem exec_fcCksum (data : Bytes) (s : State) : exec (.fcCksum data) s =
    .next (s.record { st := .ok, res := (cksum data).zeroExtend 32 }) := rfl

/-- A sum kept in a byte, read as RES. -/
theorem zeroExtend_ofNat (n : Nat) : (BitVec.ofNat 8 n).zeroExtend 32 = BitVec.ofNat 32 (n % 256) :=
  BitVec.eq_of_toNat_eq (by simp)

/-! FC_PARSE, one equation for each answer of the parser. -/

theorem exec_fcParse_message (h : parseMsg s.cfg t p = .message m) :
    exec (.fcParse t p) s = .next (s.record { st := .ok, msg := some m }) := by
  change execFcParse t p s = _
  rw [execFcParse, h]
  rfl

theorem exec_fcParse_malformed (hc : s.cfg.Valid) (h : parsePayload k p = none) :
    exec (.fcParse (s.cfg.tagByte k) p) s = .next (s.record { st := .malformed }) := by
  change execFcParse (s.cfg.tagByte k) p s = _
  rw [execFcParse, parseMsg_tag_malformed hc h]
  rfl

theorem exec_fcParse_other (h : ∀ k, s.cfg.tagByte k ≠ t) :
    exec (.fcParse t p) s = .next (s.record { st := .other }) := by
  change execFcParse t p s = _
  rw [execFcParse, parseMsg_other h]
  rfl

/-! The payloads that are no message of a kind (R141-R147). -/

theorem parsePayload_notify_none (h : p.length ≠ 6) : parsePayload .notify p = none := if_neg h

theorem parsePayload_blockReq_none (h : p.length ≠ 4) : parsePayload .blockReq p = none := if_neg h

theorem parsePayload_blockResp_none (h : p.length < 10 ∨ p.length ≠ 10 + (rd16 p 4).toNat) :
    parsePayload .blockResp p = none := by
  by_cases hshort : p.length < 10
  · exact if_pos hshort
  · exact (if_neg hshort).trans (if_neg (h.resolve_left hshort))

theorem parsePayload_statusResp_none (h : p.length ≠ 6 ∨ 1 < (byteAt p 0).toNat) :
    parsePayload .statusResp p = none :=
  if_neg (by omega)

/-- The five messages without a payload (R144-R146). -/
theorem parsePayload_empty_none (hk : k ∈ [Tag.abortReq, .abortResp, .upgReq, .upgResp, .statusReq]) (hp : p ≠ []) :
    parsePayload k p = none := by
  have hlen : ¬ p.length = 0 := mt List.length_eq_zero_iff.1 hp
  simp only [List.mem_cons, List.not_mem_nil, or_false] at hk
  rcases hk with rfl | rfl | rfl | rfl | rfl <;> exact if_neg hlen

end Sys2Proof.Machine

open Sys2Proof Sys2Proof.Machine

/-- Settles O33: the parser reads each legal message, and refuses the payloads of no message of their kind. -/
theorem fcParseReadsMessages : Obligations.FcParseReadsMessages := by
  intro s hc
  exact ⟨fun m hm => exec_fcParse_message (parseMsg_payload hc hm), fun p =>
    ⟨fun h => exec_fcParse_malformed hc (parsePayload_notify_none h),
      fun h => exec_fcParse_malformed hc (parsePayload_blockReq_none h),
      fun h => exec_fcParse_malformed hc (parsePayload_blockResp_none h),
      fun hp k hk => exec_fcParse_malformed hc (parsePayload_empty_none hk hp),
      fun h => exec_fcParse_malformed hc (parsePayload_statusResp_none h),
      fun t => exec_fcParse_other⟩⟩

/-- Settles O32: `cksum_eq_sum`, widened to RES. -/
theorem fcCksumSumsTheBytes : Obligations.FcCksumSumsTheBytes := by
  intro s data
  rw [exec_fcCksum, cksum_eq_sum, zeroExtend_ofNat]
end

section
/-! The rules of both halves of the OTA sequencer (spec/42_ota_common.md): the cells of R306's table where a role ignores a
message, what OTA_RX answers for a frame that carries no message (R307), and OTA_BOOT (R320). -/

namespace Sys2Proof.Machine

variable {s : State} {t : Byte} {p : Bytes} {m : Msg} {r : OtaRecord}

/-! The column of the server and the column of the client in R306's table. -/

theorem dispatchMsg_ignored_at_server (hr : s.ota.role = .server)
    (hm : m.tag ∈ [Tag.notify, .blockResp, .upgResp, .statusReq]) (src : Addr) : dispatchMsg src m s = ignored s := by
  cases m
  case notify | blockResponse | upgradeResponse | statusRequest => exact byRole_server hr _ _
  all_goals simp [Msg.tag] at hm

theorem dispatchMsg_ignored_at_client (hr : s.ota.role = .client)
    (hm : m.tag ∈ [Tag.blockReq, .abortResp, .upgReq, .statusResp]) (src : Addr) : dispatchMsg src m s = ignored s := by
  cases m
  case blockRequest | abortResponse | upgradeRequest | statusResponse => exact byRole_client hr _ _
  all_goals simp [Msg.tag] at hm

/-! OTA_RX of a frame that carries no message. -/

theorem otaRx_malformed (hb : s.otaBooted = true) (h : parseMsg s.cfg t p = .malformed) (src : Addr) :
    otaRx t src p s = .next (s.record { st := .malformed }) := by
  rw [otaRx, otaGuard, if_pos hb, h]
  rfl

theorem otaRx_other (hb : s.otaBooted = true) (h : parseMsg s.cfg t p = .other) (src : Addr) :
    otaRx t src p s = .next (s.record { st := .other }) := by
  rw [otaRx, otaGuard, if_pos hb, h]
  rfl

/-- A result can be read back from the port. -/
theorem State.record_injective (s : State) : Function.Injective s.record := by
  intro r r' h
  simpa [State.record] using h

/-- FC_PARSE answers MALFORMED where the parser does, and only there (R254). -/
theorem exec_fcParse_eq_malformed_iff :
    exec (.fcParse t p) s = .next (s.record { st := .malformed }) ↔ parseMsg s.cfg t p = .malformed := by
  change execFcParse t p s = _ ↔ _
  unfold execFcParse
  cases parseMsg s.cfg t p <;> simp [Result.status, s.record_injective.eq_iff]

/-! OTA_BOOT. -/

/-- OTA_BOOT's test of a saved record (R320), with the legal length written out. -/
theorem restorable_iff_legal {c : Config} : restorable c r = true ↔
    r.role = .client ∧ r.downloading ≠ .idle ∧ c.headerMin ≤ r.totalBytes.toNat ∧ r.totalBytes.toNat ≤ c.maxImageSize ∧
      r.totalBlocks.toNat = blocks c r.totalBytes.toNat ∧ r.currentBlock.toNat ≤ r.totalBlocks.toNat ∧
      (r.downloading ≠ .upgradeRequesting ∨ r.currentBlock = r.totalBlocks) := by
  simp only [restorable_iff, legalLength, decide_eq_true_iff, and_assoc, imp_iff_not_or, ne_eq]

theorem exec_otaBoot_again (hb : s.otaBooted = true) : exec .otaBoot s = .next (s.record { st := .ignored }) :=
  if_pos hb

theorem exec_otaBoot_restores (hb : s.otaBooted = false) (hn : s.nv = some r) (hr : restorable s.cfg r = true) :
    exec .otaBoot s = .next (({ s with otaBooted := true, ota := r, tmrArmed := true, tmrDelay := 0 } : State).record
      { st := .ok, effects := [.timerArm 0, .report (.resumed r.currentBlock r.totalBlocks)] }) := by
  change execOtaBoot s = _
  simp [execOtaBoot, hb, hn, hr, restore]

theorem exec_otaBoot_restores_nothing (hb : s.otaBooted = false) (hn : ∀ r, s.nv = some r → ¬ restorable s.cfg r = true) :
    exec .otaBoot s = .next (({ s with otaBooted := true } : State).record { st := .ok }) := by
  change execOtaBoot s = _
  cases hnv : s.nv with
  | none => simp [execOtaBoot, hb, hnv]
  | some r => simp [execOtaBoot, hb, hnv, hn r hnv]

end Sys2Proof.Machine

open Sys2Proof Sys2Proof.Machine

/-- Settles O35: the message is parsed back, and the table of R306 ignores it at this role. -/
theorem messagesForTheOtherRoleAreIgnored : Obligations.MessagesForTheOtherRoleAreIgnored := by
  intro s src m hc hb hm ⟨hserver, hclient⟩
  rw [exec_rxInstr s.cfg _ _ _ s rfl, otaRx_message hb (parseMsg_payload hc hm)]
  cases hr : s.ota.role with
  | client => exact dispatchMsg_ignored_at_client hr (hclient hr) src
  | server => exact dispatchMsg_ignored_at_server hr (hserver hr) src

/-- Settles O36: OTA_RX answers what the parser answers where it gives no message. -/
theorem malformedAndOtherFramesChangeNothing : Obligations.MalformedAndOtherFramesChangeNothing := by
  intro s src t p _ hb
  refine ⟨fun ht => otaRx_other hb (parseMsg_other ht p) src, fun h => ?_⟩
  rw [exec_rxInstr s.cfg _ _ _ s rfl]
  exact otaRx_malformed hb (exec_fcParse_eq_malformed_iff.1 h) src

/-- Settles O37: OTA_BOOT by its branches, the test of the saved record read as `restorable_iff_legal`. -/
theorem otaBootRestoresADownload : Obligations.OtaBootRestoresADownload := by
  intro s
  refine ⟨exec_otaBoot_again, fun hb => ⟨?_, fun h => ?_⟩⟩
  · intro r hn hrole hactive hmin hmax hblocks hle hup
    exact exec_otaBoot_restores hb hn (restorable_iff_legal.2 ⟨hrole, hactive, hmin, hmax, hblocks, hle, hup⟩)
  · exact exec_otaBoot_restores_nothing hb fun r hn => mt restorable_iff_legal.1 (h r hn)
end

section
/-! The server half of the OTA sequencer (spec/43_ota_server.md): OTA_TRIGGER with its flash reads answered (R350), what a
server answers to the messages meant for it (R352-R358), and that nothing but a reset ends serving (R351). -/

namespace Sys2Proof.Machine

variable {s t : State} {i : Instr} {m : Msg}

/-! OTA_TRIGGER. -/

theorem otaGuard_booted (hb : s.otaBooted = true) (body : Answer) : otaGuard s body = body := if_pos hb

theorem legalLength_iff {c : Config} {n : Nat} : legalLength c n = true ↔ c.headerMin ≤ n ∧ n ≤ c.maxImageSize :=
  decide_eq_true_iff

/-- The checks of R350 on what the flash reads: no access faults, for the header and a legal image lie in the flash. -/
theorem exec_otaTrigger (hc : s.cfg.Valid) (hb : s.otaBooted = true) (peer : Addr) :
    let magic := bytesAt s.flashByte (s.cfg.imageBase + s.cfg.hdrMagicOff) s.cfg.hdrMagicLen
    let len := rd32 (bytesAt s.flashByte (s.cfg.imageBase + s.cfg.hdrLenOff) 4) 0
    exec (.otaTrigger peer) s =
      if s.ota.role = .client ∧ s.ota.downloading ≠ .idle then
        .next (s.record { st := .busy, effects := [.report .busy] })
      else if magic = s.cfg.imageMagic then
        if legalLength s.cfg len.toNat = true then
          startServing peer len (crc32 s.cfg (bytesAt s.flashByte s.cfg.imageBase len.toNat)) s
        else .next (s.record { st := .badLen, effects := [.report (.badLength len)] })
      else .next (s.record { st := .noImage, effects := [.report .noImage] }) := by
  intro magic len
  change execOtaTrigger peer s = _
  rw [execOtaTrigger, otaGuard_booted hb, State.magicOk_ok hc, andThen_ok, State.imageLen_ok hc, andThen_ok]
  refine if_congr Iff.rfl rfl (if_congr beq_iff_eq ?_ rfl)
  split
  · rename_i hl
    rw [State.crcFlash_legal hc hl, andThen_ok]
  · rfl

/-! The messages of a server's column in R306's table. -/

/-- A message's own payload brings OTA_RX to the rule of the message (R307). -/
theorem otaRx_payload (hc : s.cfg.Valid) (hb : s.otaBooted = true) (hm : messageOk m) (src : Addr) :
    otaRx (s.cfg.tagByte m.tag) src m.payload s = dispatchMsg src m s :=
  otaRx_message hb (parseMsg_payload hc hm) src

/-- The frame of a message without a payload: its checksum is its type (R144-R146, R250). -/
theorem frameOf_empty {c : Config} (h : m.payload = []) :
    frameOf c m = [c.startMarker, c.tagByte m.tag, 0, 0, c.tagByte m.tag] := by
  rw [frameOf, h, encodeFrame_eq]
  simp [cksum]

/-- A requested block of a legal image lies in the flash (R85, R352). -/
theorem serverBlockRequest_serves (hs : Inv s) (hr : s.ota.role = .server) {idx : U32}
    (hidx : idx.toNat < s.ota.totalBlocks.toNat) (src : Addr) :
    let n := blockLen s.cfg s.ota.totalBytes.toNat idx.toNat
    serverBlockRequest src idx s = .next (s.record
      { st := .ok
        effects := [.send src (frameOf s.cfg (.blockResponse idx (BitVec.ofNat 16 n)
          (bytesAt s.flashByte (blockAddr s.cfg idx.toNat) n) s.ota.crc))] }) := by
  intro n
  have harea := block_in_imageArea hs.cfg (hs.width.serverLength hr) (hs.ota.blocksOfBytes ▸ hidx)
  have hread : s.memRead (blockAddr s.cfg idx.toNat) n = .ok _ := State.memRead_ok (harea.trans hs.cfg.image_in_flash)
  rw [serverBlockRequest, if_neg (not_le.2 hidx)]
  exact congrArg (andThen · _) hread

theorem serverBlockRequest_ignored {idx : U32} (hidx : s.ota.totalBlocks.toNat ≤ idx.toNat) (src : Addr) :
    serverBlockRequest src idx s = .next (s.record { st := .ignored }) :=
  if_pos hidx

/-! Serving (R351). -/

/-- A server after a command that armed no timer. -/
def StillServing (s t : State) : Prop := t.ota.role = .server ∧ ∀ d, Effect.timerArm d ∉ newEffects s t

theorem StillServing.record {u : State} {r : Result} (hr : u.ota.role = .server) (ho : u.outputs = s.outputs)
    (h : ∀ d, Effect.timerArm d ∉ r.effects) : StillServing s (u.record r) :=
  ⟨hr, by rwa [newEffects_record ho]⟩

/-- Only a client verifies an image (R405). -/
theorem VerifyFrom.client {w : Work} (h : VerifyFrom s i w) : s.ota.role = .client := by
  cases h <;> assumption

/-- At a server every instruction leaves a server and arms no timer: the rules that arm one are a client's, but for
OTA_BOOT's, which finds the reset record. -/
theorem Ran.stillServing (h : Ran s i t) (hs : Inv s) (hr : s.ota.role = .server) : StillServing s t := by
  have notClient (hclient : s.ota.role = .client) : StillServing s t := absurd (hclient.symm.trans hr) (by decide)
  cases h with
  | answered i r hq => exact .record hr rfl fun d hd => nomatch hq _ hd
  | ringInit => exact .record hr rfl (by simp)
  | ringClear => exact .record hr rfl (by simp)
  | ringPush => exact .record hr rfl (by simp)
  | ringPop => exact .record hr rfl (by simp)
  | tickIgnored => exact .record hr rfl (by simp)
  | trigger => exact .record rfl rfl (by simp)
  | booted => exact .record hr rfl (by simp)
  | restored r hb => exact notClient (congrArg OtaRecord.role (hs.ota.unbooted hb).1)
  | notify src p total period w hb hclient => exact notClient hclient
  | block src p idx n data crc hb hclient => exact notClient hclient
  | verifyOk i w hb hw => exact notClient hw.client
  | verifyFail i w w' hb hw => exact notClient hw.client
  | tickSends m delay hb ha hclient => exact notClient hclient
  | upgradeResponse src p hb hclient => exact notClient hclient
  | aborted i e hb hclient => exact notClient hclient

/-- A step that is no reset leaves a server serving. -/
theorem step_stillServing (hs : Inv s) (hr : s.ota.role = .server) (h : step s = .next t)
    (hreset : ∀ rest, s.pending ≠ .reset :: rest) : StillServing s t := by
  obtain ⟨-, ⟨-, rfl⟩ | ⟨rest, hp, -⟩ | ⟨cmd, rest, r, -, -, -, rfl⟩ | ⟨cmd, rest, i, -, hd, hi⟩⟩ := step_cases h
  · exact ⟨hr, by simp [newEffects, newResults]⟩
  · exact absurd hp (hreset rest)
  · exact .record hr rfl (by simp)
  · exact (exec_cases (s := s.withPending rest) hs.cfg (decode_wellFormed hd) hi).stillServing (hs.withPending rest) hr

end Sys2Proof.Machine

open Sys2Proof Sys2Proof.Machine

/-- Settles O38: the branches of `exec_otaTrigger`. -/
theorem otaTriggerServesOrReports : Obligations.OtaTriggerServesOrReports := by
  intro s peer hc hb busy magic len nblocks crc
  rw [exec_otaTrigger hc hb peer]
  refine ⟨fun hbusy => if_pos hbusy, fun hidle hmagic => ?_, fun hidle hmagic hlen => ?_, fun hidle hmagic hmin hmax => ?_⟩
  · rw [if_neg hidle, if_neg hmagic]
  · have hillegal : ¬ legalLength s.cfg len.toNat = true := by
      rw [legalLength_iff]
      omega
    rw [if_neg hidle, if_pos hmagic, if_neg hillegal]
  · rw [if_neg hidle, if_pos hmagic, if_pos (legalLength_iff.2 ⟨hmin, hmax⟩)]
    rfl

/-- Settles O39: the parsed request reaches the server's rule, which reads the block or ignores the index. -/
theorem serverServesBlocks : Obligations.ServerServesBlocks := by
  intro s src idx hs hb hr n
  have hrule : exec (.otaRxBlockReq src (le32 idx)) s = serverBlockRequest src idx s :=
    (otaRx_payload hs.cfg hb (m := .blockRequest idx) trivial src).trans (byRole_server hr _ _)
  rw [hrule]
  exact ⟨fun hidx => serverBlockRequest_serves hs hr hidx src, fun hidx => serverBlockRequest_ignored hidx src⟩

/-- Settles O41: the role by `step_stillServing`; that a server is Idle with no block counted is the invariant. -/
theorem serverStaysServing : Obligations.ServerStaysServing := by
  intro s t hs hr h hreset
  obtain ⟨hrole, harm⟩ := step_stillServing hs hr h hreset
  have ht : Inv t := stepKeepsInv s t hs h
  have hidle := ht.ota.serverIdle hrole
  exact ⟨hrole, hidle, ht.ota.idleCurrent hidle, harm⟩

/-- Settles O40: each parsed message reaches the server's rule, and a frame without a payload is its five bytes. -/
theorem serverAnswersAndReports : Obligations.ServerAnswersAndReports := by
  intro s src ip pct rem hc hb hr
  have rule {m : Msg} (hm : messageOk m) := otaRx_payload hc hb hm src
  have abortRequest := frameOf_empty (c := s.cfg) (m := .abortRequest) rfl
  have abortResponse := frameOf_empty (c := s.cfg) (m := .abortResponse) rfl
  have upgradeResponse := frameOf_empty (c := s.cfg) (m := .upgradeResponse) rfl
  have statusRequest := frameOf_empty (c := s.cfg) (m := .statusRequest) rfl
  refine ⟨?_, ?_, ?_, fun hip => ?_, ?_, ?_⟩
  · exact upgradeResponse ▸ (rule (m := .upgradeRequest) trivial).trans (byRole_server hr _ _)
  · exact abortResponse ▸ (rule (m := .abortRequest) trivial).trans (byRole_server hr _ _)
  · exact (rule (m := .abortResponse) trivial).trans (byRole_server hr _ _)
  · exact (rule (m := .statusResponse ip pct rem) hip).trans (byRole_server hr _ _)
  · exact abortRequest ▸ (otaGuard_booted hb _).trans (byRole_server hr _ _)
  · exact statusRequest ▸ (otaGuard_booted hb _).trans (byRole_server hr _ _)
end

section
/-! The record to resume from (spec/44_ota_client.md R404, R413): a command saves the client's record, leaves it at or
above the last checkpoint, or ends the transfer. -/

namespace Sys2Proof.Machine

variable {s t : State} {c : Config} {o r : OtaRecord} {i : Instr}

/-- OTA_BOOT would restore the transfer `o` from the record `r`, at or above the last checkpoint (R404, R413). -/
def Resumes (c : Config) (r o : OtaRecord) : Prop :=
  restorable c r = true ∧ r.totalBytes = o.totalBytes ∧ r.totalBlocks = o.totalBlocks ∧
    r.currentBlock.toNat ≤ o.currentBlock.toNat ∧
    o.currentBlock.toNat - o.currentBlock.toNat % c.checkpointInterval ≤ r.currentBlock.toNat

theorem checkpointInv_iff : CheckpointInv s ↔
    (s.ota.role = .client → s.ota.downloading ≠ .idle → ∃ r, s.nv = some r ∧ Resumes s.cfg r s.ota) := Iff.rfl

/-- A transfer resumes from its own record. -/
theorem Resumes.self (h : restorable c o = true) : Resumes c o o :=
  ⟨h, rfl, rfl, le_rfl, Nat.sub_le _ _⟩

/-- The count that a block leaves: an image has fewer than 2^32 blocks (R403). -/
theorem toNat_countedOta (hk : o.currentBlock.toNat < o.totalBlocks.toNat) (crc : U32) :
    (countedOta o crc).currentBlock.toNat = o.currentBlock.toNat + 1 := by
  have hlt := o.totalBlocks.isLt
  simp only [countedOta, BitVec.toNat_ofNat]
  omega

/-- Between two checkpoints the last multiple of the interval stays where it is. -/
theorem succ_sub_mod {n k : Nat} (h : (n + 1) % k ≠ 0) : n + 1 - (n + 1) % k = n - n % k := by
  have hdiv : (n + 1) / k = n / k := Nat.succ_div_of_not_dvd fun hd => h (Nat.mod_eq_zero_of_dvd hd)
  have hsucc := Nat.div_add_mod (n + 1) k
  have hn := Nat.div_add_mod n k
  rw [hdiv] at hsucc
  omega

/-- Counting a block that reaches no checkpoint keeps the record (R403). -/
theorem Resumes.counted (h : Resumes c r o) (hk : o.currentBlock.toNat < o.totalBlocks.toNat)
    (hno : (o.currentBlock.toNat + 1) % c.checkpointInterval ≠ 0) (crc : U32) : Resumes c r (countedOta o crc) := by
  obtain ⟨hr, hbytes, hblocks, hle, hge⟩ := h
  refine ⟨hr, hbytes, hblocks, ?_, ?_⟩ <;> rw [toNat_countedOta hk]
  · exact hle.trans (Nat.le_succ _)
  · rwa [succ_sub_mod hno]

theorem CheckpointInv.of_eq (h : CheckpointInv s) (hc : t.cfg = s.cfg) (ho : t.ota = s.ota) (hn : t.nv = s.nv) :
    CheckpointInv t := by
  rw [checkpointInv_iff] at h ⊢
  rwa [hc, ho, hn]

theorem CheckpointInv.of_idle (h : t.ota.downloading = .idle) : CheckpointInv t := fun _ hd => absurd h hd

/-- A client that has just saved its record resumes from it. -/
theorem Inv.checkpoint_of_saved (h : Inv t) (hn : t.nv = some t.ota) : CheckpointInv t :=
  fun hr hd => ⟨t.ota, hn, Resumes.self (h.ota.restorable hr hd)⟩

/-- A block that was due, written, counted and, at a checkpoint, saved (R403, R404). -/
theorem blockWork_eq (hk : s.ota.currentBlock.toNat < s.ota.totalBlocks.toNat) (addr : Nat) (data : Bytes) (crc : U32) :
    let saves := (s.ota.currentBlock.toNat + 1) % s.cfg.checkpointInterval = 0
    blockWork s addr data crc =
      { st :=
          { s with
            ota := countedOta s.ota crc
            nv := if saves then some (countedOta s.ota crc) else s.nv
            flash := (s.flashWithBytes addr data).flash }
        effects := .flashWrite addr data :: if saves then [.nvSave (countedOta s.ota crc)] else [] } := by
  intro saves
  unfold blockWork
  rw [Work.checkpoint_eq]
  simp only [toNat_countedOta hk]
  by_cases hsaves : saves
  · rw [if_pos hsaves, if_pos hsaves]
    exact if_pos hsaves
  · rw [if_neg hsaves, if_neg hsaves]
    exact if_neg hsaves

/-- Counting a block keeps a record to resume from (R403, R404). -/
theorem CheckpointInv.blockWork (h : CheckpointInv s) (hs : Inv s) {idx : U32} {n : U16} (hr : s.ota.role = .client)
    (ha : blockAccepted s.cfg s.ota idx n = true) (addr : Nat) (data : Bytes) (crc : U32) :
    CheckpointInv (blockWork s addr data crc).st := by
  obtain ⟨hd, hk, -, -⟩ := blockAccepted_iff.1 ha
  have hcfg : (Machine.blockWork s addr data crc).st.cfg = s.cfg := by rw [blockWork_frame]
  have hactive : s.ota.downloading ≠ .idle := by simp [hd]
  rw [checkpointInv_iff, hcfg, blockWork_eq hk]
  dsimp only
  intro _ _
  split
  · exact ⟨_, rfl, Resumes.self (restorable_countedOta (hs.ota.restorable hr hactive) hd hk crc)⟩
  · rename_i hno
    obtain ⟨r, hn, hresumes⟩ := h hr hactive
    exact ⟨r, hn, Resumes.counted hresumes hk hno crc⟩

/-- `Verify()` is called with a record to resume from. -/
theorem VerifyFrom.checkpoint {w : Work} (h : VerifyFrom s i w) (hs : Inv s) (hc : CheckpointInv s) :
    CheckpointInv w.st := by
  cases h with
  | tick => exact hc.of_eq rfl rfl rfl
  | block src p idx n data crc hr ha => exact hc.blockWork hs hr ha _ data crc

/-- Entry to UpgradeRequesting is not saved: the record is that of the download (R404, R405). -/
theorem CheckpointInv.upgradeRequesting (h : CheckpointInv s) (hr : restorable s.cfg s.ota = true) :
    CheckpointInv { s with ota := { s.ota with downloading := .upgradeRequesting } } :=
  have ⟨hrole, hd, _⟩ := restorable_iff.1 hr
  fun _ _ => h hrole hd

/-- An instruction keeps a record to resume from. -/
theorem Ran.checkpoint (h : Ran s i t) (hs : Inv s) (hc : CheckpointInv s) (ht : Inv t) : CheckpointInv t := by
  cases h with
  | block src p idx n data crc hb hr ha => exact (hc.blockWork hs hr ha _ data crc).of_eq rfl rfl rfl
  | verifyOk i w hb hw =>
    exact ((hw.checkpoint hs hc).upgradeRequesting (hw.transfer hs hb).record).of_eq rfl rfl rfl
  | notify => exact ht.checkpoint_of_saved rfl
  | verifyFail => exact ht.checkpoint_of_saved rfl
  | restored r hb hn => exact ht.checkpoint_of_saved hn
  | trigger => exact .of_idle rfl
  | upgradeResponse => exact .of_idle rfl
  | aborted => exact .of_idle rfl
  | answered => exact hc.of_eq rfl rfl rfl
  | ringInit => exact hc.of_eq rfl rfl rfl
  | ringClear => exact hc.of_eq rfl rfl rfl
  | ringPush => exact hc.of_eq rfl rfl rfl
  | ringPop => exact hc.of_eq rfl rfl rfl
  | tickIgnored => exact hc.of_eq rfl rfl rfl
  | tickSends => exact hc.of_eq rfl rfl rfl
  | booted => exact hc.of_eq rfl rfl rfl

end Sys2Proof.Machine

open Sys2Proof Sys2Proof.Machine

/-- Settles O54: a step waits, resets, answers ILLEGAL, or runs an instruction, and each keeps a record to resume from. -/
theorem stepKeepsCheckpoint : Obligations.StepKeepsCheckpoint := by
  intro s t hs hc h
  have ht : Inv t := stepKeepsInv s t hs h
  obtain ⟨-, ⟨-, rfl⟩ | ⟨rest, -, rfl⟩ | ⟨cmd, rest, r, -, -, -, rfl⟩ | ⟨cmd, rest, i, -, hd, hi⟩⟩ := step_cases h
  · exact hc
  · exact .of_idle rfl
  · exact hc.of_eq rfl rfl rfl
  · have hran := exec_cases (s := s.withPending rest) hs.cfg (decode_wellFormed hd) hi
    exact hran.checkpoint (hs.withPending rest) (hc.of_eq rfl rfl rfl) ht

/-- Settles O55: OTA_BOOT restores the saved record, which lies at or above the last checkpoint. -/
theorem resumeLosesLessThanACheckpoint : Obligations.ResumeLosesLessThanACheckpoint := by
  intro s rest hs hc hr hd hp
  obtain ⟨r, hn, hrest, hbytes, hblocks, hle, hge⟩ := hc hr hd
  obtain ⟨hclient, hactive, -⟩ := restorable_iff.1 hrest
  have hmod := Nat.mod_lt s.ota.currentBlock.toNat hs.cfg.interval_pos
  have hboot := exec_otaBoot_restores (s := (s.withPending rest).resetRegisters) rfl hn hrest
  refine ⟨_, _, step_input hs.cfg hp, hboot, hclient, hactive, hbytes, hblocks, hle, ?_, rfl, rfl, fun _ => rfl⟩
  simp only [State.record_ota]
  omega
end

section
/-! The client half of the OTA sequencer (spec/44_ota_client.md): the rule of each message, OTA_TICK and the operator's
abort (R400-R407, R409), each with its flash accesses answered. -/

namespace Sys2Proof.Machine

variable {s t : State} {src : Addr} {idx : U32} {n : U16} {data p : Bytes} {crc : U32}

/-- An erased image, address by address (R84, R304). -/
theorem State.ErasedTo.byAddress {total : Nat} {f : Memory} (h : s.ErasedTo (eraseSet s.cfg total) f) (a : Nat) :
    (InEraseSet s.cfg total a → Memory.read s.flashUnlisted f a = s.cfg.flashErased) ∧
      (¬ InEraseSet s.cfg total a → Memory.read s.flashUnlisted f a = s.flashByte a) := by
  rw [h.read a, inEraseSet_iff]
  exact ⟨fun hin => if_pos hin, fun hout => if_neg hout⟩

/-! Notify (R400). -/

theorem clientNotify_ignored {total : U32} (hl : ¬ legalLength s.cfg total.toNat = true) (period : U16) :
    clientNotify src total period s = .next (s.record { st := .ignored }) := if_neg hl

/-! OTA_TICK (R401). -/

theorem exec_otaTick_disarmed (hb : s.otaBooted = true) (ha : s.tmrArmed = false) :
    exec .otaTick s = .next (s.record { st := .ignored }) := by
  change execOtaTick s = _
  rw [execOtaTick, otaGuard_booted hb, if_neg (by simp [ha])]
  rfl

section Armed

variable (hb : s.otaBooted = true) (ha : s.tmrArmed = true)
include hb ha

theorem exec_otaTick_outside (h : s.ota.role = .server ∨ s.ota.downloading = .idle) :
    exec .otaTick s = .next (({ s with tmrArmed := false, tmrDelay := 0 } : State).record
      { st := .ignored, effects := [.timerDisarm] }) := by
  change execOtaTick s = _
  rw [execOtaTick, otaGuard_booted hb, if_pos ha]
  rcases h with hserver | hidle
  · rw [if_pos hserver]
    rfl
  · simp only [hidle]
    exact ite_self _

theorem exec_otaTick_requests (hr : s.ota.role = .client) (hd : s.ota.downloading = .downloading)
    (hk : s.ota.currentBlock.toNat < s.ota.totalBlocks.toNat) :
    exec .otaTick s = .next (({ s with tmrArmed := true, tmrDelay := s.ota.requestPeriodMs.zeroExtend 32 } : State).record
      { st := .ok
        effects := [.timerDisarm, .send s.ota.peer (frameOf s.cfg (.blockRequest s.ota.currentBlock)),
          .timerArm (s.ota.requestPeriodMs.zeroExtend 32)] }) := by
  change execOtaTick s = _
  rw [execOtaTick, otaGuard_booted hb, if_pos ha]
  simp only [hr, hd, reduceCtorEq, if_false, if_pos hk]
  rfl

theorem exec_otaTick_verifies (hr : s.ota.role = .client) (hd : s.ota.downloading = .downloading)
    (hk : s.ota.currentBlock = s.ota.totalBlocks) : exec .otaTick s = verify s.work.timerDisarm := by
  change execOtaTick s = _
  rw [execOtaTick, otaGuard_booted hb, if_pos ha]
  simp only [hr, hd, reduceCtorEq, if_false, hk, lt_irrefl]

theorem exec_otaTick_upgradeRequesting (hr : s.ota.role = .client) (hd : s.ota.downloading = .upgradeRequesting) :
    exec .otaTick s = .next (({ s with tmrArmed := true, tmrDelay := s.cfg.upgradeRetryMs } : State).record
      { st := .ok
        effects :=
          [.timerDisarm, .send s.ota.peer (frameOf s.cfg .upgradeRequest), .timerArm s.cfg.upgradeRetryMs] }) := by
  change execOtaTick s = _
  rw [execOtaTick, otaGuard_booted hb, if_pos ha]
  simp only [hr, hd, reduceCtorEq, if_false]
  rfl

end Armed

/-! BlockResponse (R403). -/

/-- The parsed BlockResponse reaches the client's rule (R306). -/
theorem exec_otaRxBlockResp (hc : s.cfg.Valid) (hb : s.otaBooted = true) (hr : s.ota.role = .client)
    (hn : data.length = n.toNat) (src : Addr) (idx crc : U32) :
    exec (.otaRxBlockResp src (le32 idx ++ le16 n ++ data ++ le32 crc)) s = clientBlockResponse idx n data crc s :=
  (otaRx_payload hc hb (m := .blockResponse idx n data crc) hn src).trans (byRole_client hr _ _)

theorem clientBlockResponse_ignored (ha : ¬ blockAccepted s.cfg s.ota idx n = true) (data : Bytes) (crc : U32) :
    clientBlockResponse idx n data crc s = .next (s.record { st := .ignored }) := if_neg ha

/-- The count that an accepted last block leaves. -/
theorem countedOta_last {o : OtaRecord} (hk : o.currentBlock.toNat + 1 = o.totalBlocks.toNat) (crc : U32) :
    countedOta o crc = { o with currentBlock := o.totalBlocks, crc := crc } := by
  rw [countedOta, hk, BitVec.ofNat_toNat, BitVec.setWidth_eq]

/-- `Verify()` after a write reads the written bytes (R9, R405). -/
theorem verifies_flashWithBytes_iff (hf : FlashInv s) {addr : Nat} {total : U32} :
    Verifies s.cfg (s.flashWithBytes addr data).flashByte total crc ↔
      Verifies s.cfg (storedAt s.flashByte addr data) total crc := by
  rw [funext (State.flashWithBytes_flashByte hf addr data)]

section Accepted

variable (hs : Inv s) (hr : s.ota.role = .client) (ha : blockAccepted s.cfg s.ota idx n = true)
  (hn : data.length = n.toNat)
include hs hr ha hn

/-- An accepted block lies in the flash; the last one is verified (R403). -/
theorem clientBlockResponse_accepted (crc : U32) :
    let w := blockWork s (blockAddr s.cfg idx.toNat) data crc
    clientBlockResponse idx n data crc s =
      if s.ota.currentBlock.toNat + 1 = s.ota.totalBlocks.toNat then verify w else w.finish .ok := by
  intro w
  obtain ⟨-, hk, -, -⟩ := blockAccepted_iff.1 ha
  have hfits : blockAddr s.cfg idx.toNat + data.length ≤ s.cfg.flashSize := by
    rw [hn]
    exact (hs.accepted_in_imageArea hr ha).trans hs.cfg.image_in_flash
  have hlast : w.st.ota.currentBlock = w.st.ota.totalBlocks ↔
      s.ota.currentBlock.toNat + 1 = s.ota.totalBlocks.toNat := by
    rw [blockWork_ota, ← BitVec.toNat_inj, toNat_countedOta hk]
    rfl
  rw [clientBlockResponse, if_pos ha, Work.memWrite_ok hfits, andThen_ok]
  exact if_congr hlast rfl rfl

/-- A block that is not the last: its bytes in the flash, the count, the CRC and the checkpoint (R403, R404). -/
theorem clientBlockResponse_stores (hk : s.ota.currentBlock.toNat + 1 < s.ota.totalBlocks.toNat) (crc : U32) :
    let addr := blockAddr s.cfg idx.toNat
    let saves := (s.ota.currentBlock.toNat + 1) % s.cfg.checkpointInterval = 0
    clientBlockResponse idx n data crc s = .next (({ s with
        ota := countedOta s.ota crc
        nv := if saves then some (countedOta s.ota crc) else s.nv
        flash := (s.flashWithBytes addr data).flash } : State).record
      { st := .ok, effects := .flashWrite addr data :: if saves then [.nvSave (countedOta s.ota crc)] else [] }) := by
  intro addr saves
  rw [clientBlockResponse_accepted hs hr ha hn, if_neg hk.ne, blockWork_eq (Nat.lt_of_succ_lt hk), Work.finish_eq]

section Last

variable (hk : s.ota.currentBlock.toNat + 1 = s.ota.totalBlocks.toNat)
include hk

/-- The last block of a good image (R403, R405). -/
theorem clientBlockResponse_verifyOk
    (hv : Verifies s.cfg (storedAt s.flashByte (blockAddr s.cfg idx.toNat) data) s.ota.totalBytes crc) :
    let addr := blockAddr s.cfg idx.toNat
    let o : OtaRecord := { s.ota with currentBlock := s.ota.totalBlocks, crc := crc }
    let saves := (s.ota.currentBlock.toNat + 1) % s.cfg.checkpointInterval = 0
    clientBlockResponse idx n data crc s = .next (({ s with
        ota := { o with downloading := .upgradeRequesting }
        nv := if saves then some o else s.nv
        tmrArmed := true
        tmrDelay := s.cfg.upgradeRetryMs
        flash := (s.flashWithBytes addr data).flash } : State).record
      { st := .ok
        effects := .flashWrite addr data :: (if saves then [.nvSave o] else []) ++
          [.timerArm s.cfg.upgradeRetryMs, .report .verifyOk] }) := by
  intro addr o saves
  have hd : s.ota.downloading ≠ .idle := by simp [(blockAccepted_iff.1 ha).1]
  rw [clientBlockResponse_accepted hs hr ha hn, if_pos hk, blockWork_eq (by omega), countedOta_last hk]
  exact verify_succeeds hs.cfg (hs.ota.activeLength hr hd) ((verifies_flashWithBytes_iff hs.flash).2 hv)

/-- The last block of a bad image (R403, R405). -/
theorem clientBlockResponse_verifyFails
    (hv : ¬ Verifies s.cfg (storedAt s.flashByte (blockAddr s.cfg idx.toNat) data) s.ota.totalBytes crc) :
    let addr := blockAddr s.cfg idx.toNat
    let o : OtaRecord := { s.ota with currentBlock := s.ota.totalBlocks, crc := crc }
    let saves := (s.ota.currentBlock.toNat + 1) % s.cfg.checkpointInterval = 0
    let delay : U32 := s.ota.requestPeriodMs.zeroExtend 32
    ∃ f, clientBlockResponse idx n data crc s = .next (({ s with
          ota := { o with currentBlock := 0 }
          nv := some { o with currentBlock := 0 }
          tmrArmed := true
          tmrDelay := delay
          flash := f } : State).record
        { st := .ok
          effects := .flashWrite addr data :: (if saves then [.nvSave o] else []) ++
            (eraseSet s.cfg s.ota.totalBytes.toNat).map Effect.flashErase ++
            [.nvSave { o with currentBlock := 0 }, .timerArm delay, .report .verifyFailed] }) ∧
      (s.flashWithBytes addr data).ErasedTo (eraseSet s.cfg s.ota.totalBytes.toNat) f := by
  intro addr o saves delay
  have hd : s.ota.downloading ≠ .idle := by simp [(blockAccepted_iff.1 ha).1]
  rw [clientBlockResponse_accepted hs hr ha hn, if_pos hk, blockWork_eq (by omega), countedOta_last hk]
  let stored : State := { s.flashWithBytes addr data with ota := o, nv := if saves then some o else s.nv }
  let effects : List Effect := .flashWrite addr data :: if saves then [.nvSave o] else []
  obtain ⟨f, hf, he⟩ := verify_fails (w := ⟨stored, effects⟩) hs.cfg (hs.ota.activeLength hr hd)
    (mt (verifies_flashWithBytes_iff hs.flash).1 hv)
  exact ⟨f, hf, ⟨he.read, fun hi => (he.inv (hi.of_eq rfl rfl)).of_eq rfl rfl⟩⟩

end Last

end Accepted

/-! Duplicates (R412). -/

/-- A BlockResponse does not reset the node. -/
theorem Ran.blockResponse_booted (h : Ran s (.otaRxBlockResp src p) t) : t.otaBooted = s.otaBooted := by
  cases h with
  | answered => rfl
  | block src p idx n data crc =>
    rw [blockWork_frame]
    rfl
  | verifyOk _ w hb hw =>
    rw [hw.frame]
    rfl
  | verifyFail _ w w' hb hw he =>
    rw [he.st, Work.setOta_st, hw.frame]
    rfl
  | aborted i e hb hr hi =>
    obtain h | ⟨_, _, h⟩ := hi <;> cases h

end Sys2Proof.Machine

open Sys2Proof Sys2Proof.Machine

/-- Settles O42: the parsed Notify reaches the client's rule, whose erase is read address by address. -/
theorem clientNotifyStartsADownload : Obligations.ClientNotifyStartsADownload := by
  intro s src total period hc hb hr o
  have hrule : exec (.otaRxNotify src (le32 total ++ le16 period)) s = clientNotify src total period s :=
    (otaRx_payload hc hb (m := .notify total period) trivial src).trans (byRole_client hr _ _)
  rw [hrule]
  refine ⟨fun hmin hmax => ?_, fun hlen => clientNotify_ignored (by rw [legalLength_iff]; omega) period⟩
  obtain ⟨f, hf, he⟩ := clientNotify_eq hc (legalLength_iff.2 ⟨hmin, hmax⟩) src period
  have ho : { notifiedOta s.cfg s.ota src total period with downloading := .downloading, currentBlock := 0 } = o := by
    simp only [notifiedOta, hr, o]
  rw [ho] at hf
  exact ⟨_, hf, rfl, he.byAddress⟩

/-- Settles O43: the branches of OTA_TICK that verify nothing. -/
theorem otaTickSendsTheNextRequest : Obligations.OtaTickSendsTheNextRequest := by
  intro s hb
  have hframe := frameOf_empty (c := s.cfg) (m := .upgradeRequest) rfl
  exact ⟨exec_otaTick_disarmed hb, exec_otaTick_outside hb, exec_otaTick_requests hb,
    fun ha hr hd => hframe ▸ exec_otaTick_upgradeRequesting hb ha hr hd⟩

/-- Settles O44: `Verify()` on the flash as the tick found it. -/
theorem otaTickVerifiesACompleteImage : Obligations.OtaTickVerifiesACompleteImage := by
  intro s hs hb ha hr hd hk
  have hl := hs.ota.activeLength hr (by simp [hd])
  rw [exec_otaTick_verifies hb ha hr hd hk]
  refine ⟨verify_succeeds (w := s.work.timerDisarm) hs.cfg hl, fun hv => ?_⟩
  obtain ⟨f, hf, he⟩ := verify_fails (w := s.work.timerDisarm) hs.cfg hl hv
  exact ⟨_, hf, rfl, he.byAddress⟩

/-- Settles O45: `clientBlockResponse_stores`. -/
theorem clientStoresTheExpectedBlock : Obligations.ClientStoresTheExpectedBlock := by
  intro s src idx n data crc hs hb hr hd hidx hk hn hlen addr o
  subst hidx
  have ha := blockAccepted_iff.2 ⟨hd, Nat.lt_of_succ_lt hk, rfl, hlen⟩
  rw [exec_otaRxBlockResp hs.cfg hb hr hn, clientBlockResponse_stores hs hr ha hn hk]
  exact ⟨_, rfl, rfl, State.flashWithBytes_flashByte hs.flash addr data⟩

/-- Settles O46: `Verify()` on the flash with the last block in it. -/
theorem clientVerifiesAtTheLastBlock : Obligations.ClientVerifiesAtTheLastBlock := by
  intro s src idx n data crc hs hb hr hd hidx hk hn hlen addr o saved read
  subst hidx
  have ha := blockAccepted_iff.2 ⟨hd, by omega, rfl, hlen⟩
  have hread := State.flashWithBytes_flashByte hs.flash addr data
  rw [exec_otaRxBlockResp hs.cfg hb hr hn]
  by_cases hv : Verifies s.cfg read s.ota.totalBytes crc
  · rw [clientBlockResponse_verifyOk hs hr ha hn hk hv]
    exact ⟨_, rfl, fun _ => ⟨rfl, hread⟩, fun hnot => absurd hv hnot⟩
  · obtain ⟨f, hf, he⟩ := clientBlockResponse_verifyFails hs hr ha hn hk hv
    refine ⟨_, hf, fun hyes => absurd hyes hv, fun _ => ⟨rfl, fun a => ?_⟩⟩
    exact (he.byAddress a).imp_right fun hkept hout => (hkept hout).trans (hread a)

/-- Settles O47: the four tests of R403 are those of `blockAccepted`. -/
theorem clientIgnoresOtherBlocks : Obligations.ClientIgnoresOtherBlocks := by
  intro s src idx n data crc hc hb hr hn hother
  rw [exec_otaRxBlockResp hc hb hr hn]
  refine clientBlockResponse_ignored (fun ha => ?_) data crc
  obtain ⟨hd, hk, hidx, hlen⟩ := blockAccepted_iff.1 ha
  rcases hother with h | h | h | h
  · exact h hd
  · exact absurd hk (not_lt.2 h)
  · exact h hidx
  · exact h hlen

/-- Settles O48: an accepted block has the index that was expected, and one more is expected now. -/
theorem duplicateBlocksAreIgnored : Obligations.DuplicateBlocksAreIgnored := by
  intro s t src p hs hb hr h hcount
  have hran := otaRx_ran hs.cfg .blockResp h
  rw [rxInstr_tagByte hs.cfg, rxRow] at hran
  obtain ⟨st, -, rfl⟩ | ⟨-, m, hk, -, hp, hd⟩ := otaRx_tag_cases hs.cfg (k := .blockResp) h
  · exact absurd hcount (by simp)
  · have hrole : t.ota.role = .client := ((hran.role hs).resolve_right (by simp)).trans hr
    obtain ⟨idx, n, data, crc, rfl⟩ : ∃ idx n data crc, m = .blockResponse idx n data crc := by
      cases m <;> cases hk
      exact ⟨_, _, _, _, rfl⟩
    rw [← hran.cfg] at hp
    have hagain : exec (.otaRxBlockResp src p) t = clientBlockResponse idx n data crc t :=
      (otaRx_message (hran.blockResponse_booted.trans hb) hp src).trans (byRole_client hrole _ _)
    have hfirst : clientBlockResponse idx n data crc s = .next t := (byRole_client hr _ _).symm.trans hd
    rw [hagain]
    refine clientBlockResponse_ignored (fun ht => ?_) data crc
    by_cases ha : blockAccepted s.cfg s.ota idx n = true
    · obtain ⟨-, -, hidx, -⟩ := blockAccepted_iff.1 ha
      obtain ⟨-, -, hidx', -⟩ := blockAccepted_iff.1 ht
      rw [← hidx', hidx] at hcount
      omega
    · rw [clientBlockResponse_ignored ha] at hfirst
      obtain rfl := Host.Outcome.next.inj hfirst
      exact absurd hcount (by simp)

/-- Settles O49: the two branches of the rule; the reset record is what `ResetTransfer()` leaves at a client. -/
theorem upgradeResponseResetsTheNode : Obligations.UpgradeResponseResetsTheNode := by
  intro s src hc hb hr
  have hrule : exec (.otaRxUpgResp src []) s = clientUpgradeResponse s :=
    (otaRx_payload hc hb (m := .upgradeResponse) trivial src).trans (byRole_client hr _ _)
  rw [hrule, clientUpgradeResponse]
  refine ⟨fun hd => ?_, fun hd => if_neg hd⟩
  rw [if_pos hd]
  refine ⟨_, rfl, ?_, rfl, rfl, rfl, rfl, rfl, rfl, fun _ => rfl, rfl, ?_⟩ <;> simp [resetTransfer_client hr]

/-- Settles O50: the two branches of the rule. -/
theorem clientAbortRequest : Obligations.ClientAbortRequest := by
  intro s src hc hb hr ack
  have hrule : exec (.otaRxAbortReq src []) s = Machine.clientAbortRequest src s :=
    (otaRx_payload hc hb (m := .abortRequest) trivial src).trans (byRole_client hr _ _)
  have hack : Effect.send src (frameOf s.cfg .abortResponse) = ack := congrArg _ (frameOf_empty rfl)
  rw [hrule, Machine.clientAbortRequest, ← hack]
  refine ⟨fun hd => ?_, fun hd => ?_⟩
  · simp [if_neg hd, resetTransfer_client hr]
  · simp [if_pos hd]

/-- Settles O51: the two branches of the rule. -/
theorem clientOperatorAbort : Obligations.ClientOperatorAbort := by
  intro s hb hr
  have hrule : exec .otaAbort s = clientAbort s := (otaGuard_booted hb _).trans (byRole_client hr _ _)
  rw [hrule, clientAbort]
  refine ⟨fun hd => ?_, fun hd => if_pos hd⟩
  simp [if_neg hd, resetTransfer_client hr]
end

section
/-! Where the record is saved (spec/44_ota_client.md R404). -/

namespace Sys2Proof.Machine

variable {s t : State} {i : Instr} {r : OtaRecord}

/-- The persist points of R404, each with the instruction that reaches it from `s`, leaving `t`. -/
def PersistPoint (s t : State) (i : Instr) : Prop :=
  s.otaBooted = true ∧ s.ota.role = .client ∧
    ((∃ src p, i = .otaRxNotify src p ∧ t.ota.downloading = .downloading ∧ t.ota.currentBlock = 0) ∨
      (∃ src p, i = .otaRxBlockResp src p ∧
        ((s.ota.currentBlock.toNat + 1) % s.cfg.checkpointInterval = 0 ∨
          (s.ota.currentBlock.toNat + 1 = s.ota.totalBlocks.toNat ∧ t.ota.currentBlock = 0))) ∨
      (i = .otaTick ∧ s.ota.currentBlock = s.ota.totalBlocks ∧ t.ota.currentBlock = 0) ∨
      (∃ src p, i = .otaRxUpgResp src p ∧ s.ota.downloading = .upgradeRequesting) ∨
      (∃ src p, i = .otaRxAbortReq src p ∧ s.ota.downloading ≠ .idle) ∨
      (i = .otaAbort ∧ s.ota.downloading ≠ .idle))

/-- A save among a command's new effects is one of its result's. -/
theorem saved_of_record {u : State} (ho : u.outputs = s.outputs) {q : Result}
    (h : Effect.nvSave r ∈ newEffects s (u.record q)) : Effect.nvSave r ∈ q.effects :=
  newEffects_record ho q ▸ h

/-- A block's command saves at a checkpoint, before any `Verify()` (R403). -/
theorem checkpoint_of_blockWork_saved {idx : U32} {n : U16} (ha : blockAccepted s.cfg s.ota idx n = true)
    {addr : Nat} {data : Bytes} {crc : U32} (h : Effect.nvSave r ∈ (blockWork s addr data crc).effects) :
    (s.ota.currentBlock.toNat + 1) % s.cfg.checkpointInterval = 0 := by
  obtain ⟨-, hk, -, -⟩ := blockAccepted_iff.1 ha
  rw [blockWork_eq hk] at h
  have hsaved : (s.ota.currentBlock.toNat + 1) % s.cfg.checkpointInterval = 0 ∧ r = countedOta s.ota crc := by
    simpa using h
  exact hsaved.1

/-- A save before `Verify()` is a block's at a checkpoint. -/
theorem VerifyFrom.persistPoint {w : Work} (h : VerifyFrom s i w) (hb : s.otaBooted = true)
    (hr : Effect.nvSave r ∈ w.effects) : PersistPoint s t i := by
  cases h with
  | tick => simp at hr
  | block src p idx n data crc hclient ha =>
    exact ⟨hb, hclient, .inr (.inl ⟨src, p, rfl, .inl (checkpoint_of_blockWork_saved ha hr)⟩)⟩

/-- A `Verify()` that fails saves block 0 (R405). -/
theorem VerifyFrom.persistPoint_of_failed {w : Work} (h : VerifyFrom s i w) (hs : Inv s) (hb : s.otaBooted = true)
    (ht : t.ota.currentBlock = 0) : PersistPoint s t i := by
  obtain ⟨-, hcomplete⟩ := h.complete hs
  cases h with
  | tick ha hclient => exact ⟨hb, hclient, .inr (.inr (.inl ⟨rfl, hcomplete, ht⟩))⟩
  | block src p idx n data crc hclient ha hn hf hl =>
    obtain ⟨-, hk, -, -⟩ := blockAccepted_iff.1 ha
    rw [blockWork_ota, ← BitVec.toNat_inj, toNat_countedOta hk] at hl
    exact ⟨hb, hclient, .inr (.inl ⟨src, p, rfl, .inr ⟨hl, ht⟩⟩)⟩

/-- An instruction that saves the record is at a persist point. -/
theorem Ran.persistPoint (h : Ran s i t) (hs : Inv s) (hr : Effect.nvSave r ∈ newEffects s t) : PersistPoint s t i := by
  cases h with
  | answered i r hq =>
    exact nomatch hq _ (saved_of_record rfl hr)
  | notify src p total period w hb hclient => exact ⟨hb, hclient, .inl ⟨src, p, rfl, rfl, rfl⟩⟩
  | block src p idx n data crc hb hclient ha =>
    have hsaved := saved_of_record (by rw [blockWork_frame]) hr
    exact ⟨hb, hclient, .inr (.inl ⟨src, p, rfl, .inl (checkpoint_of_blockWork_saved ha hsaved)⟩)⟩
  | verifyOk i w hb hw =>
    have hsaved := saved_of_record (by rw [hw.frame]) hr
    exact hw.persistPoint hb (by simpa using hsaved)
  | verifyFail i w w' hb hw he =>
    exact hw.persistPoint_of_failed hs hb (by rw [State.record_ota, he.st]; rfl)
  | upgradeResponse src p hb hclient hd => exact ⟨hb, hclient, .inr (.inr (.inr (.inl ⟨src, p, rfl, hd⟩)))⟩
  | aborted i e hb hclient hi hd =>
    obtain rfl | ⟨src, p, rfl⟩ := hi
    · exact ⟨hb, hclient, .inr (.inr (.inr (.inr (.inr ⟨rfl, hd⟩))))⟩
    · exact ⟨hb, hclient, .inr (.inr (.inr (.inr (.inl ⟨src, p, rfl, hd⟩))))⟩
  | ringInit => exact absurd (saved_of_record rfl hr) (by simp)
  | ringClear => exact absurd (saved_of_record rfl hr) (by simp)
  | ringPush => exact absurd (saved_of_record rfl hr) (by simp)
  | ringPop => exact absurd (saved_of_record rfl hr) (by simp)
  | tickIgnored => exact absurd (saved_of_record rfl hr) (by simp)
  | tickSends => exact absurd (saved_of_record rfl hr) (by simp)
  | trigger => exact absurd (saved_of_record rfl hr) (by simp)
  | booted => exact absurd (saved_of_record rfl hr) (by simp)
  | restored => exact absurd (saved_of_record rfl hr) (by simp)

end Sys2Proof.Machine

open Sys2Proof Sys2Proof.Machine

/-- Settles O53: `Ran.persistPoint`. -/
theorem nvSaveOnlyAtPersistPoints : Obligations.NvSaveOnlyAtPersistPoints :=
  fun _ _ _ _ hs hw h hr => (exec_cases hs.cfg hw h).persistPoint hs hr
end

section
/-! A round of the pull (spec/44_ota_client.md R411) as the six events of `pullRound`: the tick's request reaches the
server, and the server's answer reaches the client's rule. -/

namespace Sys2Proof.Machine

variable {s u : State} {c : Config} {m : Msg} {src : Addr} {client server : Node}

/-! A node takes the command it was issued. -/

/-- A node after a step of its block that left the state `t`. -/
def Node.stepped (n : Node) (t : State) : Node := { n with st := t, rx := if t.ready then n.rx else .done }

theorem State.withPending_self {l : List Input} (h : s.pending = l) : s.withPending l = s := by
  subst h
  rfl

/-- A block that was waiting runs the command its node is issued. -/
theorem step_issued {n : Node} {i : Instr} (hp : n.st.pending = []) (hc : n.st.cfg.Valid)
    (hw : i.wellFormed n.st.cfg = true) :
    step (n.issue (.command (encode n.st.cfg i))).st = exec i n.st := by
  have hqueue : (n.issue (.command (encode n.st.cfg i))).st.pending = [.command (encode n.st.cfg i)] := by
    simp [Node.issue, Node.issueAll, hp]
  have htaken : (n.issue (.command (encode n.st.cfg i))).st.withPending [] = n.st := State.withPending_self hp
  rw [step_input (s := (n.issue _).st) hc hqueue, htaken]
  exact serveCommand_of_decode (decode_encode hc hw)

/-- Node k of a system runs the command it was issued, and what its result sends enters the air. -/
theorem System.run_issued {sys : System} {k : Nat} {n : Node} {i : Instr} {r : Result}
    (hn : sys.nodes[k]? = some (n.issue (.command (encode n.st.cfg i)))) (hp : n.st.pending = [])
    (hc : n.st.cfg.Valid) (hw : i.wellFormed n.st.cfg = true) (he : exec i n.st = .next (u.record r))
    (ho : u.outputs = n.st.outputs) :
    sys.step (.run k) =
      { nodes := sys.nodes.set k (n.stepped (u.record r)), air := sys.air ++ sentBy n.addr r } := by
  have hstep := (step_issued hp hc hw).trans he
  have hresults : newResults (n.issue (.command (encode n.st.cfg i))).st (u.record r) = [r] := by
    simp [newResults, Node.issue, Node.issueAll, ho]
  simp only [System.step, System.runNode, hn, hstep, System.settle, hresults, List.flatMap_singleton]
  rfl

/-! A frame reaches the node it is sent to. -/

/-- The command that a message arrives as. -/
def messageInstr (c : Config) (src : Addr) (m : Msg) : Instr := rxInstr c (c.tagByte m.tag) src m.payload

theorem messageInstr_wellFormed (hc : c.Valid) (hsrc : c.addrOk src = true) (hlen : m.payload.length ≤ c.mtu) :
    (messageInstr c src m).wellFormed c = true := by
  have hmtu := hc.mtu_le
  refine rxInstr_wellFormed hsrc ?_
  simp only [countOk, decide_eq_true_eq]
  omega

theorem exec_messageInstr (hc : s.cfg.Valid) (hb : s.otaBooted = true) (hm : messageOk m) (src : Addr) :
    exec (messageInstr s.cfg src m) s = dispatchMsg src m s :=
  (exec_rxInstr s.cfg _ src _ s rfl).trans (otaRx_payload hc hb hm src)

/-- A node to which the radio has delivered a message. -/
def Node.receives (n : Node) (src : Addr) (m : Msg) : Node :=
  n.issue (.command (encode n.st.cfg (messageInstr n.st.cfg src m)))

/-- The frame of a message on its way to a node. -/
def Node.inbound (n : Node) (src : Addr) (m : Msg) : Packet := { src := src, dest := n.addr, bytes := frameOf n.st.cfg m }

/-- The frame of a message arrives as the message's command (R260, R517). -/
theorem deliverTo_inbound {n : Node} (hc : n.st.cfg.Valid) (hsrc : n.st.cfg.addrOk src = true)
    (hlen : m.payload.length ≤ n.st.cfg.mtu) : deliverTo rxCommand (n.inbound src m) n = n.receives src m := by
  have hdecode := decodeFrame_encodeFrame hc (n.st.cfg.tagByte m.tag) hlen []
  rw [List.append_nil] at hdecode
  have hcmd : rxCommand n.st.cfg (n.inbound src m) = some (encode n.st.cfg (messageInstr n.st.cfg src m)) := by
    simp only [rxCommand, Node.inbound, frameOf, hdecode, hsrc, and_self, if_true]
    rfl
  rw [deliverTo, hcmd]
  exact if_pos rfl

theorem System.run_append (sys : System) (es fs : List Event) : sys.run (es ++ fs) = (sys.run es).run fs :=
  List.foldl_append

theorem System.step_tick_first (a b : Node) (air : List Packet) :
    (⟨[a, b], air⟩ : System).step (.tick 0) = ⟨[a.tick, b], air⟩ := rfl

section Two

variable {a b : Node} (hne : a.addr ≠ b.addr)
include hne

/-- The one frame in the air of two nodes is delivered to the second ... -/
theorem System.deliver_second (hc : b.st.cfg.Valid) (hsrc : b.st.cfg.addrOk src = true)
    (hlen : m.payload.length ≤ b.st.cfg.mtu) :
    (⟨[a, b], [b.inbound src m]⟩ : System).step (.deliver 0 false) = ⟨[a, b.receives src m], []⟩ := by
  change (⟨[deliverTo rxCommand _ a, deliverTo rxCommand _ b], []⟩ : System) = _
  rw [deliverTo_other (p := b.inbound src m) hne, deliverTo_inbound hc hsrc hlen]

/-- ... or to the first. -/
theorem System.deliver_first (hc : a.st.cfg.Valid) (hsrc : a.st.cfg.addrOk src = true)
    (hlen : m.payload.length ≤ a.st.cfg.mtu) :
    (⟨[a, b], [a.inbound src m]⟩ : System).step (.deliver 0 false) = ⟨[a.receives src m, b], []⟩ := by
  change (⟨[deliverTo rxCommand _ a, deliverTo rxCommand _ b], []⟩ : System) = _
  rw [deliverTo_other (p := a.inbound src m) hne.symm, deliverTo_inbound hc hsrc hlen]

end Two

/-! The two answers of a round. -/

/-- The result of a client's tick with blocks missing (R401). -/
def State.requestResult (s : State) : Result :=
  { st := .ok
    effects := [.timerDisarm, .send s.ota.peer (frameOf s.cfg (.blockRequest s.ota.currentBlock)),
      .timerArm (s.ota.requestPeriodMs.zeroExtend 32)] }

/-- A client that has asked for the block it expects. -/
def State.asked (s : State) : State :=
  ({ s with tmrArmed := true, tmrDelay := s.ota.requestPeriodMs.zeroExtend 32 } : State).record s.requestResult

/-- What a server answers to a request for a block of its image (R352). -/
def State.blockMsg (s : State) (idx : U32) : Msg :=
  let n := blockLen s.cfg s.ota.totalBytes.toNat idx.toNat
  .blockResponse idx (BitVec.ofNat 16 n) (bytesAt s.flashByte (blockAddr s.cfg idx.toNat) n) s.ota.crc

/-- The result of a server's answer to `dest`. -/
def State.serveResult (s : State) (dest : Addr) (idx : U32) : Result :=
  { st := .ok, effects := [.send dest (frameOf s.cfg (s.blockMsg idx))] }

/-- A server that has answered. -/
def State.served (s : State) (dest : Addr) (idx : U32) : State := s.record (s.serveResult dest idx)

/-- A block's length fits the field that carries it (R6, R143). -/
theorem toNat_blockLen (hc : c.Valid) (total idx : Nat) :
    (BitVec.ofNat 16 (blockLen c total idx)).toNat = blockLen c total idx := by
  have hle : blockLen c total idx ≤ c.blockSize := Nat.min_le_left _ _
  have hsize := hc.blockSize_le
  simp only [BitVec.toNat_ofNat]
  omega

theorem bytesAt_blockLen_length (hc : c.Valid) (read : Nat → Byte) (addr total idx : Nat) :
    (bytesAt read addr (blockLen c total idx)).length = (BitVec.ofNat 16 (blockLen c total idx)).toNat := by
  rw [bytesAt_length, toNat_blockLen hc]

theorem messageOk_blockMsg (hc : s.cfg.Valid) (idx : U32) : messageOk (s.blockMsg idx) :=
  bytesAt_blockLen_length hc _ _ _ _

theorem blockMsg_fits_mtu (hc : s.cfg.Valid) (idx : U32) : (s.blockMsg idx).payload.length ≤ s.cfg.mtu := by
  have hle : blockLen s.cfg s.ota.totalBytes.toNat idx.toNat ≤ s.cfg.blockSize := Nat.min_le_left _ _
  have hfits := hc.block_fits_mtu
  simp only [State.blockMsg, Msg.payload, List.length_append, le32_length, le16_length, bytesAt_length]
  omega

/-- Asking keeps the invariant of a client in a download. -/
theorem Inv.asked (hs : Inv s) (hb : s.otaBooted = true) (hr : s.ota.role = .client) (hd : s.ota.downloading ≠ .idle) :
    Inv s.asked :=
  (((hs.transfer hb hr hd).setTimer true _).inv rfl).record _

/-! The round. -/

/-- Both nodes of a pull count the blocks of one image (R302). -/
theorem PullPair.sameBlocks (h : PullPair client server) :
    server.st.ota.totalBlocks.toNat = client.st.ota.totalBlocks.toNat := by
  rw [h.serverInv.ota.blocksOfBytes, h.clientInv.ota.blocksOfBytes, h.sameCfg, h.sameImage]

section Round

variable (h : PullPair client server)
include h

/-- The client of a pull may be issued a tick (R52, R514). -/
theorem PullPair.armed : client.st.tmrArmed = true :=
  h.clientInv.ota.activeArmed h.clientRole (by simp [h.downloading])

theorem PullPair.serverAddr : client.st.cfg.addrOk server.addr = true := h.peer ▸ h.clientInv.width.peer

theorem PullPair.clientAddr_server : server.st.cfg.addrOk client.addr = true := h.sameCfg ▸ h.clientAddr

/-- A request fits a frame (R6, R142). -/
theorem PullPair.request_fits : (Msg.blockRequest client.st.ota.currentBlock).payload.length ≤ server.st.cfg.mtu := by
  have hfits := h.serverInv.cfg.block_fits_mtu
  simp only [Msg.payload, le32_length]
  omega

/-- So does the answer. -/
theorem PullPair.block_fits (idx : U32) : (server.st.blockMsg idx).payload.length ≤ client.st.cfg.mtu :=
  h.sameCfg ▸ blockMsg_fits_mtu h.serverInv.cfg idx

theorem PullPair.block_wellFormed (idx : U32) :
    (messageInstr client.st.cfg server.addr (server.st.blockMsg idx)).wellFormed client.st.cfg = true :=
  messageInstr_wellFormed h.clientInv.cfg h.serverAddr (h.block_fits idx)

/-- The answer brings the client to its rule (R306). -/
theorem PullPair.exec_block (idx : U32) :
    let n := blockLen client.st.cfg client.st.ota.totalBytes.toNat idx.toNat
    exec (messageInstr client.st.cfg server.addr (server.st.blockMsg idx)) client.st.asked =
      clientBlockResponse idx (BitVec.ofNat 16 n) (bytesAt server.st.flashByte (blockAddr client.st.cfg idx.toNat) n)
        server.st.ota.crc client.st.asked := by
  refine (exec_messageInstr (s := client.st.asked) h.clientInv.cfg h.clientBooted (messageOk_blockMsg h.serverInv.cfg idx)
    server.addr).trans ?_
  rw [State.blockMsg, h.sameCfg, h.sameImage]
  exact byRole_client h.clientRole _ _

variable (hk : client.st.ota.currentBlock.toNat < client.st.ota.totalBlocks.toNat)
include hk

/-- The client's tick asks the server for the next block (R401). -/
theorem PullPair.run_request :
    (⟨[client, server], []⟩ : System).run [.tick 0, .run 0, .deliver 0 false] =
      ⟨[client.stepped client.st.asked, server.receives client.addr (.blockRequest client.st.ota.currentBlock)],
        []⟩ := by
  let ticked := client.issue (.command (encode client.st.cfg .otaTick))
  let request := server.inbound client.addr (.blockRequest client.st.ota.currentBlock)
  have htick : client.tick = ticked := if_pos h.armed
  have hask : exec .otaTick client.st = .next client.st.asked :=
    exec_otaTick_requests h.clientBooted h.armed h.clientRole h.downloading hk
  have hsent : sentBy client.addr client.st.requestResult = [request] := by
    simp [sentBy, State.requestResult, request, Node.inbound, h.peer, h.sameCfg]
  have hrun : (⟨[ticked, server], []⟩ : System).step (.run 0) =
      ⟨[client.stepped client.st.asked, server], [request]⟩ := by
    rw [System.run_issued (n := client) (r := client.st.requestResult) rfl h.clientIdlePort h.clientInv.cfg rfl hask rfl,
      hsent]
    rfl
  have hdeliver := System.deliver_second (a := client.stepped client.st.asked) h.distinct h.serverInv.cfg
    h.clientAddr_server h.request_fits
  simp only [System.run, List.foldl_cons, List.foldl_nil]
  rw [System.step_tick_first, htick, hrun, hdeliver]

/-- The server answers with the block (R352). -/
theorem PullPair.run_answer :
    (⟨[client.stepped client.st.asked, server.receives client.addr (.blockRequest client.st.ota.currentBlock)], []⟩ :
        System).run [.run 1, .deliver 0 false] =
      ⟨[(client.stepped client.st.asked).receives server.addr (server.st.blockMsg client.st.ota.currentBlock),
        server.stepped (server.st.served client.addr client.st.ota.currentBlock)], []⟩ := by
  let asked := client.stepped client.st.asked
  let answer := asked.inbound server.addr (server.st.blockMsg client.st.ota.currentBlock)
  let served := server.stepped (server.st.served client.addr client.st.ota.currentBlock)
  have hserve : exec (messageInstr server.st.cfg client.addr (.blockRequest client.st.ota.currentBlock)) server.st =
      .next (server.st.served client.addr client.st.ota.currentBlock) :=
    ((exec_messageInstr h.serverInv.cfg h.serverBooted (m := .blockRequest _) trivial client.addr).trans
      (byRole_server h.serverRole _ _)).trans
      (serverBlockRequest_serves h.serverInv h.serverRole (h.sameBlocks ▸ hk) client.addr)
  have hsent : sentBy server.addr (server.st.serveResult client.addr client.st.ota.currentBlock) = [answer] := by
    simp only [sentBy, State.serveResult, h.sameCfg]
    rfl
  have hrun : (⟨[asked, server.receives client.addr (.blockRequest client.st.ota.currentBlock)], []⟩ : System).step
      (.run 1) = ⟨[asked, served], [answer]⟩ := by
    rw [System.run_issued (n := server) rfl h.serverIdlePort h.serverInv.cfg
      (messageInstr_wellFormed h.serverInv.cfg h.clientAddr_server h.request_fits) hserve rfl, hsent]
    rfl
  have hdeliver := System.deliver_first (a := asked) (b := served) h.distinct h.clientInv.cfg h.serverAddr
    (h.block_fits client.st.ota.currentBlock)
  simp only [System.run, List.foldl_cons, List.foldl_nil]
  rw [hrun, hdeliver]

/-- A round of the pull, up to what the client's rule does with the block; it sends nothing for it (R403). -/
theorem PullPair.run_pullRound {r : Result}
    (ht : exec (messageInstr client.st.cfg server.addr (server.st.blockMsg client.st.ota.currentBlock)) client.st.asked =
      .next (u.record r)) (ho : u.outputs = client.st.asked.outputs) (hq : sentBy client.addr r = []) :
    (⟨[client, server], []⟩ : System).run (pullRound 0 1) =
      ⟨[(client.stepped client.st.asked).stepped (u.record r),
        server.stepped (server.st.served client.addr client.st.ota.currentBlock)], []⟩ := by
  let asked := client.stepped client.st.asked
  let block := server.st.blockMsg client.st.ota.currentBlock
  let served := server.stepped (server.st.served client.addr client.st.ota.currentBlock)
  have hrun : (⟨[asked.receives server.addr block, served], []⟩ : System).step (.run 0) =
      ⟨[asked.stepped (u.record r), served], []⟩ := by
    have hsent : sentBy asked.addr r = [] := hq
    rw [System.run_issued (n := asked) rfl h.clientIdlePort h.clientInv.cfg (h.block_wellFormed _) ht ho, hsent]
    rfl
  have hsplit : pullRound 0 1 = [.tick 0, .run 0, .deliver 0 false] ++ ([.run 1, .deliver 0 false] ++ [.run 0]) := rfl
  rw [hsplit, System.run_append, h.run_request hk, System.run_append, h.run_answer hk]
  exact hrun

end Round

end Sys2Proof.Machine
end

section
/-! The pull over a radio that loses nothing (spec/44_ota_client.md R411, R415): each round copies the next block of the
server's image, and the last one verifies the copy. -/

namespace Sys2Proof.Machine

variable {c : Config} {f g : Nat → Byte} {client server client' server' : Node}

/-! Where the blocks of an image lie (R302). -/

theorem blockAddr_succ (c : Config) (idx : Nat) : blockAddr c (idx + 1) = blockAddr c idx + c.blockSize := by
  unfold blockAddr
  rw [Nat.succ_mul, Nat.add_assoc]

/-- The block after one that is not the last starts where that one ends. -/
theorem blockAddr_add_blockLen (hc : c.Valid) {total idx : Nat} (h : idx + 1 < blocks c total) :
    blockAddr c idx + blockLen c total idx = blockAddr c (idx + 1) := by
  have hnext := block_in_image h hc.blockSize_pos
  rw [Nat.succ_mul] at hnext
  rw [blockAddr_succ, blockLen]
  omega

/-- The last block ends where the image does. -/
theorem blockAddr_add_blockLen_last (hc : c.Valid) {total idx : Nat} (h : idx + 1 = blocks c total) :
    blockAddr c idx + blockLen c total idx = c.imageBase + total := by
  have hpos := hc.blockSize_pos
  have hin := block_in_image (Nat.lt_of_succ_le h.le) hpos
  have hceil := Nat.lt_mul_div_succ (total + c.blockSize - 1) hpos
  have hcount : (total + c.blockSize - 1) / c.blockSize = idx + 1 := h.symm
  rw [hcount, Nat.mul_add, Nat.mul_add, Nat.mul_comm] at hceil
  unfold blockLen at hin
  unfold blockAddr blockLen
  omega

/-! Flashes that read alike in a range. -/

/-- Two readings agree from `lo` up to `hi`. -/
def AgreeOn (f g : Nat → Byte) (lo hi : Nat) : Prop := ∀ a, lo ≤ a → a < hi → f a = g a

theorem AgreeOn.bytesAt_eq {lo hi addr n : Nat} (h : AgreeOn f g lo hi) (hlo : lo ≤ addr) (hhi : addr + n ≤ hi) :
    bytesAt f addr n = bytesAt g addr n := by
  refine List.map_congr_left fun a ha => ?_
  obtain ⟨h1, h2⟩ := List.mem_range'_1.1 ha
  exact h a (hlo.trans h1) (h2.trans_le hhi)

/-- Storing the bytes that follow extends the agreement. -/
theorem AgreeOn.storedAt {lo addr : Nat} (h : AgreeOn f g lo addr) (n : Nat) :
    AgreeOn (storedAt f addr (bytesAt g addr n)) g lo (addr + n) := by
  intro a hlo hhi
  unfold Machine.storedAt
  rw [bytesAt_length]
  split
  · rename_i hin
    rw [bytesAt, List.getD_eq_getElem?_getD, List.getElem?_map, List.getElem?_range' (by omega)]
    simp only [Option.map_some, Option.getD_some]
    congr 1
    omega
  · exact h a hlo (by omega)

/-- `Verify()` reads the image alone (R303, R405). -/
theorem AgreeOn.verifies {total crc : U32} (hc : c.Valid) (hl : legalLength c total.toNat = true)
    (h : AgreeOn f g c.imageBase (c.imageBase + total.toNat)) (hv : Verifies c g total crc) : Verifies c f total crc := by
  obtain ⟨⟨hmagic, hlen⟩, hcrc⟩ := hv
  have hmin := (legalLength_iff.1 hl).1
  have hheader := hc.magic_in_header
  have hrecorded : c.hdrLenOff + 4 ≤ total.toNat := hmin
  refine ⟨⟨?_, ?_⟩, ?_⟩
  · rwa [h.bytesAt_eq (by omega) (by omega)]
  · rwa [h.bytesAt_eq (by omega) (by omega)]
  · rwa [h.bytesAt_eq le_rfl le_rfl]

/-! A round. -/

/-- What a round leaves that moves a block which is not the last. -/
structure BlockMoved (client server client' server' : Node) : Prop where
  pair : PullPair client' server'
  clientCfg : client'.st.cfg = client.st.cfg
  clientOta : client'.st.ota = countedOta client.st.ota server.st.ota.crc
  clientFlash :
    let addr := blockAddr client.st.cfg client.st.ota.currentBlock.toNat
    let n := blockLen client.st.cfg client.st.ota.totalBytes.toNat client.st.ota.currentBlock.toNat
    ∀ a, client'.st.flashByte a = storedAt client.st.flashByte addr (bytesAt server.st.flashByte addr n) a
  server : ∃ r, server'.st = server.st.record r

/-- What the last round leaves when the copy is good. -/
def Transferred (client server client' server' : Node) : Prop :=
  client'.st.ota.downloading = .upgradeRequesting ∧ client'.st.ota.currentBlock = client.st.ota.totalBlocks ∧
    bytesAt client'.st.flashByte client.st.cfg.imageBase client.st.ota.totalBytes.toNat =
      bytesAt server.st.flashByte client.st.cfg.imageBase client.st.ota.totalBytes.toNat ∧
    server'.st.flash = server.st.flash

/-- The server's flash reads as before. -/
theorem BlockMoved.serverRead (h : BlockMoved client server client' server') :
    server'.st.flashByte = server.st.flashByte := by
  obtain ⟨r, hserver⟩ := h.server
  rw [hserver]
  rfl

/-- A moved block changes nothing that a completed transfer is measured by. -/
theorem BlockMoved.transferred {client₁ server₁ : Node} (h : BlockMoved client server client₁ server₁)
    (ht : Transferred client₁ server₁ client' server') : Transferred client server client' server' := by
  obtain ⟨r, hserver⟩ := h.server
  unfold Transferred at ht ⊢
  rwa [h.clientOta, h.clientCfg, h.serverRead, hserver] at ht

/-- The blocks so far are the server's. -/
def SameSoFar (client server : Node) : Prop :=
  AgreeOn client.st.flashByte server.st.flashByte client.st.cfg.imageBase
    (blockAddr client.st.cfg client.st.ota.currentBlock.toNat)

section Round

variable (h : PullPair client server)
include h

theorem PullPair.askedInv : Inv client.st.asked :=
  h.clientInv.asked h.clientBooted h.clientRole (by simp [h.downloading])

/-- The server's answer is the block the client expects (R403). -/
theorem PullPair.accepted (hk : client.st.ota.currentBlock.toNat < client.st.ota.totalBlocks.toNat) :
    blockAccepted client.st.cfg client.st.ota client.st.ota.currentBlock
      (BitVec.ofNat 16 (blockLen client.st.cfg client.st.ota.totalBytes.toNat client.st.ota.currentBlock.toNat)) = true :=
  blockAccepted_iff.2 ⟨h.downloading, hk, rfl, toNat_blockLen h.clientInv.cfg _ _⟩

/-- A round with two blocks or more missing (R411). -/
theorem PullPair.block_moved (hk : client.st.ota.currentBlock.toNat + 1 < client.st.ota.totalBlocks.toNat) :
    ∃ client' server' : Node,
      (⟨[client, server], []⟩ : System).run (pullRound 0 1) = ⟨[client', server'], []⟩ ∧
        BlockMoved client server client' server' := by
  have hlt := Nat.lt_of_succ_lt hk
  have hw := h.block_wellFormed client.st.ota.currentBlock
  have ht := (h.exec_block client.st.ota.currentBlock).trans
    (clientBlockResponse_stores (s := client.st.asked) h.askedInv h.clientRole (h.accepted hlt)
      (bytesAt_blockLen_length h.clientInv.cfg _ _ _ _) hk _)
  have hinv := (exec_cases (s := client.st.asked) h.clientInv.cfg hw ht).inv h.askedInv hw
  refine ⟨_, _, h.run_pullRound hlt ht rfl ?_, ?_⟩
  · split <;> rfl
  · exact
    { pair :=
        { clientInv := hinv
          serverInv := h.serverInv.record _
          sameCfg := h.sameCfg
          clientBooted := h.clientBooted
          serverBooted := h.serverBooted
          clientRole := h.clientRole
          serverRole := h.serverRole
          downloading := h.downloading
          sameImage := h.sameImage
          peer := h.peer
          distinct := h.distinct
          clientAddr := h.clientAddr
          clientIdlePort := h.clientIdlePort
          serverIdlePort := h.serverIdlePort }
      clientCfg := rfl
      clientOta := rfl
      clientFlash := State.flashWithBytes_flashByte h.clientInv.flash _ _
      server := ⟨_, rfl⟩ }

/-- The image of the two nodes has as many blocks as they count (R302). -/
theorem PullPair.totalBlocks : client.st.ota.totalBlocks.toNat = blocks client.st.cfg client.st.ota.totalBytes.toNat :=
  h.clientInv.ota.blocksOfBytes

/-- A moved block is one more of the server's. -/
theorem BlockMoved.sameSoFar (hm : BlockMoved client server client' server')
    (hk : client.st.ota.currentBlock.toNat + 1 < client.st.ota.totalBlocks.toNat) (hsame : SameSoFar client server) :
    SameSoFar client' server' := by
  unfold SameSoFar
  rw [hm.serverRead, hm.clientCfg, hm.clientOta, toNat_countedOta (Nat.lt_of_succ_lt hk), funext hm.clientFlash,
    ← blockAddr_add_blockLen h.clientInv.cfg (h.totalBlocks ▸ hk)]
  exact hsame.storedAt _

/-- The last round, when the server's image is one that Verify accepts (R411, R415). -/
theorem PullPair.transferred (hk : client.st.ota.currentBlock.toNat + 1 = client.st.ota.totalBlocks.toNat)
    (hv : Verifies server.st.cfg server.st.flashByte server.st.ota.totalBytes server.st.ota.crc)
    (hsame : SameSoFar client server) :
    ∃ client' server' : Node,
      (⟨[client, server], []⟩ : System).run (pullRound 0 1) = ⟨[client', server'], []⟩ ∧
        Transferred client server client' server' := by
  have hlt := Nat.lt_of_succ_le hk.le
  have hl := h.clientInv.ota.activeLength h.clientRole (by simp [h.downloading])
  have hcopied := hsame.storedAt (blockLen client.st.cfg client.st.ota.totalBytes.toNat client.st.ota.currentBlock.toNat)
  rw [blockAddr_add_blockLen_last h.clientInv.cfg (h.totalBlocks ▸ hk)] at hcopied
  rw [h.sameCfg, h.sameImage] at hv
  have ht := (h.exec_block client.st.ota.currentBlock).trans
    (clientBlockResponse_verifyOk (s := client.st.asked) h.askedInv h.clientRole (h.accepted hlt)
      (bytesAt_blockLen_length h.clientInv.cfg _ _ _ _) hk (hcopied.verifies h.clientInv.cfg hl hv))
  refine ⟨_, _, h.run_pullRound hlt ht rfl ?_, rfl, rfl, ?_, rfl⟩
  · simp only [sentBy, List.filterMap_append]
    split <;> rfl
  · refine Eq.trans ?_ (hcopied.bytesAt_eq le_rfl le_rfl)
    exact congrArg (bytesAt · _ _) (funext (State.flashWithBytes_flashByte h.clientInv.flash _ _))

end Round

/-- One round a missing block (R411, R415). -/
theorem PullPair.transfer_completes {missing : Nat} (h : PullPair client server)
    (hk : client.st.ota.currentBlock.toNat + 1 + missing = client.st.ota.totalBlocks.toNat)
    (hv : Verifies server.st.cfg server.st.flashByte server.st.ota.totalBytes server.st.ota.crc)
    (hsame : SameSoFar client server) :
    ∃ client' server' : Node,
      (⟨[client, server], []⟩ : System).run (List.replicate (missing + 1) (pullRound 0 1)).flatten =
          ⟨[client', server'], []⟩ ∧
        Transferred client server client' server' := by
  induction missing generalizing client server with
  | zero =>
    have hround : (List.replicate (0 + 1) (pullRound 0 1)).flatten = pullRound 0 1 := by simp
    rw [hround]
    exact h.transferred hk hv hsame
  | succ missing ih =>
    have hmore : client.st.ota.currentBlock.toNat + 1 < client.st.ota.totalBlocks.toNat := by omega
    obtain ⟨client₁, server₁, hrun, hm⟩ := h.block_moved hmore
    obtain ⟨r, hserver⟩ := hm.server
    have hk₁ : client₁.st.ota.currentBlock.toNat + 1 + missing = client₁.st.ota.totalBlocks.toNat := by
      rw [hm.clientOta, toNat_countedOta (Nat.lt_of_succ_lt hmore)]
      refine Eq.trans ?_ hk
      omega
    have hv₁ : Verifies server₁.st.cfg server₁.st.flashByte server₁.st.ota.totalBytes server₁.st.ota.crc := by
      rw [hserver]
      exact hv
    obtain ⟨client', server', hrest, ht⟩ := ih hm.pair hk₁ hv₁ (hm.sameSoFar h hmore hsame)
    refine ⟨client', server', ?_, hm.transferred ht⟩
    rw [List.replicate_succ, List.flatten_cons, System.run_append, hrun, hrest]

end Sys2Proof.Machine

open Sys2Proof Sys2Proof.Machine

/-- Settles O58: `PullPair.block_moved`. -/
theorem oneRoundMovesTheNextBlock : Obligations.OneRoundMovesTheNextBlock := by
  intro client server h hk idx addr n
  obtain ⟨client', server', hrun, hpair, -, hota, hflash, r, hserver⟩ := h.block_moved hk
  exact ⟨client', server', hrun, hpair, hota, by rw [hserver]; rfl, by rw [hserver]; rfl, hflash⟩

/-- Settles O59: `PullPair.transfer_completes`, for the rounds that are missing. -/
theorem transferCompletes : Obligations.TransferCompletes := by
  intro client server h hk hv hsame missing
  have hsame : SameSoFar client server := by
    unfold SameSoFar
    rw [← h.sameCfg]
    exact hsame
  obtain ⟨rounds, hrounds⟩ : ∃ rounds, missing = rounds + 1 :=
    Nat.exists_eq_succ_of_ne_zero (Nat.sub_ne_zero_of_lt hk)
  rw [hrounds]
  exact h.transfer_completes (by omega) hv hsame
end

section
/-! Earlier results are no state (spec/60_exceptions.md R503). `State.withOutputs` commutes with every primitive: what a
command reads, writes and performs does not unfold to the results, so an instruction answers the same with others in their
place, and adds one result, the one that its answer records (`SameResult`). -/

namespace Sys2Proof.Machine

variable {s : State} {old o : List Result}

/-- The state with `o` for the results so far. -/
def State.withOutputs (s : State) (o : List Result) : State := { s with outputs := o }

/-- The command in progress, with `o` for the results so far. -/
def Work.withOutputs (w : Work) (o : List Result) : Work := { w with st := w.st.withOutputs o }

/-! What a command reads. -/

theorem State.withOutputs_cfg (s : State) (o : List Result) : (s.withOutputs o).cfg = s.cfg := rfl
theorem State.withOutputs_ota (s : State) (o : List Result) : (s.withOutputs o).ota = s.ota := rfl
theorem State.withOutputs_nv (s : State) (o : List Result) : (s.withOutputs o).nv = s.nv := rfl

theorem State.withOutputs_crcChunks (s : State) (o : List Result) (len : Nat) :
    ∀ fuel k v, (s.withOutputs o).crcChunks len fuel k v = s.crcChunks len fuel k v
  | 0, _, _ => rfl
  | fuel + 1, k, v => by
    simp only [State.crcChunks, State.withOutputs_crcChunks s o len fuel]
    rfl

theorem State.withOutputs_crcFlash (s : State) (o : List Result) (len : Nat) :
    (s.withOutputs o).crcFlash len = s.crcFlash len := by
  simp only [State.crcFlash, State.withOutputs_crcChunks]
  rfl

/-! What a command in progress does. -/

theorem Work.withOutputs_memWrite (w : Work) (o : List Result) (addr : Nat) (v : Bytes) :
    (w.withOutputs o).memWrite addr v = (w.memWrite addr v).map (·.withOutputs o) := by
  unfold Work.memWrite
  rw [apply_ite (Except.map _)]
  rfl

theorem Work.withOutputs_flashErase (w : Work) (o : List Result) (sector : Nat) :
    (w.withOutputs o).flashErase sector = (w.flashErase sector).map (·.withOutputs o) := by
  unfold Work.flashErase
  rw [apply_ite (Except.map _)]
  rfl

theorem Work.withOutputs_eraseSectors (w : Work) (o : List Result) (sectors : List Nat) :
    (w.withOutputs o).eraseSectors sectors = (w.eraseSectors sectors).map (·.withOutputs o) := by
  induction sectors generalizing w with
  | nil => rfl
  | cons x xs ih =>
    simp only [Work.eraseSectors, Work.withOutputs_flashErase]
    cases w.flashErase x with
    | ok w' => exact ih w'
    | error e => rfl

theorem Work.withOutputs_eraseImage (w : Work) (o : List Result) (t : Nat) :
    (w.withOutputs o).eraseImage t = (w.eraseImage t).map (·.withOutputs o) :=
  w.withOutputs_eraseSectors o _

theorem Work.withOutputs_checkpoint (w : Work) (o : List Result) :
    (w.withOutputs o).checkpoint = w.checkpoint.withOutputs o := by
  rw [Work.checkpoint_eq, Work.checkpoint_eq, apply_ite (Work.withOutputs · o)]
  rfl

theorem Work.checkpoint_outputs (w : Work) : w.checkpoint.st.outputs = w.st.outputs := by
  rw [w.checkpoint_frame]

/-! Answers. -/

/-- Where the first answer is a next state, it has one result after the results `old`, and the second answer is that state
with the same result after the results `o`. -/
def SameResult (old o : List Result) (a b : Answer) : Prop :=
  ∀ t, a = .next t → ∃ r, t.outputs = old ++ [r] ∧ b = .next (t.withOutputs (o ++ [r]))

theorem SameResult.answer (s : State) {r : Result} : SameResult s.outputs o (s.answer r) ((s.withOutputs o).answer r) := by
  rintro _ ⟨⟩
  exact ⟨r, rfl, rfl⟩

theorem SameResult.finish {w : Work} {st : Status} {res : U32} (ho : w.st.outputs = old) :
    SameResult old o (w.finish st res) ((w.withOutputs o).finish st res) := by
  subst ho
  exact .answer w.st

/-- A test whose condition the results do not enter. -/
theorem SameResult.ite {P : Prop} [Decidable P] {a b a' b' : Answer} (h : P → SameResult old o a b)
    (h' : ¬ P → SameResult old o a' b') : SameResult old o (if P then a else a') (if P then b else b') := by
  split
  · exact h ‹_›
  · exact h' ‹_›

/-- A value that is read. -/
theorem SameResult.andThen {α : Type} {x : Except Fault α} {f g : α → Answer}
    (h : ∀ v, SameResult old o (f v) (g v)) : SameResult old o (andThen x f) (andThen x g) := by
  intro t ht
  obtain ⟨v, rfl, hf⟩ := andThen_eq_next ht
  exact h v t hf

/-- A command in progress that goes on after a flash access, which writes no result. -/
theorem SameResult.andThen_map {x : Except Fault Work} {f g : Work → Answer}
    (hx : ∀ w, x = .ok w → w.st.outputs = old)
    (h : ∀ w, w.st.outputs = old → SameResult old o (f w) (g (w.withOutputs o))) :
    SameResult old o (Machine.andThen x f) (Machine.andThen (x.map (·.withOutputs o)) g) := by
  intro t ht
  obtain ⟨w, rfl, hf⟩ := andThen_eq_next ht
  exact h w (hx w rfl) t hf

theorem SameResult.memWrite {w : Work} {addr : Nat} {v : Bytes} {f g : Work → Answer} (ho : w.st.outputs = old)
    (h : ∀ w', w'.st.outputs = old → SameResult old o (f w') (g (w'.withOutputs o))) :
    SameResult old o (Machine.andThen (w.memWrite addr v) f) (Machine.andThen ((w.withOutputs o).memWrite addr v) g) := by
  rw [Work.withOutputs_memWrite]
  refine .andThen_map (fun w' he => ?_) h
  obtain ⟨-, rfl⟩ := Work.memWrite_eq_ok he
  exact ho

theorem SameResult.eraseImage {w : Work} {n : Nat} {f g : Work → Answer} (ho : w.st.outputs = old)
    (h : ∀ w', w'.st.outputs = old → SameResult old o (f w') (g (w'.withOutputs o))) :
    SameResult old o (Machine.andThen (w.eraseImage n) f) (Machine.andThen ((w.withOutputs o).eraseImage n) g) := by
  rw [Work.withOutputs_eraseImage]
  refine .andThen_map (fun w' he => ?_) h
  rw [(Work.eraseImage_eq_ok he).st]
  exact ho

theorem SameResult.rbGuard {a b : Answer} (h : SameResult s.outputs o a b) :
    SameResult s.outputs o (rbGuard s a) (rbGuard (s.withOutputs o) b) :=
  .ite (fun _ => h) fun _ => .answer s

theorem SameResult.otaGuard {a b : Answer} (h : SameResult s.outputs o a b) :
    SameResult s.outputs o (otaGuard s a) (otaGuard (s.withOutputs o) b) :=
  .ite (fun _ => h) fun _ => .answer s

theorem SameResult.byRole {a b a' b' : Answer} (h : SameResult old o a b) (h' : SameResult old o a' b') :
    SameResult old o (byRole s a a') (byRole (s.withOutputs o) b b') := by
  unfold Machine.byRole
  rw [State.withOutputs_ota]
  split
  · exact h
  · exact h'

/-! The client. -/

theorem SameResult.verify {w : Work} (ho : w.st.outputs = old) :
    SameResult old o (verify w) (verify (w.withOutputs o)) := by
  unfold Machine.verify
  refine .andThen fun hdr => ?_
  have hcrc : (w.withOutputs o).st.crcFlash = w.st.crcFlash := funext (w.st.withOutputs_crcFlash o)
  rw [hcrc]
  exact .andThen fun crc => .ite (fun _ => .finish ho) fun _ => .eraseImage ho fun _ ho' => .finish ho'

theorem SameResult.blockWritten {w : Work} (ho : w.st.outputs = old) (crc : U32) :
    SameResult old o (blockWritten crc w) (blockWritten crc (w.withOutputs o)) := by
  unfold Machine.blockWritten
  extract_lets ov v u ov' v' u'
  have hu : u' = u.withOutputs o := v.withOutputs_checkpoint o
  have hout : u.st.outputs = old := v.checkpoint_outputs.trans ho
  rw [hu]
  exact .ite (fun _ => .verify hout) fun _ => .finish hout

theorem SameResult.clientNotify (src : Addr) (total : U32) (period : U16) :
    SameResult s.outputs o (clientNotify src total period s) (clientNotify src total period (s.withOutputs o)) :=
  .ite (fun _ => .eraseImage rfl fun _ ho => .finish ho) fun _ => .answer s

theorem SameResult.clientBlockResponse (idx : U32) (n : U16) (data : Bytes) (crc : U32) :
    SameResult s.outputs o (clientBlockResponse idx n data crc s) (clientBlockResponse idx n data crc (s.withOutputs o)) :=
  .ite (fun _ => .memWrite rfl fun _ ho => .blockWritten ho crc) fun _ => .answer s

theorem SameResult.clientUpgradeResponse :
    SameResult s.outputs o (clientUpgradeResponse s) (clientUpgradeResponse (s.withOutputs o)) :=
  .ite (fun _ => .finish rfl) fun _ => .answer s

theorem SameResult.clientAbortRequest (src : Addr) :
    SameResult s.outputs o (clientAbortRequest src s) (clientAbortRequest src (s.withOutputs o)) := by
  unfold Machine.clientAbortRequest
  rw [State.withOutputs_ota]
  split
  · exact .finish rfl
  · exact .finish rfl

theorem SameResult.clientAbort : SameResult s.outputs o (clientAbort s) (clientAbort (s.withOutputs o)) :=
  .ite (fun _ => .answer s) fun _ => .finish rfl

theorem SameResult.otaTick : SameResult s.outputs o (execOtaTick s) (execOtaTick (s.withOutputs o)) := by
  refine .otaGuard (.ite (fun _ => .ite (fun _ => .finish rfl) fun _ => ?_) fun _ => .answer s)
  rw [State.withOutputs_ota]
  split
  · exact .finish rfl
  · exact .ite (fun _ => .finish rfl) fun _ => .verify rfl
  · exact .finish rfl

/-! The server. -/

theorem SameResult.otaTrigger (peer : Addr) :
    SameResult s.outputs o (execOtaTrigger peer s) (execOtaTrigger peer (s.withOutputs o)) := by
  refine .otaGuard (.ite (fun _ => .finish rfl) fun _ => ?_)
  refine .andThen fun magic => .ite (fun _ => ?_) fun _ => .finish rfl
  refine .andThen fun len => .ite (fun _ => ?_) fun _ => .finish rfl
  rw [State.withOutputs_crcFlash]
  exact .andThen fun crc => .finish rfl

theorem SameResult.serverBlockRequest (src : Addr) (idx : U32) :
    SameResult s.outputs o (serverBlockRequest src idx s) (serverBlockRequest src idx (s.withOutputs o)) :=
  .ite (fun _ => .answer s) fun _ => .andThen fun _ => .finish rfl

/-! The commands of both halves. -/

/-- Each rule of R306's table. -/
theorem SameResult.dispatchMsg (src : Addr) (m : Msg) :
    SameResult s.outputs o (dispatchMsg src m s) (dispatchMsg src m (s.withOutputs o)) := by
  cases m with
  | notify total period => exact .byRole (.clientNotify src total period) (.answer s)
  | blockRequest idx => exact .byRole (.answer s) (.serverBlockRequest src idx)
  | blockResponse idx n data crc => exact .byRole (.clientBlockResponse idx n data crc) (.answer s)
  | abortRequest => exact .byRole (.clientAbortRequest src) (.finish rfl)
  | abortResponse => exact .byRole (.answer s) (.finish rfl)
  | upgradeRequest => exact .byRole (.answer s) (.finish rfl)
  | upgradeResponse => exact .byRole .clientUpgradeResponse (.answer s)
  | statusRequest => exact .byRole (.finish rfl) (.answer s)
  | statusResponse ip pct rem => exact .byRole (.answer s) (.finish rfl)

theorem SameResult.otaRx (type : Byte) (src : Addr) (payload : Bytes) :
    SameResult s.outputs o (otaRx type src payload s) (otaRx type src payload (s.withOutputs o)) := by
  refine .otaGuard ?_
  rw [State.withOutputs_cfg]
  split
  · exact .answer s
  · exact .answer s
  · exact .dispatchMsg src _

theorem SameResult.otaBoot : SameResult s.outputs o (execOtaBoot s) (execOtaBoot (s.withOutputs o)) := by
  refine .ite (fun _ => .answer s) fun _ => ?_
  dsimp only
  rw [State.withOutputs_nv]
  split
  · exact .finish rfl
  · exact .ite (fun _ => .finish rfl) fun _ => .finish rfl

theorem SameResult.fcParse (type : Byte) (payload : Bytes) :
    SameResult s.outputs o (execFcParse type payload s) (execFcParse type payload (s.withOutputs o)) := by
  unfold execFcParse
  rw [State.withOutputs_cfg]
  split
  · exact .answer s
  · exact .answer s
  · exact .answer s

/-- Every instruction. -/
theorem SameResult.exec (s : State) (o : List Result) (i : Instr) :
    SameResult s.outputs o (exec i s) (exec i (s.withOutputs o)) := by
  cases i with
  | rbInit cap => exact .ite (fun _ => .answer (s.initRing cap)) fun _ => .answer s
  | rbClear => exact .rbGuard (.answer (s.setIndices 0 0))
  | rbFree => exact .rbGuard (.answer s)
  | rbSize => exact .rbGuard (.answer s)
  | rbPush data => exact .rbGuard (.ite (fun _ => .answer s) fun _ => .answer (s.pushBytes data))
  | rbPop n copy => exact .rbGuard (.ite (fun _ => .answer s) fun _ => .answer (s.popBytes n.toNat))
  | rbPeek n => exact .rbGuard (.ite (fun _ => .answer s) fun _ => .answer s)
  | fcEncode type payload => exact .ite (fun _ => .answer s) fun _ => .answer s
  | fcDecode buffer => exact .answer s
  | fcCksum data => exact .answer s
  | fcParse type payload => exact .fcParse type payload
  | otaRxNotify src payload => exact .otaRx _ src payload
  | otaRxBlockReq src payload => exact .otaRx _ src payload
  | otaRxBlockResp src payload => exact .otaRx _ src payload
  | otaRxAbortReq src payload => exact .otaRx _ src payload
  | otaRxAbortResp src payload => exact .otaRx _ src payload
  | otaRxUpgReq src payload => exact .otaRx _ src payload
  | otaRxUpgResp src payload => exact .otaRx _ src payload
  | otaRxStatusReq src payload => exact .otaRx _ src payload
  | otaRxStatusResp src payload => exact .otaRx _ src payload
  | otaRxOther type src payload => exact .otaRx type src payload
  | otaTick => exact .otaTick
  | otaTrigger peer => exact .otaTrigger peer
  | otaAbort => exact .otaGuard (.byRole .clientAbort (.finish rfl))
  | otaPoll => exact .otaGuard (.byRole (.finish rfl) (.finish rfl))
  | otaBoot => exact .otaBoot

end Sys2Proof.Machine

open Sys2Proof Sys2Proof.Machine

/-- Settles O14: `SameResult.exec`; the result an instruction adds is the one it adds to any other results. -/
theorem resultsAreOutputsNotState : Obligations.ResultsAreOutputsNotState := by
  intro s t i h
  obtain ⟨r, ho, -⟩ := SameResult.exec s [] i t h
  refine ⟨r, ho, fun o => ?_⟩
  obtain ⟨r', ho', he⟩ := SameResult.exec s o i t h
  obtain rfl : r' = r := by simpa [ho] using ho'.symm
  exact he
end

section
/-! What a step leaves of the parameters and the results (spec/00_scope.md R5, spec/60_exceptions.md R500). -/

open Sys2Proof Sys2Proof.Machine

/-- Settles O13: a wait and a reset add no result, an illegal command one, and an instruction one by O14. -/
theorem stepKeepsParameters : Obligations.StepKeepsParameters := by
  intro s t h
  obtain ⟨hc, ⟨-, rfl⟩ | ⟨rest, -, rfl⟩ | ⟨cmd, rest, r, -, -, -, rfl⟩ | ⟨cmd, rest, i, -, hd, hi⟩⟩ := step_cases h
  · exact ⟨rfl, [], by simp, by simp⟩
  · exact ⟨rfl, [], by simp, by simp⟩
  · exact ⟨rfl, [{ st := .illegal }], rfl, le_rfl⟩
  · obtain ⟨r, ho, -⟩ := resultsAreOutputsNotState _ t i hi
    exact ⟨(exec_cases (s := s.withPending rest) hc (decode_wellFormed hd) hi).cfg, [r], ho, le_rfl⟩
end

section
/-! The frames that are sent (spec/60_exceptions.md R522): MTU allows the payload of every message that is sent, so
FC_DECODE takes its frame whole (R260). -/

namespace Sys2Proof.Machine

variable {s t : State} {i : Instr} {c : Config}

/-- An effect that, if it is a Send, sends one complete frame. -/
def Effect.SendsOneFrame (c : Config) (e : Effect) : Prop :=
  ∀ dest b, e = .send dest b → (decodeFrame c b).st = .ok ∧ (decodeFrame c b).consumed = b.length

theorem Quiet.sendsOneFrame (hc : c.Valid) {e : Effect} (h : Quiet c e) : e.SendsOneFrame c := by
  cases h with
  | report => exact nofun
  | send dest m hm =>
    rintro _ _ ⟨⟩
    have hdecode := decodeFrame_encodeFrame hc (c.tagByte m.tag) (hm.trans hc.block_fits_mtu) []
    rw [List.append_nil] at hdecode
    rw [frameOf, hdecode, encodeFrame_length]
    exact ⟨rfl, rfl⟩

/-- A command whose effects send whole frames, once it has answered. -/
theorem sendsOneFrame_record {u : State} (ho : u.outputs = s.outputs) {r : Result}
    (h : ∀ e ∈ r.effects, e.SendsOneFrame c) : ∀ e ∈ newEffects s (u.record r), e.SendsOneFrame c := by
  rwa [newEffects_record ho]

/-- Erasing sends nothing (R304). -/
theorem Work.ErasedBy.sendsOneFrame {w w' : Work} {sectors : List Nat} (he : w.ErasedBy sectors w')
    (hw : ∀ e ∈ w.effects, e.SendsOneFrame c) : ∀ e ∈ w'.effects, e.SendsOneFrame c := by
  rw [he.effects, List.forall_mem_append]
  exact ⟨hw, by simp [Effect.SendsOneFrame]⟩

/-- Storing a block sends nothing (R403). -/
theorem blockWork_sendsOneFrame (s : State) (addr : Nat) (data : Bytes) (crc : U32) :
    ∀ e ∈ (blockWork s addr data crc).effects, e.SendsOneFrame c := by
  unfold blockWork
  rw [Work.checkpoint_eq]
  split <;> simp [Effect.SendsOneFrame]

theorem VerifyFrom.sendsOneFrame {w : Work} (h : VerifyFrom s i w) : ∀ e ∈ w.effects, e.SendsOneFrame c := by
  cases h with
  | tick => simp [Effect.SendsOneFrame]
  | block => exact blockWork_sendsOneFrame _ _ _ _

/-- Whatever an instruction sends is one complete frame. -/
theorem Ran.sendsOneFrame (h : Ran s i t) (hc : s.cfg.Valid) : ∀ e ∈ newEffects s t, e.SendsOneFrame s.cfg := by
  cases h with
  | answered i r hq => exact sendsOneFrame_record rfl fun e he => (hq e he).sendsOneFrame hc
  | notify src p total period w hb hr hp hl hw =>
    exact sendsOneFrame_record (by rw [hw.st]; rfl)
      (List.forall_mem_append.2 ⟨hw.sendsOneFrame (by simp), by simp [Effect.SendsOneFrame]⟩)
  | block => exact sendsOneFrame_record (by rw [blockWork_frame]) (blockWork_sendsOneFrame _ _ _ _)
  | verifyOk i w hb hw =>
    exact sendsOneFrame_record (by rw [hw.frame])
      (List.forall_mem_append.2 ⟨hw.sendsOneFrame, by simp [Effect.SendsOneFrame]⟩)
  | verifyFail i w w' hb hw he =>
    exact sendsOneFrame_record (by rw [he.st, Work.setOta_st, hw.frame])
      (List.forall_mem_append.2 ⟨he.sendsOneFrame hw.sendsOneFrame, by simp [Effect.SendsOneFrame]⟩)
  | tickSends m delay hb ha hr hd hm =>
    have hsend := (Quiet.short (c := s.cfg) s.ota.peer m hm).sendsOneFrame hc
    exact sendsOneFrame_record rfl (by simpa [Effect.SendsOneFrame] using hsend)
  | trigger peer len crc =>
    have hquiet : Quiet s.cfg (.send peer (frameOf s.cfg (.notify len s.cfg.srvRequestPeriodMs))) :=
      .short _ _ (by simp [Msg.payload])
    have hsend := hquiet.sendsOneFrame hc
    exact sendsOneFrame_record rfl (by simpa [Effect.SendsOneFrame] using hsend)
  | aborted i e hb hr hi hd he =>
    have hlast := he.sendsOneFrame hc
    exact sendsOneFrame_record rfl (by simpa [Effect.SendsOneFrame] using hlast)
  | ringInit => exact sendsOneFrame_record rfl (by simp)
  | ringClear => exact sendsOneFrame_record rfl (by simp)
  | ringPush => exact sendsOneFrame_record rfl (by simp)
  | ringPop => exact sendsOneFrame_record rfl (by simp)
  | booted => exact sendsOneFrame_record rfl (by simp)
  | tickIgnored => exact sendsOneFrame_record rfl (by simp [Effect.SendsOneFrame])
  | upgradeResponse => exact sendsOneFrame_record rfl (by simp [Effect.SendsOneFrame])
  | restored => exact sendsOneFrame_record rfl (by simp [Effect.SendsOneFrame])

end Sys2Proof.Machine

open Sys2Proof Sys2Proof.Machine

/-- Settles O18: `Ran.sendsOneFrame`, for a Send. -/
theorem everySendIsOneFrame : Obligations.EverySendIsOneFrame :=
  fun _ _ _ dest b hs hw h he => (exec_cases hs.cfg hw h).sendsOneFrame hs.cfg _ he dest b rfl
end

section
/-! The events of a system (spec/60_exceptions.md R517, spec/20_memory.md R106). Said once what an event can do: each node
keeps its address, and its block is given another queue and perhaps takes a step (`Node.Moved`); a new frame in the air
comes from a node (`System.air_of_step`). -/

namespace Sys2Proof.Machine

variable {sys : System} {n m : Node}

/-! One node changed. -/

/-- A list with the element at `k` changed, compared with the list before. -/
theorem forall₂_modify {α : Type} {R : α → α → Prop} (hrefl : ∀ a, R a a) {f : α → α} :
    ∀ {l : List α} {k : Nat}, (∀ a, l[k]? = some a → R a (f a)) → List.Forall₂ R l (l.modify k f)
  | [], k, _ => by simp
  | a :: l, 0, h => by
    rw [List.modify_zero_cons]
    exact .cons (h a rfl) (List.forall₂_same.2 fun x _ => hrefl x)
  | a :: l, k + 1, h => by
    rw [List.modify_succ_cons]
    exact .cons (hrefl a) (forall₂_modify hrefl h)

/-- Each element of the second list is related to one of the first. -/
theorem exists_of_forall₂ {α : Type} {R : α → α → Prop} {l l' : List α} (h : List.Forall₂ R l l') :
    ∀ b ∈ l', ∃ a ∈ l, R a b := by
  induction h with
  | nil => simp
  | cons hab _ ih =>
    refine List.forall_mem_cons.2 ⟨⟨_, by simp, hab⟩, fun b hb => ?_⟩
    obtain ⟨a, ha, hr⟩ := ih b hb
    exact ⟨a, by simp [ha], hr⟩

/-- What one event can have done to a node: its address stays, its queue is another, and perhaps its block takes a step. -/
structure Node.Moved (n m : Node) : Prop where
  addr : m.addr = n.addr
  st : ∃ queue, m.st = n.st.withPending queue ∨ step (n.st.withPending queue) = .next m.st

theorem Node.Moved.refl (n : Node) : n.Moved n := ⟨rfl, n.st.pending, .inl rfl⟩

theorem Node.Moved.issueAll (n : Node) (is : List Input) : n.Moved (n.issueAll is) := ⟨rfl, _, .inl rfl⟩

theorem Node.Moved.tick (n : Node) : n.Moved n.tick := by
  unfold Node.tick
  split
  · exact .issueAll n _
  · exact .refl n

theorem Node.Moved.powerOn (order : BootOrder) (cap : U16) (n : Node) : n.Moved (n.powerOn order cap) := by
  unfold Node.powerOn
  split
  · exact .issueAll n _
  · exact .refl n

theorem Node.Moved.boot (order : BootOrder) (cap : U16) (n : Node) : n.Moved (n.boot order cap) := by
  unfold Node.boot
  split
  · exact .issueAll n _
  · exact .refl n

theorem Node.Moved.rxBegin (src : Addr) (n : Node) : n.Moved (n.rxBegin src) :=
  ⟨n.rxBegin_addr src, n.st.pending, .inl (by unfold Node.rxBegin; split <;> rfl)⟩

theorem Node.Moved.deliverTo (f : Config → Packet → Option Command) (p : Packet) (n : Node) :
    n.Moved (deliverTo f p n) := by
  unfold Machine.deliverTo
  split
  · split
    · exact .issueAll n _
    · exact .refl n
  · exact .refl n

/-- A moved node keeps the invariant (O10). -/
theorem Node.Moved.inv (h : n.Moved m) (hn : Inv n.st) : Inv m.st := by
  obtain ⟨-, queue, hm | hm⟩ := h
  · exact hm ▸ hn.withPending queue
  · exact stepKeepsInv _ _ (hn.withPending queue) hm

/-- A moved node keeps its parameters (O13). -/
theorem Node.Moved.cfg (h : n.Moved m) : m.st.cfg = n.st.cfg := by
  obtain ⟨-, queue, hm | hm⟩ := h
  · rw [hm]
    rfl
  · exact (stepKeepsParameters _ _ hm).1

/-! The events. -/

/-- A step of node k's block, from any queue, moves node k and no other. -/
theorem System.settle_moved {k : Nat} {a : Answer} {queue : List Input} (hn : sys.nodes[k]? = some n)
    (ha : Machine.step (n.st.withPending queue) = a) (rx : State → RxPhase) :
    List.Forall₂ Node.Moved sys.nodes (sys.settle k n rx a).nodes := by
  rcases sys.settle_cases k n rx a with heq | ⟨s, rfl, heq⟩
  · rw [heq]
    exact List.forall₂_same.2 fun x _ => .refl x
  · rw [heq, List.set_eq_modify]
    refine forall₂_modify Node.Moved.refl fun x hx => ?_
    obtain rfl : x = n := Option.some.inj (hx.symm.trans hn)
    exact ⟨rfl, queue, .inr ha⟩

theorem System.deliver_moved (f : Config → Packet → Option Command) (sys : System) (k : Nat) (again : Bool) :
    List.Forall₂ Node.Moved sys.nodes (sys.deliver f k again).nodes := by
  unfold System.deliver
  split
  · exact List.forall₂_same.2 fun x _ => .refl x
  · rw [List.forall₂_map_right_iff]
    exact List.forall₂_same.2 fun x _ => .deliverTo f _ x

/-- A run or an RX_STEP command is nothing, or a step of node k's block from some queue. -/
theorem System.step_of_run {k : Nat} {e : Event} (he : e = .run k ∨ e = .rx k) :
    sys.step e = sys ∨ ∃ n queue rx, sys.nodes[k]? = some n ∧
      sys.step e = sys.settle k n rx (Machine.step (n.st.withPending queue)) := by
  rcases he with rfl | rfl
  · change sys.runNode k = sys ∨ ∃ n queue rx, _ ∧ sys.runNode k = _
    unfold System.runNode
    split
    · exact .inl rfl
    · rename_i n hn
      exact .inr ⟨n, n.st.pending, _, hn, rfl⟩
  · change sys.rxNode k = sys ∨ ∃ n queue rx, _ ∧ sys.rxNode k = _
    unfold System.rxNode
    split
    · exact .inl rfl
    · rename_i n hn
      split
      · exact .inl rfl
      · split
        · exact .inr ⟨n, _, _, hn, rfl⟩
        · exact .inl rfl

theorem System.moved_of_run {k : Nat} {e : Event} (he : e = .run k ∨ e = .rx k) :
    List.Forall₂ Node.Moved sys.nodes (sys.step e).nodes := by
  rcases System.step_of_run (sys := sys) he with heq | ⟨n, queue, rx, hn, heq⟩
  · rw [heq]
    exact List.forall₂_same.2 fun x _ => .refl x
  · rw [heq]
    exact System.settle_moved hn rfl rx

/-- Every event moves every node. -/
theorem System.step_moved (sys : System) (e : Event) : List.Forall₂ Node.Moved sys.nodes (sys.step e).nodes := by
  cases e with
  | issue k i => exact forall₂_modify .refl fun n _ => .issueAll n [i]
  | tick k => exact forall₂_modify .refl fun n _ => .tick n
  | powerOn k order cap => exact forall₂_modify .refl fun n _ => .powerOn order cap n
  | boot k order cap => exact forall₂_modify .refl fun n _ => .boot order cap n
  | rxBegin k src => exact forall₂_modify .refl fun n _ => .rxBegin src n
  | rx k => exact System.moved_of_run (.inr rfl)
  | run k => exact System.moved_of_run (.inl rfl)
  | deliver k again => exact sys.deliver_moved rxCommand k again
  | deliverBytes k again => exact sys.deliver_moved pushCommand k again
  | lose k => exact List.forall₂_same.2 fun x _ => .refl x

theorem System.step_map_addr (sys : System) (e : Event) :
    (sys.step e).nodes.map Node.addr = sys.nodes.map Node.addr := by
  rw [eq_comm, ← List.forall₂_eq_eq_eq, List.forall₂_map_left_iff, List.forall₂_map_right_iff]
  exact (sys.step_moved e).imp fun _ _ h => h.addr.symm

/-- A delivery puts no frame in the air. -/
theorem System.deliver_air {f : Config → Packet → Option Command} {k : Nat} {again : Bool} {p : Packet}
    (hp : p ∈ (sys.deliver f k again).air) : p ∈ sys.air := by
  unfold System.deliver at hp
  split at hp
  · exact hp
  · simp only [airAfter] at hp
    split at hp
    · exact hp
    · exact List.mem_of_mem_eraseIdx hp

theorem System.air_of_run {k : Nat} {e : Event} (he : e = .run k ∨ e = .rx k) {p : Packet} (hp : p ∈ (sys.step e).air) :
    p ∈ sys.air ∨ ∃ n ∈ sys.nodes, p.src = n.addr := by
  rcases System.step_of_run (sys := sys) he with heq | ⟨n, queue, rx, hn, heq⟩
  · exact .inl (heq ▸ hp)
  · rcases sys.settle_cases k n rx (Machine.step (n.st.withPending queue)) with hs | ⟨t, -, hs⟩
    · exact .inl (by rwa [heq, hs] at hp)
    · rw [heq, hs, List.mem_append, List.mem_flatMap] at hp
      refine hp.imp_right fun ⟨r, _, hr⟩ => ⟨n, List.mem_of_getElem? hn, src_of_sentBy hr⟩

/-- A frame in the air after an event was there before, or its source is a node. -/
theorem System.air_of_step {e : Event} {p : Packet} (hp : p ∈ (sys.step e).air) :
    p ∈ sys.air ∨ ∃ n ∈ sys.nodes, p.src = n.addr := by
  cases e with
  | issue => exact .inl hp
  | tick => exact .inl hp
  | powerOn => exact .inl hp
  | boot => exact .inl hp
  | rxBegin => exact .inl hp
  | rx k => exact System.air_of_run (.inr rfl) hp
  | run k => exact System.air_of_run (.inl rfl) hp
  | deliver k again => exact .inl (System.deliver_air hp)
  | deliverBytes k again => exact .inl (System.deliver_air hp)
  | lose k => exact .inl (List.mem_of_mem_eraseIdx hp)

/-- Every event keeps the nodes identified by their addresses (R517). -/
theorem System.Identified.step (h : sys.Identified) (e : Event) : (sys.step e).Identified := by
  refine h.of_nodes (sys.step_map_addr e) (fun m hm => ?_) fun p hp => System.air_of_step hp
  obtain ⟨n, hn, hmoved⟩ := exists_of_forall₂ (sys.step_moved e) m hm
  exact ⟨n, hn, hmoved.addr, by rw [hmoved.cfg]⟩

/-! What an event leaves as it was. -/

/-- A command that node k takes leaves the other nodes as they were. -/
theorem System.getElem?_of_run {k j : Nat} {e : Event} (he : e = .run k ∨ e = .rx k) (hj : j ≠ k) :
    (sys.step e).nodes[j]? = sys.nodes[j]? := by
  rcases System.step_of_run (sys := sys) he with heq | ⟨n, queue, rx, hn, heq⟩
  · rw [heq]
  · rcases sys.settle_cases k n rx (Machine.step (n.st.withPending queue)) with hs | ⟨t, -, hs⟩
    · rw [heq, hs]
    · rw [heq, hs]
      exact List.getElem?_set_ne hj.symm

/-- A delivery leaves a node with another address as it was. -/
theorem System.getElem?_of_deliver {f : Config → Packet → Option Command} {k j : Nat} {p : Packet}
    (hp : sys.air[k]? = some p) (hn : sys.nodes[j]? = some n) (ha : n.addr ≠ p.dest) (again : Bool) :
    (sys.deliver f k again).nodes[j]? = some n := by
  rw [System.deliver_eq hp, List.getElem?_map, hn]
  exact congrArg some (deliverTo_other ha)

/-- A change of one node that keeps R551's order keeps it at every node. -/
theorem bootsFirst_modify {nodes : List Node} (h : ∀ n ∈ nodes, n.st.BootsFirst) {f : Node → Node}
    (hf : ∀ n, n.st.BootsFirst → (f n).st.BootsFirst) (k : Nat) : ∀ m ∈ nodes.modify k f, m.st.BootsFirst := by
  intro m hm
  obtain ⟨n, hn, hnm⟩ := exists_of_forall₂
    (forall₂_modify (R := fun n m => n.st.BootsFirst → m.st.BootsFirst) (fun _ => id) fun n _ => hf n) m hm
  exact hnm (h n hn)

end Sys2Proof.Machine

open Sys2Proof Sys2Proof.Machine

/-- Settles O57: the invariant, the addresses and their identifying by `System.step_moved`; what stays as it was by
`System.getElem?_of_run` and `System.getElem?_of_deliver`; R551's order by the Platform's two events. -/
theorem systemEventsKeepEveryNode : Obligations.SystemEventsKeepEveryNode := by
  intro sys e hinv
  refine ⟨fun m hm => ?_, sys.step_map_addr e, fun h => h.step e, fun k j he hj => System.getElem?_of_run he hj, ?_, ?_⟩
  · obtain ⟨n, hn, hmoved⟩ := exists_of_forall₂ (sys.step_moved e) m hm
    exact hmoved.inv (hinv n hn)
  · rintro k j again p n (rfl | rfl) hp hn ha
    · exact System.getElem?_of_deliver hp hn ha again
    · exact System.getElem?_of_deliver hp hn ha again
  · rintro hboot ⟨k, order, cap, rfl | rfl⟩
    · exact bootsFirst_modify hboot (fun n => n.powerOn_bootsFirst order cap) k
    · exact bootsFirst_modify hboot (fun n => n.boot_bootsFirst order cap) k
end

section
/-! Resets and the boot discipline (spec/70_reset_and_hazards.md R550, R551, R571). Said once what a queue in order has at
its head; a step then either readies the unit whose command it takes, or finds both units ready. -/

namespace Sys2Proof.Machine

variable {s t : State} {c : Config} {cmd : Command} {rest : List Input} {r o : Bool}

/-- The Platform's reset at the head of the queue. -/
theorem step_reset (hc : s.cfg.Valid) (hp : s.pending = .reset :: rest) :
    step s = .next (s.withPending rest).resetRegisters :=
  step_input hc hp

theorem State.BootsFirst.queue {queue : List Input} (hs : s.BootsFirst) (hp : s.pending = queue) :
    bootsFirst s.cfg s.rbInited s.otaBooted queue = true :=
  hp ▸ hs

/-- A queue in order begins with any command once both units are ready, and else with the boot command of a unit that is
not ready yet. -/
theorem bootsFirst_command_cases (h : bootsFirst c r o (.command cmd :: rest) = true) :
    (r = true ∧ o = true ∧ bootsFirst c r o rest = true) ∨
      (∃ n, decode c cmd = .ok (.rbInit n) ∧ bootCapacityOk c n = true ∧ r = false ∧ bootsFirst c true o rest = true) ∨
      (decode c cmd = .ok .otaBoot ∧ o = false ∧ bootsFirst c r true rest = true) := by
  rw [bootsFirst] at h
  split at h
  · rename_i hready
    obtain ⟨rfl, rfl⟩ := Bool.and_eq_true_iff.1 hready
    exact .inl ⟨rfl, rfl, h⟩
  · split at h
    · rename_i hinit
      obtain ⟨hr, hrest⟩ := Bool.and_eq_true_iff.1 h
      obtain ⟨n, hd, hn⟩ := isBootInit_iff.1 hinit
      exact .inr (.inl ⟨n, hd, hn, (Bool.not_eq_true' _).mp hr, hrest⟩)
    · obtain ⟨hboot, hrest⟩ := Bool.and_eq_true_iff.1 h
      obtain ⟨hota, ho⟩ := Bool.and_eq_true_iff.1 hboot
      exact .inr (.inr ⟨isBootOta_iff.1 hota, (Bool.not_eq_true' _).mp ho, hrest⟩)

/-- OTA_BOOT on a node that has not booted readies the sequencer, whatever the NV store holds (R320). -/
theorem exec_otaBoot_readies (hb : s.otaBooted = false) (h : exec .otaBoot s = .next t) :
    t.cfg = s.cfg ∧ t.pending = s.pending ∧ t.rbInited = s.rbInited ∧ t.otaBooted = true := by
  by_cases hn : ∃ saved, s.nv = some saved ∧ restorable s.cfg saved = true
  · obtain ⟨saved, hnv, hrest⟩ := hn
    rw [exec_otaBoot_restores hb hnv hrest] at h
    cases h
    exact ⟨rfl, rfl, rfl, rfl⟩
  · rw [exec_otaBoot_restores_nothing hb fun saved hnv hrest => hn ⟨saved, hnv, hrest⟩] at h
    cases h
    exact ⟨rfl, rfl, rfl, rfl⟩

/-- An instruction that runs with both units ready leaves them ready, or ends the run: what it leaves at the port keeps
R551's order either way. -/
theorem Ran.bootsFirst_of_ready {i : Instr} (h : Ran s i t) (hr : s.rbInited = true) (ho : s.otaBooted = true)
    (hs : s.BootsFirst) : t.BootsFirst := by
  unfold State.BootsFirst at hs ⊢
  obtain ⟨hcfg, hp, hring, hota⟩ | ⟨hcfg, hp, hring, hota⟩ := h.units
  · rw [hr, ho] at hs
    rwa [hcfg, hp, hring hr, hota ho]
  · rw [hcfg, hp, hring, hota]
    exact bootsFirst_nextRun hs

/-- A command that runs at the head of a queue in order leaves a queue in order. -/
theorem State.BootsFirst.exec {i : Instr} (hs : s.BootsFirst) (hc : s.cfg.Valid)
    (hp : s.pending = .command cmd :: rest) (hd : decode s.cfg cmd = .ok i)
    (h : Machine.exec i (s.withPending rest) = .next t) : t.BootsFirst := by
  obtain ⟨hr, ho, hrest⟩ | ⟨n, hinit, hn, -, hrest⟩ | ⟨hboot, ho, hrest⟩ := bootsFirst_command_cases (hs.queue hp)
  · exact (exec_cases (s := s.withPending rest) hc (decode_wellFormed hd) h).bootsFirst_of_ready hr ho hrest
  · obtain rfl : i = .rbInit n := Except.ok.inj (hd.symm.trans hinit)
    rw [exec_rbInit_legal (s := s.withPending rest) (capacityLegal_of_boot hn)] at h
    cases h
    exact hrest
  · obtain rfl : i = .otaBoot := Except.ok.inj (hd.symm.trans hboot)
    obtain ⟨hcfg, hpend, hring, hota⟩ := exec_otaBoot_readies (s := s.withPending rest) ho h
    unfold State.BootsFirst
    rwa [hcfg, hpend, hring, hota]

/-- The port's ILLEGAL answer leaves a queue in order: what the decoder rejects is neither boot command. -/
theorem State.BootsFirst.illegal {e : Reject} (hs : s.BootsFirst) (hp : s.pending = .command cmd :: rest)
    (hd : decode s.cfg cmd = .error e) (res : Result) : ((s.withPending rest).record res).BootsFirst := by
  obtain ⟨-, -, hrest⟩ | ⟨n, hinit, -⟩ | ⟨hboot, -⟩ := bootsFirst_command_cases (hs.queue hp)
  · exact hrest
  · cases hd.symm.trans hinit
  · cases hd.symm.trans hboot

/-- R551's order survives every step. -/
theorem State.BootsFirst.step (hs : s.BootsFirst) (h : Machine.step s = .next t) : t.BootsFirst := by
  obtain ⟨hc, ⟨-, rfl⟩ | ⟨rest, hp, rfl⟩ | ⟨cmd, rest, e, hp, hd, -, rfl⟩ | ⟨cmd, rest, i, hp, hd, hi⟩⟩ := step_cases h
  · exact hs
  · exact hs.queue hp
  · exact hs.illegal hp hd _
  · exact hs.exec hc hp hd hi

end Sys2Proof.Machine

open Sys2Proof Sys2Proof.Machine

/-- Settles O60: the order by `State.BootsFirst.step`, and the next command by what a queue in order has at its head. -/
theorem stepKeepsBootDiscipline : Obligations.StepKeepsBootDiscipline := by
  intro s hs
  refine ⟨fun t h => hs.step h, fun cmd rest hp hnot => ?_⟩
  obtain ⟨hr, ho, -⟩ | ⟨n, hd, hn, hr, -⟩ | ⟨hd, ho, -⟩ := bootsFirst_command_cases (hs.queue hp)
  · exact absurd ⟨hr, ho⟩ hnot
  · obtain ⟨hmin, hmax⟩ := bootCapacityOk_iff.1 hn
    exact .inl ⟨n, hd, hmin, hmax, hr⟩
  · exact .inr ⟨hd, ho⟩

/-- Settles O8: the state after the Platform's reset, field by field. -/
theorem resetKeepsTheStores : Obligations.ResetKeepsTheStores := by
  intro s rest hc hp
  exact ⟨_, step_reset hc hp, rfl, rfl, rfl, rfl, rfl, rfl, rfl, rfl, rfl, fun _ => rfl⟩
end

section
/-! What a failing status leaves (spec/60_exceptions.md R502): an instruction records an answer and nothing else, or answers
OK on what it wrote; OTA_TICK alone disarms the timer and then is IGNORED (R401). -/

namespace Sys2Proof.Machine

variable {s t : State} {i : Instr}

/-- An instruction that may fail has written nothing: past the answers on the state as it was, only OTA_TICK's is not OK. -/
theorem Ran.recorded (h : Ran s i t) (hi : i ≠ .otaTick) :
    (∃ r, t = s.record r ∧ FailsQuietly i r) ∨
      ∃ (u : State) (r : Result), t = u.record r ∧ u.outputs = s.outputs ∧ r.st = .ok := by
  cases h with
  | answered i r hq hf => exact .inl ⟨r, rfl, hf⟩
  | notify src p total period w hb hr hp hl hw => exact .inr ⟨_, _, rfl, by rw [hw.st]; rfl, rfl⟩
  | block => exact .inr ⟨_, _, rfl, by rw [blockWork_frame], rfl⟩
  | verifyOk i w hb hw => exact .inr ⟨_, _, rfl, by rw [hw.frame], rfl⟩
  | verifyFail i w w' hb hw he => exact .inr ⟨_, _, rfl, by rw [he.st, Work.setOta_st, hw.frame], rfl⟩
  | tickIgnored | tickSends => exact absurd rfl hi
  | ringInit | ringClear | ringPush | ringPop | trigger | upgradeResponse | aborted | booted | restored =>
    exact .inr ⟨_, _, rfl, rfl, rfl⟩

end Sys2Proof.Machine

open Sys2Proof Sys2Proof.Machine

/-- Settles O16: what `Ran.recorded` writes with OK is no failing result. -/
theorem failingStatusRecordsNothing : Obligations.FailingStatusRecordsNothing := by
  intro s t i r hc hw hi h hout hr
  obtain ⟨r', rfl, hquiet⟩ | ⟨u, r', rfl, hu, hok⟩ := (exec_cases hc hw h).recorded hi
  · obtain rfl : r' = r := by simpa using hout
    exact ⟨rfl, hquiet hr⟩
  · obtain rfl : r' = r := by simpa [hu] using hout
    exact absurd hok hr
end

section
/-! The status values of a client (spec/44_ota_client.md R408, R410), in natural numbers. -/

namespace Sys2Proof.Machine

variable {c : Config} {o : OtaRecord}

/-- The in-progress flag of R408. -/
def progressFlag (o : OtaRecord) : Byte := if o.downloading = .idle then 0 else 1

/-- The percentage of R408, before it is kept in a byte. -/
def percentDone (o : OtaRecord) : Nat :=
  if o.totalBlocks = 0 then 0 else o.currentBlock.toNat * 100 / o.totalBlocks.toNat

/-- The remaining minutes of R408, before they are kept in 32 bits. -/
def minutesLeft (o : OtaRecord) : Nat :=
  if o.totalBlocks = 0 then 0 else o.requestPeriodMs.toNat * (o.totalBlocks.toNat - o.currentBlock.toNat) / 60000

theorem statusVals_eq (o : OtaRecord) : statusVals o =
    { inProgress := progressFlag o
      percent := BitVec.ofNat 8 (percentDone o)
      remainingMin := BitVec.ofNat 32 (minutesLeft o) } := by
  by_cases h : o.totalBlocks = 0
  · simp [statusVals, progressFlag, percentDone, minutesLeft, h]
  · have hpos : ¬ o.totalBlocks.toNat = 0 := fun hzero => h (BitVec.eq_of_toNat_eq hzero)
    simp only [statusVals, progressFlag, percentDone, minutesLeft, if_neg h, if_neg hpos]

/-- No more blocks are stored than the image has (I2). -/
theorem percentDone_le (h : o.currentBlock.toNat ≤ o.totalBlocks.toNat) : percentDone o ≤ 100 := by
  unfold percentDone
  split
  · exact Nat.zero_le _
  · exact Nat.div_le_of_le_mul (Nat.mul_le_mul_right 100 h)

/-- The bound that keeps the minutes in 32 bits, and that blocks of one byte break (log entry 11). -/
theorem blocks_le_of_two_le (hs : 2 ≤ c.blockSize) {n : Nat} (hn : n < 2 ^ 32) : blocks c n ≤ 2 ^ 31 := by
  have hhalf : n / c.blockSize ≤ n / 2 := Nat.div_le_div_left hs (by decide)
  calc blocks c n ≤ (n + c.blockSize) / c.blockSize := Nat.div_le_div_right (Nat.sub_le _ _)
    _ = n / c.blockSize + 1 := Nat.add_div_right n (by omega)
    _ ≤ 2 ^ 31 := by omega

/-- The period has 16 bits, and 65535 × 2^31 ms are less than 2^32 minutes. -/
theorem minutesLeft_lt (h : o.totalBlocks.toNat ≤ 2 ^ 31) : minutesLeft o < 2 ^ 32 := by
  unfold minutesLeft
  split
  · decide
  · have hperiod : o.requestPeriodMs.toNat ≤ 65535 := Nat.le_of_lt_succ o.requestPeriodMs.isLt
    have hmul := Nat.mul_le_mul hperiod ((Nat.sub_le _ o.currentBlock.toNat).trans h)
    omega

/-- RES of a status poll as a number: the two bytes do not overlap (R410). -/
theorem pollRes_eq (v : StatusVals) : pollRes v = BitVec.ofNat 32 (v.percent.toNat + 256 * v.inProgress.toNat) := by
  have hp := v.percent.isLt
  have hfits : v.inProgress.toNat < 2 ^ 32 := v.inProgress.isLt.trans (by decide)
  have hor : v.percent.toNat ||| v.inProgress.toNat <<< 8 = v.percent.toNat + 256 * v.inProgress.toNat := by
    rw [Nat.or_comm, ← Nat.shiftLeft_add_eq_or_of_lt hp, Nat.shiftLeft_eq]
    omega
  apply BitVec.eq_of_toNat_eq
  rw [← hor]
  simp only [pollRes, BitVec.toNat_or, BitVec.toNat_shiftLeft, BitVec.truncate_eq_setWidth, BitVec.toNat_setWidth,
    BitVec.toNat_ofNat, Nat.or_mod_two_pow, Nat.mod_eq_of_lt hfits]

end Sys2Proof.Machine

open Sys2Proof Sys2Proof.Machine

/-- Settles O52: both commands reach the client's rule, which answers the values of `statusVals_eq`. -/
theorem clientReportsItsStatus : Obligations.ClientReportsItsStatus := by
  intro s src hs hb hr
  have hpct : percentDone s.ota ≤ 100 := percentDone_le hs.ota.currentLe
  have hpoll : exec .otaPoll s = clientPoll s := (otaGuard_booted hb _).trans (byRole_client hr _ _)
  have hreq : exec (.otaRxStatusReq src []) s = clientStatusRequest src s :=
    (otaRx_payload hs.cfg hb (m := .statusRequest) trivial src).trans (byRole_client hr _ _)
  refine ⟨hpct, fun hsize => minutesLeft_lt ?_, ?_, ?_⟩
  · rw [hs.ota.blocksOfBytes]
    exact blocks_le_of_two_le hsize s.ota.totalBytes.isLt
  · rw [hreq, clientStatusRequest, statusVals_eq]
    rfl
  · have hbyte : (BitVec.ofNat 8 (percentDone s.ota)).toNat = percentDone s.ota := by
      rw [BitVec.toNat_ofNat]
      omega
    rw [hpoll, clientPoll, pollRes_eq, statusVals_eq, hbyte]
    rfl
end

section
/-! What the port does with nothing, and with what is no command (spec/00_scope.md R8, spec/60_exceptions.md R501). -/

namespace Sys2Proof.Machine

variable {s : State} {c : Config} {cmd : Command}

theorem step_of_not_valid (h : ¬ s.cfg.Valid) : step s = .refused .badConfig := if_neg h

theorem step_of_pending_nil (hc : s.cfg.Valid) (hp : s.pending = []) : step s = .next s := by
  rw [step, if_pos hc, hp]

theorem decode_addrWidth (h : c.addrOk cmd.addr = false) : decode c cmd = .error .addrWidth := by
  simp [decode, h]

theorem decode_dinLength (ha : c.addrOk cmd.addr = true) (h : cmd.din.length ≠ countedLength cmd.cw) :
    decode c cmd = .error .dinLength := by
  rw [← dinLengthOf_eq_countedLength] at h
  simp [decode, ha, h]

/-- The port refuses a rejection that is no illegal encoding: it is not a command (R501). -/
theorem serveCommand_of_not_illegal {r : Reject} (h : decode s.cfg cmd = .error r) (hr : r.isIllegal = false) :
    serveCommand cmd s = .refused (.notACommand r) := by
  simp [serveCommand, rejectCommand, h, hr]

end Sys2Proof.Machine

open Sys2Proof Sys2Proof.Machine

/-- Settles O4: the step before it takes an input, and the port at the two rejections of the boundary. -/
theorem portWaitsAndRefuses : Obligations.PortWaitsAndRefuses := by
  refine fun s => ⟨step_of_not_valid, fun hc => ⟨step_of_pending_nil hc, fun cmd rest hp => ?_⟩⟩
  have refuses {r : Reject} (hd : decode s.cfg cmd = .error r) (hr : r.isIllegal = false) :
      step s = .refused (.notACommand r) :=
    (step_input hc hp).trans (serveCommand_of_not_illegal (s := s.withPending rest) hd hr)
  exact ⟨fun ha => refuses (decode_addrWidth ha) rfl, fun ha hdin => refuses (decode_dinLength ha hdin) rfl⟩
end
